-- ==== Sys2Proof/Word.lean ====
section
/-!
DEFINITION. Bytes, 32-bit words and 16-byte blocks, as 00_scope.md R7 and R8 fix them.
-/

namespace Sys2Proof

/-- An unsigned 8-bit value (R7). -/
abbrev Byte := BitVec 8

/-- A 32-bit register value (R8, R20). -/
abbrev Word := BitVec 32

/-- A byte sequence of length `CIPHER_BS` = 16 (R7), and, for the primitive, a key of `KEY_BYTES` = 16 bytes (R5). -/
abbrev Block := { bs : List Byte // bs.length = 16 }

/-- The 32-bit register value of a natural number, which every use keeps below 2^32 (R186). -/
def word (n : Nat) : Word := BitVec.ofNat 32 n

end Sys2Proof
end

