-- ==== Sys2Proof/Syntax.lean ====
section
/-!
DEFINITION. The ten commands of the opcode map (30_encoding.md R96), one constructor a row. Buffer operands are not part
of a command: they come from the latch (R97, R102).
-/

namespace Sys2Proof

/-- A command with its immediate BS (a block size, or the keysize k of HPAIR; R94) or its flag IVP (R93). -/
inductive Instr where
  /-- PAD (R114) -/
  | pad (bs : Nat)
  /-- PVALID (R115) -/
  | pvalid (bs : Nat)
  /-- PSTRIP (R116) -/
  | pstrip (bs : Nat)
  /-- ECBENC (R145) -/
  | ecbenc
  /-- ECBDEC (R146) -/
  | ecbdec
  /-- CBCENC (R147) -/
  | cbcenc (ivp : Bool)
  /-- CBCDEC (R148) -/
  | cbcdec (ivp : Bool)
  /-- HAMD (R183) -/
  | hamd
  /-- HPAIR (R184) -/
  | hpair (k : Nat)
  /-- ECBDET (R201) -/
  | ecbdet (bs : Nat)
  deriving DecidableEq, Repr

end Sys2Proof
end

