-- ==== Sys2Proof/WellFormed.lean ====
section
/-!
DEFINITION. Which commands have an encoding: the BS field has 8 bits, so a block size or keysize is 0 to 255
(30_encoding.md R94, D19). 0 is encodable; it is rejected at execution, not here.
-/

namespace Sys2Proof

/-- The value a command carries in its BS field; 0 where the field must be 0 (R95). -/
def Instr.bsField : Instr → Nat
  | .pad bs => bs
  | .pvalid bs => bs
  | .pstrip bs => bs
  | .ecbenc => 0
  | .ecbdec => 0
  | .cbcenc _ => 0
  | .cbcdec _ => 0
  | .hamd => 0
  | .hpair k => k
  | .ecbdet bs => bs

/-- The command's immediate fits its 8-bit field (R94). -/
abbrev Instr.WellFormed (i : Instr) : Prop := i.bsField ≤ 255

end Sys2Proof
end

