-- ==== Sys2Proof/Decode.lean ====
section
/-!
DEFINITION. The command word (30_encoding.md R90 to R103): its fields, the opcode map, `Decode`, total on all 2^32 words,
and the encoder.
-/

namespace Sys2Proof

/-- The operation a row of the opcode map selects (R96). -/
inductive Op where
  | pad | pvalid | pstrip | ecbenc | ecbdec | cbcenc | cbcdec | hamd | hpair | ecbdet
  deriving DecidableEq, Repr

/-- A row of the opcode map: the bits it fixes and their values (R96; `pattern` is the table's `match`). -/
structure Row where
  op      : Op
  pattern : Word
  mask    : Word
  deriving DecidableEq, Repr

/-- Why a word is illegal (R99): its OPC is unassigned, or a bit that its OPC's row fixes differs. -/
inductive DecodeError where
  | unassignedOpcode (opc : Nat)
  | reservedBits (opc : Nat)
  deriving DecidableEq, Repr

/-- OPC = w[4:0] (R92). -/
def opcField (w : Word) : Nat := (w.extractLsb' 0 5).toNat

/-- BS = w[23:16], zero-extended (R94). -/
def bsFieldOf (w : Word) : Nat := (w.extractLsb' 16 8).toNat

/-- IVP = w[8] (R93). -/
def ivpFieldOf (w : Word) : Bool := w.getLsbD 8

/-- The opcode map (R96). -/
def opcodeRows : List Row :=
  [ ⟨.pad,    0x00000001#32, 0xFF00FFFF#32⟩,
    ⟨.pvalid, 0x00000002#32, 0xFF00FFFF#32⟩,
    ⟨.pstrip, 0x00000003#32, 0xFF00FFFF#32⟩,
    ⟨.ecbenc, 0x00000004#32, 0xFFFFFFFF#32⟩,
    ⟨.ecbdec, 0x00000005#32, 0xFFFFFFFF#32⟩,
    ⟨.cbcenc, 0x00000006#32, 0xFFFFFEFF#32⟩,
    ⟨.cbcdec, 0x00000007#32, 0xFFFFFEFF#32⟩,
    ⟨.hamd,   0x00000008#32, 0xFFFFFFFF#32⟩,
    ⟨.hpair,  0x00000009#32, 0xFF00FFFF#32⟩,
    ⟨.ecbdet, 0x0000000A#32, 0xFF00FFFF#32⟩ ]

/-- A word is a row's command iff `w AND mask = match` (R96). -/
def Row.accepts (r : Row) (w : Word) : Bool := w &&& r.mask == r.pattern

/-- The command an operation stands for, with the fields it uses (R95, R101). -/
def buildInstr (op : Op) (bs : Nat) (ivp : Bool) : Instr :=
  match op with
  | .pad => .pad bs
  | .pvalid => .pvalid bs
  | .pstrip => .pstrip bs
  | .ecbenc => .ecbenc
  | .ecbdec => .ecbdec
  | .cbcenc => .cbcenc ivp
  | .cbcdec => .cbcdec ivp
  | .hamd => .hamd
  | .hpair => .hpair bs
  | .ecbdet => .ecbdet bs

/-- OPC values 0x01 to 0x0A are assigned; 0x00 and 0x0B to 0x1F are not (R92, R99). -/
def opcAssigned (opc : Nat) : Bool := 0x01 ≤ opc && opc ≤ 0x0A

/-- The decode function, total on all words (R98); an illegal word is rejected with the reason R99 gives. -/
def decode (w : Word) : Except DecodeError Instr :=
  match opcodeRows.find? (fun r => r.accepts w) with
  | some r => .ok (buildInstr r.op (bsFieldOf w) (ivpFieldOf w))
  | none =>
    if opcAssigned (opcField w) then .error (.reservedBits (opcField w))
    else .error (.unassignedOpcode (opcField w))

/-- The command an instruction of the opcode table decodes to, its bits numbered as the table numbers them. Every command
is one 32-bit word (R90), so there is one word and no later one. -/
def decodeTableWord (nbits w : Nat) : Option Instr :=
  match decode (BitVec.ofNat 32 (w % 2 ^ nbits)) with
  | .ok i => some i
  | .error _ => none

/-- A command's OPC value (R96). -/
def opcodeOf : Instr → Nat
  | .pad _ => 0x01
  | .pvalid _ => 0x02
  | .pstrip _ => 0x03
  | .ecbenc => 0x04
  | .ecbdec => 0x05
  | .cbcenc _ => 0x06
  | .cbcdec _ => 0x07
  | .hamd => 0x08
  | .hpair _ => 0x09
  | .ecbdet _ => 0x0A

/-- A command's IVP bit; false where the bit must be 0 (R95). -/
def ivpOf : Instr → Bool
  | .pad _ => false
  | .pvalid _ => false
  | .pstrip _ => false
  | .ecbenc => false
  | .ecbdec => false
  | .cbcenc ivp => ivp
  | .cbcdec ivp => ivp
  | .hamd => false
  | .hpair _ => false
  | .ecbdet _ => false

/-- The word of a well-formed command: OPC at bits 4:0, IVP at bit 8, BS at bits 23:16, every other bit 0 (R91). -/
def encode (i : Instr) : Word :=
  BitVec.ofNat 32 (opcodeOf i) ||| (if ivpOf i then 0x00000100#32 else 0#32) |||
    (BitVec.ofNat 32 (i.bsField % 256) <<< 16)

end Sys2Proof
end

