-- ==== Sys2Proof/Config.lean ====
section
/-!
DEFINITION. The constants of this hardware (00_scope.md R5, 10_state.md R22, R23), its OPEN parameters and its free values.
The OPEN numbers of R5 (`BUF_BYTES`, `REG_BASE`, `BUF_BASE`) are fields of the state that no step changes: `BUF_BYTES` has its
default here, the bases a value of the model's (log 10). The OPEN functions `PrimEnc`, `PrimDec` are a `Primitive`.
-/

namespace Sys2Proof

/-- `CIPHER_BS`: the primitive's block size and the mode commands' block size (R5). -/
def Config.cipherBs : Nat := 16

/-- `KEY_BYTES`: the key length the primitive is contracted for (R5). -/
def Config.keyBytes : Nat := 16

/-- The default of the OPEN parameter `BUF_BYTES` (R5, D4). -/
def Config.defaultBufBytes : Nat := 65536

/-- `REG_BASE` at reset: OPEN in R5, with no default. DESIGN CHOICE (log 10). -/
def Config.defaultRegBase : Nat := 0

/-- `BUF_BASE` at reset: OPEN in R5, with no default. DESIGN CHOICE, the first address after the register space (log 10). -/
def Config.defaultBufBase : Nat := 0x1000

/-- What `ID` reads (R22). -/
def Config.idValue : Word := 0x434D5043#32

/-- What `PARAM` reads (R23). -/
def Config.paramValue : Word := 0x00001010#32

/-- The two OPEN configuration functions `PrimEnc` and `PrimDec` of R5 and 41_cipher_modes.md R140 on keys of `KEY_BYTES`
bytes: the key, then the block, to a block or `none`. Nothing is assumed of them: PRIM_TOTAL and PRIM_INV (R141) are named
hypotheses of the statements that need them (I4). -/
structure Primitive where
  enc : Block → Block → Option Block
  dec : Block → Block → Option Block
  deriving Inhabited

/-- PARAMETER (I4): the primitive this machine is connected to. It has no body: nothing about it can be proved (log 5). -/
opaque Config.primitive : Primitive

/-- FREE VALUE (R141, I2): what the primitive answers to call number `call` of the command that takes draw number `draw`
when the key is not `KEY_BYTES` long: any block, or `none` (a fault it signals). Safe (log 6). -/
opaque Config.freePrim (draw call : Nat) : Option Block

/-- FREE VALUE (R9, I3): byte `i` of the window that `MemWriteAny` leaves behind in the command that takes draw number
`draw`. Safe (log 6). -/
opaque Config.freeByte (draw i : Nat) : Byte

end Sys2Proof
end

