-- ==== Sys2Proof/Machine/State.lean ====
section
/-!
DEFINITION. The machine state of 10_state.md R43 as plain data, with the model's own fields after it; the reasons a step
can stop; the state after reset (R40).
-/

namespace Sys2Proof.Machine

/-- The completion codes (60_exceptions.md R221): exactly these ten (I12). -/
inductive ErrCode where
  | ok | invalidBlockSize | invalidLength | invalidIvLength | paddingInvalid
  | lengthMismatch | illegalCommand | range | overlap | primFault
  deriving DecidableEq, Repr

/-- The nine operand registers (R34). -/
structure Operands where
  srcAddr  : Word
  srcLen   : Word
  src2Addr : Word
  src2Len  : Word
  keyAddr  : Word
  keyLen   : Word
  ivAddr   : Word
  ivLen    : Word
  dstAddr  : Word
  deriving DecidableEq, Repr

/-- What the command latch holds: the command word and the operand registers as they stood at acceptance (R35). -/
structure Latch where
  cmd : Word
  ops : Operands
  deriving DecidableEq, Repr

/-- The buffer memory: the bytes that hold a value, by address. A byte that is not listed holds none (R43, R263). -/
abbrev Memory := List Host.Cell

/-- The canonical form: addresses strictly rising, so that equal memories are equal lists. -/
abbrev Memory.wf (m : Memory) : Prop := m.Pairwise fun c d => c.1 < d.1

/-- The width of a host access. -/
inductive Width where
  | w8 | w16 | w32
  deriving DecidableEq, Repr

/-- A host access of the register port (by byte offset, R61) or of the buffer port (by buffer address, R66; a natural number,
log 15). An access narrower than 32 bits carries its value in the low bits. -/
inductive HostOp where
  | regRead  (width : Width) (off : BitVec 12)
  | regWrite (width : Width) (off : BitVec 12) (value : Word)
  | bufRead  (width : Width) (addr : Nat)
  | bufWrite (width : Width) (addr : Nat) (value : Word)
  deriving DecidableEq, Repr

/-- A turn of one of the three agents that move (R4): a host access, the engine, or reset. -/
inductive Event where
  | host (op : HostOp)
  | engine
  | reset
  deriving DecidableEq, Repr

/-- The machine state: the record of R43, then the model's own fields. -/
structure State where
  /-- CTRL.IEN (R25) -/
  ien       : Bool
  /-- STATUS.BUSY (R26) -/
  busy      : Bool
  /-- STATUS.DONE (R27) -/
  done      : Bool
  /-- STATUS.OVR (R28) -/
  ovr       : Bool
  /-- CMD_LAST (R29) -/
  cmdLast   : Word
  /-- ERR (R30) -/
  err       : ErrCode
  /-- OUT_LEN (R31) -/
  outLen    : Word
  /-- RESULT (R32) -/
  result    : Word
  /-- RESULT2 (R33) -/
  result2   : Word
  /-- the nine operand registers (R34) -/
  ops       : Operands
  /-- the command latch L (R35) -/
  latch     : Option Latch
  /-- the buffer memory (R42) -/
  buf       : Memory
  /-- MODEL'S OWN: the OPEN parameter BUF_BYTES (R5); no step changes it (log 3) -/
  bufBytes  : Nat
  /-- MODEL'S OWN: the OPEN parameter REG_BASE, the host bus address of the register space (R5); no step changes it (log 10) -/
  regBase   : Nat
  /-- MODEL'S OWN: the OPEN parameter BUF_BASE, the host bus address of the buffer (R5); no step changes it (log 10) -/
  bufBase   : Nat
  /-- MODEL'S OWN: which command's free values come next (I2, I3; log 6) -/
  draws     : Nat
  /-- MODEL'S OWN: the turns of the agents still to come, the next one first (R70; log 1) -/
  agenda    : List Event
  /-- MODEL'S OWN: what the ports have returned to the host's reads, the newest first (log 9) -/
  responses : List Word
  deriving DecidableEq, Repr

/-- Why the machine stops. -/
inductive Fault where
  /-- A read met buffer byte `addr`, which holds no value since reset (93_implementation_defined.md I1). Raised by every
  command that reads a region, and by host buffer reads. Safe: the hardware returns some byte and goes on (log 4). -/
  | unwrittenByte (addr : Nat)
  deriving DecidableEq, Repr

/-- What has no meaning in the model. -/
inductive Refusal where
  /-- Raised by no meaning: an arm of `exec` without a meaning would answer it. Safe. -/
  | notModelled (mnemonic : String)
  /-- A register-port access that is not 32-bit at an offset ≡ 0 mod 4 (R223 (a), I5). Raised by `hostAccess`. Safe: the
  platform answers with a bus error (log 7). -/
  | unsupportedRegisterAccess
  /-- A buffer-port access that is 16-bit, or 32-bit and misaligned (R223 (b), I5). Raised by `hostAccess`. Safe (log 7). -/
  | unsupportedBufferAccess
  deriving DecidableEq, Repr

/-- The operand registers at reset: 0 each (R40). -/
def Operands.zero : Operands := ⟨0, 0, 0, 0, 0, 0, 0, 0, 0⟩

/-- The machine right after the power-on reset (R40, R261, R263) for each value of the OPEN parameters of R5, with nothing on
the agenda. -/
def State.resetWith (bufBytes regBase bufBase : Nat) : State where
  ien := false
  busy := false
  done := false
  ovr := false
  cmdLast := 0
  err := .ok
  outLen := 0
  result := 0
  result2 := 0
  ops := Operands.zero
  latch := none
  buf := []
  bufBytes := bufBytes
  regBase := regBase
  bufBase := bufBase
  draws := 0
  agenda := []
  responses := []

/-- The machine right after the power-on reset, with the default of BUF_BYTES (R5). -/
def State.reset : State := State.resetWith Config.defaultBufBytes Config.defaultRegBase Config.defaultBufBase

/-- The outcome type of every operation of this machine. -/
abbrev Result := Host.Outcome State Fault Refusal

end Sys2Proof.Machine
end

