-- ==== Sys2Proof/Machine/Ops.lean ====
section
/-!
DEFINITION. The shared operations: memory (00_scope.md R9, 20_memory.md R60 to R66), regions (R63, R64), accepting a command
(60_exceptions.md R227), ending one with `finish` and `raise` (R228, R10), the effect of reset (70_reset_and_hazards.md
R260 to R263), and the free values a command draws.
-/

namespace Sys2Proof.Machine

/-! Memory -/

/-- The value byte `a` holds, if any. -/
def Memory.get : Memory → Nat → Option Byte
  | [], _ => none
  | (k, v) :: m, a => if k = a then some v else Memory.get m a

/-- `buf[a] <- b`, keeping the addresses strictly rising. -/
def Memory.set : Memory → Nat → Byte → Memory
  | [], a, b => [(a, b)]
  | (k, v) :: m, a, b =>
    if a < k then (a, b) :: (k, v) :: m
    else if a = k then (a, b) :: m
    else (k, v) :: Memory.set m a b

/-- `MemRead(a, n)` (R9): the bytes of the region, or the first address in it that holds no value. -/
def Memory.readRange (m : Memory) (a : Nat) : Nat → Except Nat (List Byte)
  | 0 => .ok []
  | n + 1 =>
    match Memory.get m a with
    | none => .error a
    | some b =>
      match Memory.readRange m (a + 1) n with
      | .error e => .error e
      | .ok bs => .ok (b :: bs)

/-- `MemWrite(a, n, v)` (R9). -/
def Memory.writeRange (m : Memory) (a : Nat) : List Byte → Memory
  | [] => m
  | b :: bs => Memory.writeRange (Memory.set m a b) (a + 1) bs

/-! Regions -/

/-- A region (a, n): the bytes a to a + n − 1 (R63). -/
structure Region where
  addr : Nat
  len  : Nat
  deriving DecidableEq, Repr

/-- `InRange`, over the naturals (R63). -/
abbrev inRange (bufBytes : Nat) (r : Region) : Prop := r.addr + r.len ≤ bufBytes

/-- `Overlap`, over the naturals (R64). -/
abbrev overlap (r q : Region) : Prop := 0 < r.len ∧ 0 < q.len ∧ r.addr < q.addr + q.len ∧ q.addr < r.addr + r.len

/-- Run `k` on the bytes of region `r`; a byte without a value stops the machine (R9, I1). -/
def withRegion (s : State) (r : Region) (k : List Byte → Result) : Result :=
  match Memory.readRange s.buf r.addr r.len with
  | .ok bs => k bs
  | .error a => .fault (.unwrittenByte a)

/-- The engine's `MemWrite` (R9). -/
def State.memWrite (s : State) (a : Nat) (bs : List Byte) : State := { s with buf := Memory.writeRange s.buf a bs }

/-- The bytes `MemWriteAny` draws for a window of n bytes: one free value each (R9, I3). -/
def drawnBytes (draw n : Nat) : List Byte := (List.range n).map (Config.freeByte draw)

/-- The engine's `MemWriteAny` (R9). -/
def State.memWriteAny (s : State) (r : Region) : State := s.memWrite r.addr (drawnBytes s.draws r.len)

/-- The command's free values are used up: the next command draws fresh ones. -/
def State.nextDraw (s : State) : State := { s with draws := s.draws + 1 }

/-! Issue and completion -/

/-- `Accept(w)` (R227): the latch is filled from the word and the operand registers, and the results are cleared. -/
def State.accept (s : State) (w : Word) : State :=
  { s with
    latch := some ⟨w, s.ops⟩, cmdLast := w, busy := true, done := false,
    err := .ok, outLen := 0, result := 0, result2 := 0 }

/-- `finish(code, o, r, r2)` (R228). -/
def State.finish (s : State) (code : ErrCode) (o r r2 : Word) : State :=
  { s with err := code, outLen := o, result := r, result2 := r2, busy := false, done := true, latch := none }

/-- `raise E` (R10): the command ends with code E and zeroed results. This is all the block has of an exception: no pc, status
or mode is saved, and control goes nowhere (R227, R228). -/
def State.raise (s : State) (e : ErrCode) : State := s.finish e 0 0 0

/-- Return from a completion: the host's acknowledge, a STATUS write with bit 1 = 1, clears DONE and restores nothing (R230). -/
def State.clearDone (s : State) : State := { s with done := false }

/-- Reset at run time (R260 to R263): every register at its reset value, the latch empty, no byte holding a value. The OPEN
parameters, the agenda, the host's record of reads and the count of draws are not the block's and stay (log 12). -/
def State.afterReset (s : State) : State :=
  { State.resetWith s.bufBytes s.regBase s.bufBase with draws := s.draws, agenda := s.agenda, responses := s.responses }

/-- A port returns `v` to the host's read. -/
def State.respond (s : State) (v : Word) : State := { s with responses := v :: s.responses }

end Sys2Proof.Machine
end

