-- ==== Sys2Proof/Machine/Pure.lean ====
section
/-!
DEFINITION. The pure functions of the document over byte sequences: notation (00_scope.md R7), padding (40_padding.md R110
to R113, R117), blocks and the mode loops (41_cipher_modes.md R142, R145 to R148), Hamming distance and chunks
(42_hamming.md R180 to R182, R184), and the collision test (43_ecb_detect.md R200, R201).
-/

namespace Sys2Proof.Machine

/-- `s[i:j]`: the bytes at indices i to j−1 (R7). -/
def slice (s : List Byte) (i j : Nat) : List Byte := (s.take j).drop i

/-- `xor(a, b)`, bytewise, for sequences of one length (R7). -/
def xorBytes (a b : List Byte) : List Byte := List.zipWith (fun x y => x ^^^ y) a b

/-- `zeros(n)` (R7). -/
def zeros (n : Nat) : List Byte := List.replicate n 0

/-! PKCS#7 -/

/-- `padp(n, bs)`, the pad length, for bs ≥ 1 (R110). -/
def padp (n bs : Nat) : Nat := bs - n % bs

/-- `pad_fn(data, bs)` (R111). -/
def padFn (data : List Byte) (bs : Nat) : List Byte :=
  data ++ List.replicate (padp data.length bs) (BitVec.ofNat 8 (padp data.length bs))

/-- `padded_len(n, bs)`, the length of `pad_fn` applied to n bytes (R113). -/
def paddedLen (n bs : Nat) : Nat := n + padp n bs

/-- `is_valid_fn(data, bs)` (R112). -/
def isValidFn (data : List Byte) (bs : Nat) : Bool :=
  match data.getLast? with
  | none => false
  | some p =>
    data.length % bs == 0 && (decide (1 ≤ p.toNat) && decide (p.toNat ≤ bs)) &&
      (data.drop (data.length - p.toNat)).all (fun b => b == p)

/-- `strip_fn(data, bs)`: the kept length, or none for `invalid` (R117). -/
def stripFn (data : List Byte) (bs : Nat) : Option Nat :=
  if isValidFn data bs then
    match data.getLast? with
    | some p => some (data.length - p.toNat)
    | none => none
  else none

/-! The mode chainer -/

/-- `nblk(s)` (R142). -/
def nblk (s : List Byte) : Nat := s.length / Config.cipherBs

/-- `blk(s, i)`: bytes 16·i to 16·i + 15 (R142). -/
def blk (s : List Byte) (i : Nat) : List Byte := slice s (Config.cipherBs * i) (Config.cipherBs * i + Config.cipherBs)

/-- The blocks of a sequence in block order (R142). -/
def blocksOf (s : List Byte) : List (List Byte) := (List.range (nblk s)).map (blk s)

/-- The ECB loop of ECBENC and ECBDEC from call number i on: each block through the primitive, `none` at the first block it
faults on (R145, R146). -/
def ecbLoop (prim : Nat → List Byte → Option (List Byte)) : Nat → List (List Byte) → Option (List Byte)
  | _, [] => some []
  | i, b :: rest =>
    match prim i b with
    | none => none
    | some c =>
      match ecbLoop prim (i + 1) rest with
      | none => none
      | some out => some (c ++ out)

/-- The CBCENC loop with the chaining register `prev`, which takes each ciphertext block (R147). -/
def cbcEncLoop (prim : Nat → List Byte → Option (List Byte)) : Nat → List Byte → List (List Byte) → Option (List Byte)
  | _, _, [] => some []
  | i, prev, b :: rest =>
    match prim i (xorBytes b prev) with
    | none => none
    | some c =>
      match cbcEncLoop prim (i + 1) c rest with
      | none => none
      | some out => some (c ++ out)

/-- The CBCDEC loop; `prev` takes each ciphertext block read, not the decrypted one (R148). -/
def cbcDecLoop (prim : Nat → List Byte → Option (List Byte)) : Nat → List Byte → List (List Byte) → Option (List Byte)
  | _, _, [] => some []
  | i, prev, b :: rest =>
    match prim i b with
    | none => none
    | some d =>
      match cbcDecLoop prim (i + 1) b rest with
      | none => none
      | some out => some (xorBytes d prev ++ out)

/-! The Hamming engine -/

/-- `popcount8(b)`, the number of 1 bits (R180). -/
def popcount8 (b : Byte) : Nat := ((List.range 8).filter fun i => b.getLsbD i).length

/-- `hd(a, b)` for sequences of one length (R181). -/
def hd (a b : List Byte) : Nat := (List.zipWith (fun x y => popcount8 (x ^^^ y)) a b).sum

/-- `nfull(s, k)` for k ≥ 1 (R182). -/
def nfull (s : List Byte) (k : Nat) : Nat := s.length / k

/-- `fchunk(s, k, j)` (R182). -/
def fchunk (s : List Byte) (k j : Nat) : List Byte := slice s (k * j) (k * j + k)

/-- The number of adjacent pairs of full chunks (R184). -/
def pairCount (s : List Byte) (k : Nat) : Nat := if 2 ≤ nfull s k then nfull s k - 1 else 0

/-- The sum of the distances of the adjacent pairs of full chunks (R184). -/
def pairSum (s : List Byte) (k : Nat) : Nat :=
  ((List.range (pairCount s k)).map fun j => hd (fchunk s k j) (fchunk s k (j + 1))).sum

/-! The collision detector -/

/-- `nall(s, bs)` for bs ≥ 1: all chunks, a final partial one included (R200). -/
def nall (s : List Byte) (bs : Nat) : Nat := (s.length + bs - 1) / bs

/-- `achunk(s, bs, j)` (R200). -/
def achunk (s : List Byte) (bs j : Nat) : List Byte := slice s (bs * j) (min (bs * j + bs) s.length)

/-- Whether two chunks at different positions are equal as sequences, lengths included (R201). -/
def hasRepeat (s : List Byte) (bs : Nat) : Bool :=
  (List.range (nall s bs)).any fun j => (List.range j).any fun i => achunk s bs i == achunk s bs j

end Sys2Proof.Machine
end

