-- ==== Sys2Proof/Machine/Operands.lean ====
section
/-!
DEFINITION. The operand forms: descriptors in the latch (30_encoding.md R97, R102), the output window (20_memory.md R79), and
`Validate`, the checks before any memory access (60_exceptions.md R225, R226).
-/

namespace Sys2Proof.Machine

/-! Descriptors -/

/-- SRC. -/
def Latch.src (L : Latch) : Region := ⟨L.ops.srcAddr.toNat, L.ops.srcLen.toNat⟩

/-- SRC2. -/
def Latch.src2 (L : Latch) : Region := ⟨L.ops.src2Addr.toNat, L.ops.src2Len.toNat⟩

/-- KEY. -/
def Latch.key (L : Latch) : Region := ⟨L.ops.keyAddr.toNat, L.ops.keyLen.toNat⟩

/-- The IV region that R225 checks: its length is 16 whenever it is reached. -/
def Latch.iv (L : Latch) : Region := ⟨L.ops.ivAddr.toNat, Config.cipherBs⟩

/-- The window of a padding command: `padded_len` bytes at DST_ADDR (R79). -/
def Latch.padWindow (L : Latch) (bs : Nat) : Region := ⟨L.ops.dstAddr.toNat, paddedLen L.ops.srcLen.toNat bs⟩

/-- The window of a decryption: SRC_LEN bytes at DST_ADDR (R79). -/
def Latch.decWindow (L : Latch) : Region := ⟨L.ops.dstAddr.toNat, L.ops.srcLen.toNat⟩

/-- The IV descriptor's region if IVP = 1 (R225). -/
def ivReads (ivp : Bool) (L : Latch) : List Region := if ivp then [L.iv] else []

/-- The regions a command reads (R97, R225). -/
def readsOf (i : Instr) (L : Latch) : List Region :=
  match i with
  | .pad _ => [L.src]
  | .pvalid _ => [L.src]
  | .pstrip _ => [L.src]
  | .ecbenc => [L.src, L.key]
  | .ecbdec => [L.src, L.key]
  | .cbcenc ivp => [L.src, L.key] ++ ivReads ivp L
  | .cbcdec ivp => [L.src, L.key] ++ ivReads ivp L
  | .hamd => [L.src, L.src2]
  | .hpair _ => [L.src]
  | .ecbdet _ => [L.src]

/-- The output window of a writing command; the others have none (R79). -/
def windowOf (i : Instr) (L : Latch) : Option Region :=
  match i with
  | .pad bs => some (L.padWindow bs)
  | .pvalid _ => none
  | .pstrip _ => none
  | .ecbenc => some (L.padWindow Config.cipherBs)
  | .ecbdec => some L.decWindow
  | .cbcenc _ => some (L.padWindow Config.cipherBs)
  | .cbcdec _ => some L.decWindow
  | .hamd => none
  | .hpair _ => none
  | .ecbdet _ => none

/-! The checks, in the order of R225 and R226 -/

/-- BS = 0 in a command that takes a block size (R225, D18). -/
def zeroBlockSize (i : Instr) : Bool :=
  match i with
  | .pad bs => bs == 0
  | .pvalid bs => bs == 0
  | .pstrip bs => bs == 0
  | .ecbenc => false
  | .ecbdec => false
  | .cbcenc _ => false
  | .cbcdec _ => false
  | .hamd => false
  | .hpair k => k == 0
  | .ecbdet bs => bs == 0

/-- IVP = 1 with an IV_LEN that is not 16 (R144, R225). -/
def badIvLength (i : Instr) (L : Latch) : Bool :=
  match i with
  | .cbcenc ivp => ivp && L.ops.ivLen.toNat != Config.cipherBs
  | .cbcdec ivp => ivp && L.ops.ivLen.toNat != Config.cipherBs
  | .pad _ => false
  | .pvalid _ => false
  | .pstrip _ => false
  | .ecbenc => false
  | .ecbdec => false
  | .hamd => false
  | .hpair _ => false
  | .ecbdet _ => false

/-- A decryption whose SRC_LEN is no multiple of 16 (R225, D17). -/
def badLength (i : Instr) (L : Latch) : Bool :=
  match i with
  | .ecbdec => L.ops.srcLen.toNat % Config.cipherBs != 0
  | .cbcdec _ => L.ops.srcLen.toNat % Config.cipherBs != 0
  | .pad _ => false
  | .pvalid _ => false
  | .pstrip _ => false
  | .ecbenc => false
  | .cbcenc _ => false
  | .hamd => false
  | .hpair _ => false
  | .ecbdet _ => false

/-- HAMD on unequal lengths (R183, R225). -/
def lengthMismatch (i : Instr) (L : Latch) : Bool :=
  match i with
  | .hamd => L.ops.srcLen != L.ops.src2Len
  | .pad _ => false
  | .pvalid _ => false
  | .pstrip _ => false
  | .ecbenc => false
  | .ecbdec => false
  | .cbcenc _ => false
  | .cbcdec _ => false
  | .hpair _ => false
  | .ecbdet _ => false

/-- A region the command reads, or its window, is out of range (R63, R225). -/
def outOfRange (bufBytes : Nat) (i : Instr) (L : Latch) : Bool :=
  (readsOf i L ++ (windowOf i L).toList).any fun r => !decide (inRange bufBytes r)

/-- The window overlaps a region the command reads (R64, R225). -/
def windowOverlaps (i : Instr) (L : Latch) : Bool :=
  (windowOf i L).toList.any fun w => (readsOf i L).any fun r => decide (overlap w r)

/-- `Validate` after Decode: the first check that fails, in the order of R226; none if the command goes on (R225). -/
def validate (bufBytes : Nat) (i : Instr) (L : Latch) : Option ErrCode :=
  if zeroBlockSize i then some .invalidBlockSize
  else if badIvLength i L then some .invalidIvLength
  else if badLength i L then some .invalidLength
  else if lengthMismatch i L then some .lengthMismatch
  else if outOfRange bufBytes i L then some .range
  else if windowOverlaps i L then some .overlap
  else none

/-- The frame of every command (R240): nothing while the latch is empty (the engine's step is not enabled, log 13); the error
of the first check that fails, with no memory written; else the command's own effect on the latched operands. -/
def runCommand (i : Instr) (s : State) (perform : Latch → Result) : Result :=
  match s.latch with
  | none => .next s
  | some L =>
    match validate s.bufBytes i L with
    | some e => .next (s.raise e)
    | none => perform L

/-- The command's IV: the IV region's bytes if IVP = 1, else sixteen zero bytes (R144). -/
def withIv (ivp : Bool) (s : State) (L : Latch) (k : List Byte → Result) : Result :=
  if ivp then withRegion s L.iv k else k (zeros Config.cipherBs)

end Sys2Proof.Machine
end

