-- ==== Sys2Proof/Machine/Detector.lean ====
section
/-!
DEFINITION. The ECB block-collision detector: ECBDET (43_ecb_detect.md R201).
-/

namespace Sys2Proof.Machine

/-- ECBDET (R201): RESULT reports whether any chunk of SRC repeats. -/
def execEcbdet (bs : Nat) (s : State) : Result :=
  runCommand (.ecbdet bs) s fun L =>
    withRegion s L.src fun d =>
      .next (s.finish .ok 0 (if hasRepeat d bs then 1 else 0) 0)

end Sys2Proof.Machine
end

