-- ==== Sys2Proof/Machine/Hamming.lean ====
section
/-!
DEFINITION. The Hamming-distance engine: HAMD, HPAIR (42_hamming.md R183, R184).
-/

namespace Sys2Proof.Machine

/-- HAMD (R183): RESULT is the distance of SRC and SRC2. -/
def execHamd (s : State) : Result :=
  runCommand .hamd s fun L =>
    withRegion s L.src fun a =>
      withRegion s L.src2 fun b =>
        .next (s.finish .ok 0 (word (hd a b)) 0)

/-- HPAIR (R184): RESULT is the sum over the overlapping adjacent pairs of full chunks, RESULT2 their number. -/
def execHpair (k : Nat) (s : State) : Result :=
  runCommand (.hpair k) s fun L =>
    withRegion s L.src fun d =>
      .next (s.finish .ok 0 (word (pairSum d k)) (word (pairCount d k)))

end Sys2Proof.Machine
end

