-- ==== Sys2Proof/Machine/Modes.lean ====
section
/-!
DEFINITION. The CBC/ECB mode chainer: the primitive port (41_cipher_modes.md R140, R141) and ECBENC, ECBDEC, CBCENC, CBCDEC
(R145 to R148).
-/

namespace Sys2Proof.Machine

/-- A byte sequence as a block or a 16-byte key, if it has that length. -/
def toBlock (bs : List Byte) : Option Block := if h : bs.length = 16 then some ⟨bs, h⟩ else none

/-- One call of the primitive port through `f` (R140). A 16-byte key answers as the configuration function does; any other key
length is a free value of the call (I2). The engine passes blocks of 16 bytes only, so the free value stands for nothing else. -/
def primCall (f : Block → Block → Option Block) (draw call : Nat) (k b : List Byte) : Option (List Byte) :=
  match toBlock k, toBlock b with
  | some k', some b' => (f k' b').map Subtype.val
  | _, _ => (Config.freePrim draw call).map Subtype.val

/-- `PrimEnc(k, b)` of the primitive P, call number `call` of the command with draw number `draw` (R140). -/
def primEnc (P : Primitive) (draw : Nat) (k : List Byte) (call : Nat) (b : List Byte) : Option (List Byte) :=
  primCall P.enc draw call k b

/-- `PrimDec(k, b)` of the primitive P (R140). -/
def primDec (P : Primitive) (draw : Nat) (k : List Byte) (call : Nat) (b : List Byte) : Option (List Byte) :=
  primCall P.dec draw call k b

/-- The end of an encryption (R145, R147): the window takes the ciphertext, or free bytes when the primitive faulted (R79 (b)). -/
def finishEncrypt (s : State) (w : Region) (out : Option (List Byte)) : State :=
  match out with
  | some c => ((s.memWrite w.addr c).finish .ok (word w.len) 0 0).nextDraw
  | none => ((s.memWriteAny w).raise .primFault).nextDraw

/-- The end of a decryption (R146, R148): PRIM_FAULT comes before the padding check, and either error leaves free bytes in the
window (R79 (b)). On success the window holds the plaintext and its pad bytes. -/
def finishDecrypt (s : State) (w : Region) (pd : Option (List Byte)) : State :=
  match pd with
  | none => ((s.memWriteAny w).raise .primFault).nextDraw
  | some p =>
    match stripFn p Config.cipherBs with
    | some m => ((s.memWrite w.addr p).finish .ok (word m) 0 0).nextDraw
    | none => ((s.memWriteAny w).raise .paddingInvalid).nextDraw

/-- ECBENC with the primitive P (R145). -/
def ecbencWith (P : Primitive) (s : State) : Result :=
  runCommand .ecbenc s fun L =>
    withRegion s L.key fun k =>
      withRegion s L.src fun d =>
        .next (finishEncrypt s (L.padWindow Config.cipherBs)
          (ecbLoop (primEnc P s.draws k) 0 (blocksOf (padFn d Config.cipherBs))))

/-- ECBDEC with the primitive P (R146). -/
def ecbdecWith (P : Primitive) (s : State) : Result :=
  runCommand .ecbdec s fun L =>
    withRegion s L.key fun k =>
      withRegion s L.src fun ct =>
        .next (finishDecrypt s L.decWindow (ecbLoop (primDec P s.draws k) 0 (blocksOf ct)))

/-- CBCENC with the primitive P (R147). -/
def cbcencWith (P : Primitive) (ivp : Bool) (s : State) : Result :=
  runCommand (.cbcenc ivp) s fun L =>
    withRegion s L.key fun k =>
      withRegion s L.src fun d =>
        withIv ivp s L fun iv =>
          .next (finishEncrypt s (L.padWindow Config.cipherBs)
            (cbcEncLoop (primEnc P s.draws k) 0 iv (blocksOf (padFn d Config.cipherBs))))

/-- CBCDEC with the primitive P (R148). -/
def cbcdecWith (P : Primitive) (ivp : Bool) (s : State) : Result :=
  runCommand (.cbcdec ivp) s fun L =>
    withRegion s L.key fun k =>
      withRegion s L.src fun ct =>
        withIv ivp s L fun iv =>
          .next (finishDecrypt s L.decWindow (cbcDecLoop (primDec P s.draws k) 0 iv (blocksOf ct)))

/-- ECBENC (R145). -/
def execEcbenc (s : State) : Result := ecbencWith Config.primitive s

/-- ECBDEC (R146). -/
def execEcbdec (s : State) : Result := ecbdecWith Config.primitive s

/-- CBCENC (R147). -/
def execCbcenc (ivp : Bool) (s : State) : Result := cbcencWith Config.primitive ivp s

/-- CBCDEC (R148). -/
def execCbcdec (ivp : Bool) (s : State) : Result := cbcdecWith Config.primitive ivp s

end Sys2Proof.Machine
end

