-- ==== Sys2Proof/Machine/Padder.lean ====
section
/-!
DEFINITION. The PKCS#7 padder and validator: PAD, PVALID, PSTRIP (40_padding.md R114 to R116).
-/

namespace Sys2Proof.Machine

/-- PAD (R114): SRC padded at block size `bs` into the window. -/
def execPad (bs : Nat) (s : State) : Result :=
  runCommand (.pad bs) s fun L =>
    withRegion s L.src fun d =>
      .next ((s.memWrite L.ops.dstAddr.toNat (padFn d bs)).finish .ok (word (paddedLen L.ops.srcLen.toNat bs)) 0 0)

/-- PVALID (R115): an invalid padding is no error, RESULT reports it. -/
def execPvalid (bs : Nat) (s : State) : Result :=
  runCommand (.pvalid bs) s fun L =>
    withRegion s L.src fun d =>
      .next (s.finish .ok 0 (if isValidFn d bs then 1 else 0) 0)

/-- PSTRIP (R116): OUT_LEN is the kept length; no memory is written. -/
def execPstrip (bs : Nat) (s : State) : Result :=
  runCommand (.pstrip bs) s fun L =>
    withRegion s L.src fun d =>
      .next (match stripFn d bs with
        | some m => s.finish .ok (word m) 0 0
        | none => s.raise .paddingInvalid)

end Sys2Proof.Machine
end

