-- ==== Sys2Proof/Machine/Dispatch.lean ====
section
/-!
DEFINITION. `Perform` (60_exceptions.md R240): one arm per command.
-/

namespace Sys2Proof.Machine

def exec (i : Instr) (s : State) : Host.Outcome State Fault Refusal :=
  match i with
  | .pad bs => Sys2Proof.Machine.execPad bs s
  | .pvalid bs => Sys2Proof.Machine.execPvalid bs s
  | .pstrip bs => Sys2Proof.Machine.execPstrip bs s
  | .ecbenc => Sys2Proof.Machine.execEcbenc s
  | .ecbdec => Sys2Proof.Machine.execEcbdec s
  | .cbcenc ivp => Sys2Proof.Machine.execCbcenc ivp s
  | .cbcdec ivp => Sys2Proof.Machine.execCbcdec ivp s
  | .hamd => Sys2Proof.Machine.execHamd s
  | .hpair k => Sys2Proof.Machine.execHpair k s
  | .ecbdet bs => Sys2Proof.Machine.execEcbdet bs s

end Sys2Proof.Machine
end

