-- ==== Sys2Proof/Machine/Flags.lean ====
section
/-!
DEFINITION. The status flags and codes as the register port shows them: STATUS (10_state.md R26 to R28), its write-1-to-clear
bits (20_memory.md R61), CTRL (R25), ERR (R30, 60_exceptions.md R221), and the interrupt level (R41, R229).
-/

namespace Sys2Proof.Machine

/-- A flag as a 32-bit value (`zext_32`). -/
def flagWord (b : Bool) : Word := if b then 1#32 else 0#32

/-- What STATUS reads: bit 0 BUSY, bit 1 DONE, bit 2 OVR, the rest 0 (R26 to R28, R61). -/
def State.statusWord (s : State) : Word :=
  flagWord s.busy ||| (flagWord s.done <<< 1) ||| (flagWord s.ovr <<< 2)

/-- A write to STATUS: bit 1 = 1 clears DONE, bit 2 = 1 clears OVR; BUSY never changes (R27, R28, R61). -/
def State.writeStatus (s : State) (v : Word) : State :=
  let s₁ := if v.getLsbD 1 then s.clearDone else s
  if v.getLsbD 2 then { s₁ with ovr := false } else s₁

/-- A write to CTRL: IEN takes bit 0 (R25, R61). -/
def State.writeCtrl (s : State) (v : Word) : State := { s with ien := v.getLsbD 0 }

/-- The code of a completion in ERR bits 3:0 (R221). -/
def ErrCode.bits : ErrCode → BitVec 4
  | .ok => 0
  | .invalidBlockSize => 1
  | .invalidLength => 2
  | .invalidIvLength => 3
  | .paddingInvalid => 4
  | .lengthMismatch => 5
  | .illegalCommand => 6
  | .range => 7
  | .overlap => 8
  | .primFault => 9

/-- The interrupt output: the level `STATUS.DONE ∧ CTRL.IEN` (R41, R229). -/
def State.irq (s : State) : Bool := s.done && s.ien

end Sys2Proof.Machine
end

