-- ==== Sys2Proof/Machine/HostPort.lean ====
section
/-!
DEFINITION. The host's two ports: the register map and the register port (10_state.md R20 to R34, 20_memory.md R61), the buffer
port (R66 to R68), and where the platform places them on the host bus (00_scope.md R5, R235).
-/

namespace Sys2Proof.Machine

/-- The registers of the map (R21). -/
inductive Reg where
  | id | param | bufSize | ctrl | status | cmd | err | outLen | result | result2
  | srcAddr | srcLen | src2Addr | src2Len | keyAddr | keyLen | ivAddr | ivLen | dstAddr
  deriving DecidableEq, Repr

/-- The register map (R21); every other offset is reserved. -/
def registerMap : List (Nat × Reg) :=
  [ (0x000, .id), (0x004, .param), (0x008, .bufSize), (0x00C, .ctrl), (0x010, .status), (0x014, .cmd),
    (0x018, .err), (0x01C, .outLen), (0x020, .result), (0x024, .result2),
    (0x028, .srcAddr), (0x02C, .srcLen), (0x030, .src2Addr), (0x034, .src2Len),
    (0x038, .keyAddr), (0x03C, .keyLen), (0x040, .ivAddr), (0x044, .ivLen), (0x048, .dstAddr) ]

/-- The register at a byte offset, if it is not reserved (R21). -/
def regAt (off : BitVec 12) : Option Reg := registerMap.lookup off.toNat

/-- What a read of a register returns (R61). -/
def readReg (s : State) : Reg → Word
  | .id => Config.idValue
  | .param => Config.paramValue
  | .bufSize => word s.bufBytes
  | .ctrl => flagWord s.ien
  | .status => s.statusWord
  | .cmd => s.cmdLast
  | .err => s.err.bits.setWidth 32
  | .outLen => s.outLen
  | .result => s.result
  | .result2 => s.result2
  | .srcAddr => s.ops.srcAddr
  | .srcLen => s.ops.srcLen
  | .src2Addr => s.ops.src2Addr
  | .src2Len => s.ops.src2Len
  | .keyAddr => s.ops.keyAddr
  | .keyLen => s.ops.keyLen
  | .ivAddr => s.ops.ivAddr
  | .ivLen => s.ops.ivLen
  | .dstAddr => s.ops.dstAddr

/-- `RegRead(off)`: a reserved offset reads 0 (R20, R61). -/
def regRead (s : State) (off : BitVec 12) : Word :=
  match regAt off with
  | some r => readReg s r
  | none => 0

/-- A write to `CMD`: issues the word while BUSY = 0 (R227); dropped, setting OVR, while BUSY = 1 (R232). -/
def State.writeCmd (s : State) (w : Word) : State := if s.busy then { s with ovr := true } else s.accept w

/-- What a write to a register does; read-only registers ignore it (R20, R61). -/
def writeReg (s : State) (v : Word) : Reg → State
  | .id => s
  | .param => s
  | .bufSize => s
  | .ctrl => s.writeCtrl v
  | .status => s.writeStatus v
  | .cmd => s.writeCmd v
  | .err => s
  | .outLen => s
  | .result => s
  | .result2 => s
  | .srcAddr => { s with ops := { s.ops with srcAddr := v } }
  | .srcLen => { s with ops := { s.ops with srcLen := v } }
  | .src2Addr => { s with ops := { s.ops with src2Addr := v } }
  | .src2Len => { s with ops := { s.ops with src2Len := v } }
  | .keyAddr => { s with ops := { s.ops with keyAddr := v } }
  | .keyLen => { s with ops := { s.ops with keyLen := v } }
  | .ivAddr => { s with ops := { s.ops with ivAddr := v } }
  | .ivLen => { s with ops := { s.ops with ivLen := v } }
  | .dstAddr => { s with ops := { s.ops with dstAddr := v } }

/-- `RegWrite(off, v)`: a write to a reserved offset is ignored (R20, R61). -/
def regWrite (s : State) (off : BitVec 12) (v : Word) : State :=
  match regAt off with
  | some r => writeReg s v r
  | none => s

/-- Little-endian: the byte at the lowest address is bits 7:0 (R66). -/
def wordOfBytes : List Byte → Word
  | [] => 0
  | b :: bs => b.setWidth 32 ||| (wordOfBytes bs <<< 8)

/-- The four bytes of a word, bits 7:0 first (R66). -/
def bytesOfWord (v : Word) : List Byte :=
  [v.extractLsb' 0 8, v.extractLsb' 8 8, v.extractLsb' 16 8, v.extractLsb' 24 8]

/-- A host read of n bytes at `a` of the buffer port: outside BUF_BYTES it returns 0 (R66, R67); a byte without a value stops
the machine (I1). -/
def bufRead (s : State) (a n : Nat) : Result :=
  if a + n ≤ s.bufBytes then withRegion s ⟨a, n⟩ fun bs => .next (s.respond (wordOfBytes bs))
  else .next (s.respond 0)

/-- A host write of bytes at `a`: outside BUF_BYTES it has no effect (R66, R67). -/
def bufWrite (s : State) (a : Nat) (bs : List Byte) : State :=
  if a + bs.length ≤ s.bufBytes then s.memWrite a bs else s

/-- One host access, complete (R61, R66 to R68). An unsupported width or alignment is refused (R68 (d), I5). -/
def hostAccess (op : HostOp) (s : State) : Result :=
  match op with
  | .regRead .w32 off => if off.toNat % 4 = 0 then .next (s.respond (regRead s off)) else .refused .unsupportedRegisterAccess
  | .regRead .w16 _ => .refused .unsupportedRegisterAccess
  | .regRead .w8 _ => .refused .unsupportedRegisterAccess
  | .regWrite .w32 off v => if off.toNat % 4 = 0 then .next (regWrite s off v) else .refused .unsupportedRegisterAccess
  | .regWrite .w16 _ _ => .refused .unsupportedRegisterAccess
  | .regWrite .w8 _ _ => .refused .unsupportedRegisterAccess
  | .bufRead .w8 a => bufRead s a 1
  | .bufRead .w16 _ => .refused .unsupportedBufferAccess
  | .bufRead .w32 a => if a % 4 = 0 then bufRead s a 4 else .refused .unsupportedBufferAccess
  | .bufWrite .w8 a v => .next (bufWrite s a [v.extractLsb' 0 8])
  | .bufWrite .w16 _ _ => .refused .unsupportedBufferAccess
  | .bufWrite .w32 a v =>
    if a % 4 = 0 then .next (bufWrite s a (bytesOfWord v)) else .refused .unsupportedBufferAccess

/-- Whether an access is a buffer-port access, which waits while BUSY = 1 (R69). -/
def usesBuffer : HostOp → Bool
  | .regRead _ _ => false
  | .regWrite _ _ _ => false
  | .bufRead _ _ => true
  | .bufWrite _ _ _ => true

/-! The host bus -/

/-- What the block has at a host bus address: a byte of the register space or a byte of the buffer. -/
inductive BusPlace where
  | register (off : BitVec 12)
  | buffer (addr : Nat)
  deriving DecidableEq, Repr

/-- The block's place at a host bus address: the 4096 bytes of the register space from REG_BASE on (R61), then the BUF_BYTES
bytes of the buffer from BUF_BASE on (R66, R73); `none` outside both. Where a platform lets the two spaces overlap, the
register space is taken (DESIGN CHOICE, log 10). -/
def State.placeAt (s : State) (n : Nat) : Option BusPlace :=
  if s.regBase ≤ n ∧ n < s.regBase + 4096 then some (.register (BitVec.ofNat 12 (n - s.regBase)))
  else if s.bufBase ≤ n ∧ n < s.bufBase + s.bufBytes then some (.buffer (n - s.bufBase))
  else none

/-- The byte of the register space at an offset, bits 7:0 of a register at its lowest address. 10_state.md R22 gives this byte
order for ID only, and the register port moves 32-bit values only (R61, D5). That every other register has it too is the
model's. No step reads a register by bytes. DESIGN CHOICE, unsafe (log 18). -/
def regByte (s : State) (off : BitVec 12) : Byte :=
  (regRead s (off &&& 0xFFC#12)).extractLsb' (8 * (off.toNat % 4)) 8

end Sys2Proof.Machine
end

