-- ==== Sys2Proof/Machine/Agents.lean ====
section
/-!
DEFINITION. Whose turn it is and what that agent does: the engine's step (60_exceptions.md R240), the host's access with the
stall of 20_memory.md R69, and reset (70_reset_and_hazards.md R260).
-/

namespace Sys2Proof.Machine

/-- The engine's step over the meaning `run` of the commands (R240): enabled iff the latch holds a command, which it decodes
and performs whole. An illegal word completes with ILLEGAL_COMMAND (R99, R225). Not enabled, it does nothing (R238). -/
def engineStepWith (run : Instr → State → Result) (s : State) : Result :=
  match s.latch with
  | none => .next s
  | some L =>
    match decode L.cmd with
    | .error _ => .next (s.raise .illegalCommand)
    | .ok i => run i s

/-- The engine's step of this machine. -/
def engineStep (s : State) : Result := engineStepWith exec s

/-- The first turn of the agenda is used up. -/
def State.popTurn (s : State) : State := { s with agenda := s.agenda.tail }

/-- Whether the host's next access waits for the engine (R69). -/
def stalls (op : HostOp) (s : State) : Bool := usesBuffer op && s.busy

/-- One step of whichever agent has its turn, over the meaning `run` of the commands (R70). A buffer access that waits keeps its turn, and the engine moves in its
place; with no turn left only the engine can move (R69, R272; log 1). -/
def agentStepWith (run : Instr → State → Result) (s : State) : Result :=
  match s.agenda with
  | [] => engineStepWith run s
  | .engine :: _ => engineStepWith run s.popTurn
  | .reset :: _ => .next s.popTurn.afterReset
  | .host op :: _ => if stalls op s then engineStepWith run s else hostAccess op s.popTurn

/-- The step of this machine. -/
def agentStep (s : State) : Result := agentStepWith exec s

/-- Whether the engine is the next to move without a turn of its own being added. -/
def engineIsNext (s : State) : Bool :=
  match s.agenda with
  | [] => true
  | .engine :: _ => true
  | .reset :: _ => false
  | .host op :: _ => usesBuffer op

/-- The state with the word issued as `Accept` issues it (R227) and the engine next to move: what `withFetchWord` places. -/
def State.issueNext (s : State) (w : Word) : State :=
  if engineIsNext s then s.accept w else { s.accept w with agenda := .engine :: s.agenda }

end Sys2Proof.Machine
end

