-- ==== Sys2Proof/Machine/Step.lean ====
section
/-!
DEFINITION. The machine's step, and the placing of a command where the next step runs it.
-/

namespace Sys2Proof.Machine

/-- One step of the machine: one host access, one whole command, or one reset (00_scope.md R6). -/
def step (s : State) : Host.Outcome State Fault Refusal := agentStep s

/-- The block fetches nothing (R37, R77): the next command is the word the host writes to `CMD`. The word `w` of an opcode-table
row is issued, and the engine moves next, so that the very next step runs it (log 2). -/
def State.withFetchWord (s : State) (nbits w : Nat) : State := s.issueNext (BitVec.ofNat 32 (w % 2 ^ nbits))

end Sys2Proof.Machine
end

