-- ==== Sys2Proof/Machine/Script.lean ====
section
/-!
DEFINITION. Command scripts (30_encoding.md R104 to R107): host operations, the assembler's check of a command's text, the
pseudo-instructions and their expansion.
-/

namespace Sys2Proof.Machine

/-- The descriptors `set` knows (R106). -/
inductive Desc where
  | src | src2 | key | iv
  deriving DecidableEq, Repr

/-- A script line: the host operations of R104, a command (R105), and the pseudo-instructions of R106. -/
inductive ScriptOp where
  | wr (r : Reg) (v : Word)
  | rd (r : Reg)
  | wb (a : Nat) (b : Byte)
  | ww (a : Nat) (v : Word)
  | rb (a : Nat)
  | command (i : Instr)
  | wait
  | ack
  | wbs (a : Nat) (bytes : List Byte)
  | set (d : Desc) (addr len : Word)
  | run (i : Instr)
  deriving DecidableEq, Repr

/-- A register's offset (R21). -/
def offsetOf (r : Reg) : BitVec 12 :=
  match registerMap.find? (fun e => e.2 == r) with
  | some e => BitVec.ofNat 12 e.1
  | none => 0

/-- The command of an immediate that must fit the BS field (R94, R105). -/
def withImmediate (n : Nat) (make : Nat → Instr) : Option Instr := if n ≤ 255 then some (make n) else none

/-- The assembler on `<mnemonic> [bs=<n>|k=<n>] [iv]` (R105): `k=` for hpair only, `bs=` for the other commands that take a block
size, `iv` for cbcenc and cbcdec only; every other combination is refused. A command that takes an immediate must be given
it (DESIGN CHOICE, log 14). -/
def assemble (mnemonic : String) (bs k : Option Nat) (iv : Bool) : Option Instr :=
  match bs, k, iv with
  | some n, none, false =>
    if mnemonic = "pad" then withImmediate n .pad
    else if mnemonic = "pvalid" then withImmediate n .pvalid
    else if mnemonic = "pstrip" then withImmediate n .pstrip
    else if mnemonic = "ecbdet" then withImmediate n .ecbdet
    else none
  | none, some n, false => if mnemonic = "hpair" then withImmediate n .hpair else none
  | none, none, iv =>
    if mnemonic = "cbcenc" then some (.cbcenc iv)
    else if mnemonic = "cbcdec" then some (.cbcdec iv)
    else if iv then none
    else if mnemonic = "ecbenc" then some .ecbenc
    else if mnemonic = "ecbdec" then some .ecbdec
    else if mnemonic = "hamd" then some .hamd
    else none
  | _, _, _ => none

/-- The address and length registers of a descriptor. -/
def descRegs : Desc → Reg × Reg
  | .src => (.srcAddr, .srcLen)
  | .src2 => (.src2Addr, .src2Len)
  | .key => (.keyAddr, .keyLen)
  | .iv => (.ivAddr, .ivLen)

/-- `wr <REG>, v` as a host operation (R104). -/
def opWr (r : Reg) (v : Word) : HostOp := .regWrite .w32 (offsetOf r) v

/-- `rd <REG>` as a host operation (R104). -/
def opRd (r : Reg) : HostOp := .regRead .w32 (offsetOf r)

/-- `wb addr+i` of each byte i in ascending order; the address does not wrap (R106, R7). -/
def opsWbs (a : Nat) : List Byte → List HostOp
  | [] => []
  | b :: bs => .bufWrite .w8 a (b.setWidth 32) :: opsWbs (a + 1) bs

/-- A script line's turns: its host operations with the pseudo-instructions expanded (R106, R107). `wait` is encoded as its final
STATUS read, which sees BUSY = 0: the engine has had its turn before it. -/
def expandOp : ScriptOp → List Event
  | .wr r v => [.host (opWr r v)]
  | .rd r => [.host (opRd r)]
  | .wb a b => [.host (.bufWrite .w8 a (b.setWidth 32))]
  | .ww a v => [.host (.bufWrite .w32 a v)]
  | .rb a => [.host (.bufRead .w8 a)]
  | .command i => [.host (opWr .cmd (encode i))]
  | .wait => [.engine, .host (opRd .status)]
  | .ack => [.host (opWr .status 0x00000006#32)]
  | .wbs a bytes => (opsWbs a bytes).map .host
  | .set d addr len => [.host (opWr (descRegs d).1 addr), .host (opWr (descRegs d).2 len)]
  | .run i => [.host (opWr .cmd (encode i)), .engine, .host (opRd .status)]

/-- The agenda of a script: how a program comes to stand before the machine (log 2). -/
def scriptAgenda (script : List ScriptOp) : List Event := script.flatMap expandOp

/-- The encoding of a script: its host operations in program order (R107). -/
def encodeScript (script : List ScriptOp) : List HostOp :=
  (scriptAgenda script).filterMap fun e =>
    match e with
    | .host op => some op
    | .engine => none
    | .reset => none

end Sys2Proof.Machine
end

