-- ==== Sys2Proof/Machine/Parametric.lean ====
section
/-!
DEFINITION. The machine with the primitive as its argument (00_scope.md R5, 93_implementation_defined.md I4). `exec` and `step`
are these at the parameter `Config.primitive`.
-/

namespace Sys2Proof.Machine

/-- `Perform` with the primitive P (R240): only the mode commands call it. -/
def execWith (P : Primitive) (i : Instr) (s : State) : Result :=
  match i with
  | .pad bs => execPad bs s
  | .pvalid bs => execPvalid bs s
  | .pstrip bs => execPstrip bs s
  | .ecbenc => ecbencWith P s
  | .ecbdec => ecbdecWith P s
  | .cbcenc ivp => cbcencWith P ivp s
  | .cbcdec ivp => cbcdecWith P ivp s
  | .hamd => execHamd s
  | .hpair k => execHpair k s
  | .ecbdet bs => execEcbdet bs s

/-- One step of the machine connected to the primitive P. -/
def stepWith (P : Primitive) (s : State) : Result := agentStepWith (execWith P) s

end Sys2Proof.Machine
end

