-- ==== Sys2Proof/Safety.lean ====
section
/-!
DEFINITION. What statements about the machine are made of: the constraints of the OPEN parameter, the invariant of the
reachable states, a region all of whose bytes hold values, and the two assumptions on the primitive.
-/

namespace Sys2Proof.Machine

/-- The constraints on `BUF_BYTES` (00_scope.md R5). -/
abbrev bufBytesOk (n : Nat) : Prop := n % 4 = 0 ∧ 16 ≤ n ∧ n ≤ 2 ^ 24

/-- Every byte of the region holds a value, so that reading it does not stop the machine (I1). -/
def State.written (s : State) (r : Region) : Prop :=
  ∀ a, r.addr ≤ a → a < r.addr + r.len → Memory.get s.buf a ≠ none

/-- What holds in every reachable state. -/
structure State.Inv (s : State) : Prop where
  /-- BUF_BYTES is one the hardware can have (R5) -/
  params     : bufBytesOk s.bufBytes
  /-- BUSY = 1 exactly when the latch holds a command (R26) -/
  busyLatch  : s.busy = s.latch.isSome
  /-- the latched command is the last accepted one (R29, R35) -/
  cmdLatched : ∀ L, s.latch = some L → L.cmd = s.cmdLast
  /-- while BUSY = 1, DONE is 0 and ERR and the results read 0 (R27, R269) -/
  busyQuiet  : s.busy = true → s.done = false ∧ s.err = .ok ∧ s.outLen = 0 ∧ s.result = 0 ∧ s.result2 = 0
  /-- after an error no result register holds a result (R220, R222) -/
  errZero    : s.err ≠ .ok → s.outLen = 0 ∧ s.result = 0 ∧ s.result2 = 0
  /-- the memory keeps its canonical form -/
  memWf      : Memory.wf s.buf
  /-- the memory lists no byte outside BUF_BYTES (R60, R67, R79) -/
  memInside  : ∀ c ∈ s.buf, c.1 < s.bufBytes
  /-- OUT_LEN never exceeds the buffer (R63, R79) -/
  outBound   : s.outLen.toNat ≤ s.bufBytes
  /-- no scalar result exceeds 8 bits a buffer byte, nor a pair count the buffer (R186) -/
  resBound   : s.result.toNat ≤ 8 * s.bufBytes ∧ s.result2.toNat ≤ s.bufBytes

/-- PRIM_TOTAL (R141), for keys of `KEY_BYTES` bytes. -/
def PrimTotal (P : Primitive) : Prop := ∀ k b : Block, P.enc k b ≠ none

/-- PRIM_INV (R141), for keys of `KEY_BYTES` bytes. -/
def PrimInv (P : Primitive) : Prop := ∀ k b c : Block, P.enc k b = some c → P.dec k c = some b

end Sys2Proof.Machine
end

