-- ==== Sys2Proof/Certificates/Slice0/Obligations.lean ====
section
/-!
DEFINITION. The statements for the provers. Each docstring names the rule of spec/ it formalises.
-/

open Sys2Proof Sys2Proof.Machine

/-! Encoding -/

/-- 30_encoding.md R91, R96, R98: decoding the word of a well-formed command gives the command back. -/
def Obligations.DecodeOfEncode : Prop :=
  ∀ i : Instr, i.WellFormed → decode (encode i) = .ok i

/-- R95, R96, R98: a word that decodes is the encoding of what it decodes to, and that command is well-formed. -/
def Obligations.EncodeOfDecode : Prop :=
  ∀ (w : Word) (i : Instr), decode w = .ok i → i.WellFormed ∧ encode i = w

/-- R98: at most one row of the opcode map matches any word, and every mask covers bits 4:0. -/
def Obligations.AtMostOneRowMatches : Prop :=
  (∀ w : Word, ∀ r ∈ opcodeRows, ∀ q ∈ opcodeRows, w &&& r.mask = r.pattern → w &&& q.mask = q.pattern → r = q) ∧
  ∀ r ∈ opcodeRows, r.mask &&& 0x0000001F#32 = 0x0000001F#32

/-- R99, 60_exceptions.md R228: which words are illegal; a latched one completes with ILLEGAL_COMMAND and changes nothing that
`finish` does not; and what becomes of one that the host writes to CMD. -/
def Obligations.IllegalWordsComplete : Prop :=
  (∀ w : Word, (∃ e, decode w = .error e) ↔
    (opcField w = 0x00 ∨ 0x0B ≤ opcField w ∨
      ∃ r ∈ opcodeRows, opcField r.pattern = opcField w ∧ w &&& r.mask ≠ r.pattern)) ∧
  (∃ e, decode 0x00000000#32 = .error e) ∧
  (ErrCode.illegalCommand.bits = 6#4) ∧
  (∀ (s : State) (L : Latch), s.latch = some L → (∃ e, decode L.cmd = .error e) →
    (s.agenda = [] ∨ ∃ later, s.agenda = .engine :: later) →
    step s = .next
      { s with
        err := .illegalCommand, outLen := 0, result := 0, result2 := 0, busy := false, done := true, latch := none,
        agenda := s.agenda.tail }) ∧
  ∀ (s : State) (w : Word) (rest : List Event), (∃ e, decode w = .error e) → s.busy = false →
    s.agenda = .host (.regWrite .w32 0x014#12 w) :: rest →
    ∃ u, step s = .next u ∧ u.busy = true ∧ u.cmdLast = w ∧ u.agenda = rest ∧
      (rest = [] ∨ (∃ later, rest = .engine :: later) →
        step u = .next
          { s with
            cmdLast := w, err := .illegalCommand, outLen := 0, result := 0, result2 := 0, busy := false, done := true,
            latch := none, agenda := rest.tail })

/-- R103: the worked encodings, legal and illegal. -/
def Obligations.WorkedEncodings : Prop :=
  decode 0x00100001#32 = .ok (.pad 16) ∧ decode 0x00100002#32 = .ok (.pvalid 16) ∧
  decode 0x00080003#32 = .ok (.pstrip 8) ∧ decode 0x00000004#32 = .ok .ecbenc ∧
  decode 0x00000005#32 = .ok .ecbdec ∧ decode 0x00000006#32 = .ok (.cbcenc false) ∧
  decode 0x00000106#32 = .ok (.cbcenc true) ∧ decode 0x00000107#32 = .ok (.cbcdec true) ∧
  decode 0x00000008#32 = .ok .hamd ∧ decode 0x00050009#32 = .ok (.hpair 5) ∧
  decode 0x0010000A#32 = .ok (.ecbdet 16) ∧ decode 0x00000001#32 = .ok (.pad 0) ∧
  (∃ e, decode 0x00100004#32 = .error e) ∧ (∃ e, decode 0x00000101#32 = .error e) ∧
  (∃ e, decode 0x0000000B#32 = .error e)

/-! Steps -/

/-- 60_exceptions.md R240, 20_memory.md R69: when the latched word decodes to a command, the engine's turn is `exec` of it: with
an empty agenda, at an engine turn (which is used up), and in place of a host buffer access that waits. That the turns are an
agenda is the model's choice (log 1). -/
def Obligations.StepRunsDecodedCommand : Prop :=
  ∀ (s : State) (L : Latch) (i : Instr), s.latch = some L → decode L.cmd = .ok i →
    (s.agenda = [] → step s = exec i s) ∧
    (∀ rest, s.agenda = .engine :: rest → step s = exec i { s with agenda := rest }) ∧
    (∀ op rest, s.agenda = .host op :: rest → usesBuffer op = true → s.busy = true → step s = exec i s)

/-- The command that `withFetchWord` places is the one the next step runs, on the state in which R227 has accepted its word
(log 2, the model's choice). -/
def Obligations.PlacedCommandRunsNext : Prop :=
  ∀ (s : State) (w : Word) (i : Instr), decode w = .ok i →
    (s.agenda = [] → step (s.withFetchWord 32 w.toNat) = exec i (s.accept w)) ∧
    (∀ e rest, s.agenda = e :: rest → e ≠ .engine →
      step (s.withFetchWord 32 w.toNat) = exec i (s.accept w)) ∧
    (∀ rest, s.agenda = .engine :: rest →
      step (s.withFetchWord 32 w.toNat) = exec i ({ s with agenda := rest }.accept w))

/-- 60_exceptions.md R238: an idle block with no host access to come does nothing. -/
def Obligations.IdleBlockDoesNothing : Prop :=
  ∀ s : State, s.latch = none → s.agenda = [] → step s = .next s

/-! The host ports -/

/-- 60_exceptions.md R227: a CMD write while BUSY = 0 is accepted, whatever the word, with exactly these effects. -/
def Obligations.CmdWriteAccepts : Prop :=
  ∀ (s : State) (w : Word) (rest : List Event), s.busy = false →
    s.agenda = .host (.regWrite .w32 0x014#12 w) :: rest →
    step s = .next
      { s with
        latch := some
          { cmd := w
            ops :=
              { srcAddr := s.ops.srcAddr, srcLen := s.ops.srcLen, src2Addr := s.ops.src2Addr, src2Len := s.ops.src2Len,
                keyAddr := s.ops.keyAddr, keyLen := s.ops.keyLen, ivAddr := s.ops.ivAddr, ivLen := s.ops.ivLen,
                dstAddr := s.ops.dstAddr } }
        cmdLast := w, busy := true, done := false, err := .ok, outLen := 0, result := 0, result2 := 0, agenda := rest }

/-- 60_exceptions.md R232: a CMD write while BUSY = 1 is dropped and sets OVR; OVR then stays 1 over every step but a STATUS write
with bit 2 = 1 and a reset, and it affects neither commands nor irq. -/
def Obligations.CmdWriteWhileBusyIsDropped : Prop :=
  (∀ (s : State) (w : Word) (rest : List Event), s.busy = true →
    s.agenda = .host (.regWrite .w32 0x014#12 w) :: rest → step s = .next { s with ovr := true, agenda := rest }) ∧
  (∀ s t : State, s.ovr = true → step s = .next t →
    (t.ovr = false ↔ (∃ rest, s.agenda = .reset :: rest) ∨
      ∃ v rest, s.agenda = .host (.regWrite .w32 0x010#12 v) :: rest ∧ v.getLsbD 2 = true)) ∧
  (∀ (s t : State) (b : Bool) (i : Instr), exec i s = .next t → exec i { s with ovr := b } = .next { t with ovr := b }) ∧
  (∀ (s : State) (b : Bool), ({ s with ovr := b } : State).irq = s.irq)

/-- 10_state.md R27, R28, 60_exceptions.md R230: a STATUS write clears DONE by bit 1 and OVR by bit 2 and changes nothing else. -/
def Obligations.StatusWriteAcknowledges : Prop :=
  ∀ (s : State) (v : Word) (rest : List Event), s.agenda = .host (.regWrite .w32 0x010#12 v) :: rest →
    step s = .next { s with done := s.done && !v.getLsbD 1, ovr := s.ovr && !v.getLsbD 2, agenda := rest }

/-- 20_memory.md R61, 60_exceptions.md R221, the reads: what each offset returns, the ten codes of ERR spelled out, and that a read changes nothing but what the port has returned. -/
def Obligations.RegisterReadMap : Prop :=
  ∀ (s : State) (off : BitVec 12) (rest : List Event), off.toNat % 4 = 0 →
    s.agenda = .host (.regRead .w32 off) :: rest →
    step s = .next
      { s with
        agenda := rest
        responses :=
          (if off = 0x000#12 then 0x434D5043#32
            else if off = 0x004#12 then 0x00001010#32
            else if off = 0x008#12 then BitVec.ofNat 32 s.bufBytes
            else if off = 0x00C#12 then BitVec.ofNat 32 s.ien.toNat
            else if off = 0x010#12 then BitVec.ofNat 32 (4 * s.ovr.toNat + 2 * s.done.toNat + s.busy.toNat)
            else if off = 0x014#12 then s.cmdLast
            else if off = 0x018#12 then
              match s.err with
              | .ok => 0#32
              | .invalidBlockSize => 1#32
              | .invalidLength => 2#32
              | .invalidIvLength => 3#32
              | .paddingInvalid => 4#32
              | .lengthMismatch => 5#32
              | .illegalCommand => 6#32
              | .range => 7#32
              | .overlap => 8#32
              | .primFault => 9#32
            else if off = 0x01C#12 then s.outLen
            else if off = 0x020#12 then s.result
            else if off = 0x024#12 then s.result2
            else if off = 0x028#12 then s.ops.srcAddr
            else if off = 0x02C#12 then s.ops.srcLen
            else if off = 0x030#12 then s.ops.src2Addr
            else if off = 0x034#12 then s.ops.src2Len
            else if off = 0x038#12 then s.ops.keyAddr
            else if off = 0x03C#12 then s.ops.keyLen
            else if off = 0x040#12 then s.ops.ivAddr
            else if off = 0x044#12 then s.ops.ivLen
            else if off = 0x048#12 then s.ops.dstAddr
            else 0#32) :: s.responses }

/-- 20_memory.md R61, 10_state.md R20, R25, R34, the writes other than CMD and STATUS: CTRL takes bit 0, an operand register takes
the value whatever BUSY is, and every other offset, read-only or reserved, ignores the write. -/
def Obligations.RegisterWriteMap : Prop :=
  ∀ (s : State) (off : BitVec 12) (v : Word) (rest : List Event), off.toNat % 4 = 0 → off ≠ 0x010#12 → off ≠ 0x014#12 →
    s.agenda = .host (.regWrite .w32 off v) :: rest →
    step s = .next
      (if off = 0x00C#12 then { s with ien := v.getLsbD 0, agenda := rest }
        else if off = 0x028#12 then { s with ops := { s.ops with srcAddr := v }, agenda := rest }
        else if off = 0x02C#12 then { s with ops := { s.ops with srcLen := v }, agenda := rest }
        else if off = 0x030#12 then { s with ops := { s.ops with src2Addr := v }, agenda := rest }
        else if off = 0x034#12 then { s with ops := { s.ops with src2Len := v }, agenda := rest }
        else if off = 0x038#12 then { s with ops := { s.ops with keyAddr := v }, agenda := rest }
        else if off = 0x03C#12 then { s with ops := { s.ops with keyLen := v }, agenda := rest }
        else if off = 0x040#12 then { s with ops := { s.ops with ivAddr := v }, agenda := rest }
        else if off = 0x044#12 then { s with ops := { s.ops with ivLen := v }, agenda := rest }
        else if off = 0x048#12 then { s with ops := { s.ops with dstAddr := v }, agenda := rest }
        else { s with agenda := rest })

/-- 20_memory.md R66: the four buffer-port accesses, within BUF_BYTES and with BUSY = 0. -/
def Obligations.HostBufferAccess : Prop :=
  (∀ (s : State) (a : Nat) (b : Byte) (rest : List Event), s.busy = false →
    s.agenda = .host (.bufRead .w8 a) :: rest → a < s.bufBytes → Memory.get s.buf a = some b →
    step s = .next { s with agenda := rest, responses := b.setWidth 32 :: s.responses }) ∧
  (∀ (s : State) (a : Nat) (v : Word) (rest : List Event), s.busy = false →
    s.agenda = .host (.bufWrite .w8 a v) :: rest → a < s.bufBytes →
    ∃ m, step s = .next { s with agenda := rest, buf := m } ∧
      Memory.get m a = some (v.extractLsb' 0 8) ∧ ∀ x, x ≠ a → Memory.get m x = Memory.get s.buf x) ∧
  (∀ (s : State) (a : Nat) (b₀ b₁ b₂ b₃ : Byte) (rest : List Event), s.busy = false →
    s.agenda = .host (.bufRead .w32 a) :: rest → a % 4 = 0 → a + 4 ≤ s.bufBytes →
    Memory.get s.buf a = some b₀ → Memory.get s.buf (a + 1) = some b₁ →
    Memory.get s.buf (a + 2) = some b₂ → Memory.get s.buf (a + 3) = some b₃ →
    step s = .next
      { s with
        agenda := rest
        responses := (b₀.setWidth 32 ||| b₁.setWidth 32 <<< 8 ||| b₂.setWidth 32 <<< 16 ||| b₃.setWidth 32 <<< 24) ::
          s.responses }) ∧
  (∀ (s : State) (a : Nat) (v : Word) (rest : List Event), s.busy = false →
    s.agenda = .host (.bufWrite .w32 a v) :: rest → a % 4 = 0 → a + 4 ≤ s.bufBytes →
    ∃ m, step s = .next { s with agenda := rest, buf := m } ∧
      (∀ i, i < 4 → Memory.get m (a + i) = some (v.extractLsb' (8 * i) 8)) ∧
      ∀ x, x < a ∨ a + 4 ≤ x → Memory.get m x = Memory.get s.buf x)

/-- 20_memory.md R67: outside BUF_BYTES a read returns 0 and a write has no effect; an aligned word lies wholly inside or wholly
outside. -/
def Obligations.AccessOutsideBuffer : Prop :=
  (∀ (s : State) (a : Nat) (rest : List Event), s.busy = false → s.bufBytes ≤ a →
    s.agenda = .host (.bufRead .w8 a) :: rest →
    step s = .next { s with agenda := rest, responses := 0 :: s.responses }) ∧
  (∀ (s : State) (a : Nat) (rest : List Event), s.busy = false → a % 4 = 0 → s.bufBytes < a + 4 →
    s.agenda = .host (.bufRead .w32 a) :: rest →
    step s = .next { s with agenda := rest, responses := 0 :: s.responses }) ∧
  (∀ (s : State) (a : Nat) (v : Word) (rest : List Event), s.busy = false → s.bufBytes ≤ a →
    s.agenda = .host (.bufWrite .w8 a v) :: rest → step s = .next { s with agenda := rest }) ∧
  (∀ (s : State) (a : Nat) (v : Word) (rest : List Event), s.busy = false → a % 4 = 0 → s.bufBytes < a + 4 →
    s.agenda = .host (.bufWrite .w32 a v) :: rest → step s = .next { s with agenda := rest }) ∧
  (∀ (s : State) (a : Nat), s.Inv → a % 4 = 0 → a + 4 ≤ s.bufBytes ∨ s.bufBytes ≤ a)

/-- 20_memory.md R68 (d), R69, 60_exceptions.md R223 (a), (b): the accesses the ports do not support are refused, a register access
at once and a buffer access with BUSY = 0, and nothing else a host does is. While BUSY = 1 an unsupported buffer access is not
refused: it waits first, as R69 says of every buffer access. The spec does not say whether an unsupported one waits: that it
does is the model's choice, and so is that the refusals have a name for each port (log 7). -/
def Obligations.UnsupportedAccessesRefused : Prop :=
  ∀ (s : State) (r : Refusal), step s = .refused r ↔
    (r = .unsupportedRegisterAccess ∧ ∃ w off rest,
      (s.agenda = .host (.regRead w off) :: rest ∨ ∃ v, s.agenda = .host (.regWrite w off v) :: rest) ∧
      (w ≠ .w32 ∨ off.toNat % 4 ≠ 0)) ∨
    (r = .unsupportedBufferAccess ∧ s.busy = false ∧ ∃ w a rest,
      (s.agenda = .host (.bufRead w a) :: rest ∨ ∃ v, s.agenda = .host (.bufWrite w a v) :: rest) ∧
      (w = .w16 ∨ w = .w32 ∧ a % 4 ≠ 0))

/-- 20_memory.md R69: while BUSY = 1 a host buffer access does not complete; once the engine has completed the command it acts on
the memory as the command left it; a reset before it ends the wait too; a register access never waits. That the access keeps its
entry in the agenda and the engine moves in its place, as if an engine turn stood first, is the model's choice (log 1). -/
def Obligations.BufferAccessWaits : Prop :=
  (∀ (s : State) (L : Latch) (op : HostOp) (rest : List Event), s.busy = true → s.latch = some L →
    usesBuffer op = true → s.agenda = .host op :: rest →
    (∀ t, step s = .next t → t.busy = false ∧ t.agenda = .host op :: rest ∧ t.responses = s.responses ∧
      step t = hostAccess op { t with agenda := rest }) ∧
    step s = step { s with agenda := [.engine] ++ .host op :: rest }) ∧
  (∀ (s : State) (op : HostOp) (rest : List Event), usesBuffer op = true → s.agenda = .reset :: .host op :: rest →
    ∃ t, step s = .next t ∧ t.busy = false ∧ (∀ a, Memory.get t.buf a = none) ∧ step t = hostAccess op { t with agenda := rest }) ∧
  (∀ (s : State) (op : HostOp) (rest : List Event), usesBuffer op = false → s.agenda = .host op :: rest →
    step s = hostAccess op { s with agenda := rest })

/-! Reset and the interrupt -/

/-- 10_state.md R40: every piece of state after the power-on reset, for every value of the OPEN parameters (00_scope.md R5);
`State.reset` is the reset at BUF_BYTES' default and at the bases of log 10. -/
def Obligations.ResetValues : Prop :=
  (∀ (n r b : Nat), ∃ s, s = State.resetWith n r b ∧
    s.ien = false ∧ s.busy = false ∧ s.done = false ∧ s.ovr = false ∧
    s.cmdLast = 0 ∧ s.err.bits = 0#4 ∧ s.outLen = 0 ∧ s.result = 0 ∧ s.result2 = 0 ∧
    s.ops.srcAddr = 0 ∧ s.ops.srcLen = 0 ∧ s.ops.src2Addr = 0 ∧ s.ops.src2Len = 0 ∧
    s.ops.keyAddr = 0 ∧ s.ops.keyLen = 0 ∧ s.ops.ivAddr = 0 ∧ s.ops.ivLen = 0 ∧
    s.ops.dstAddr = 0 ∧ s.latch = none ∧ s.irq = false ∧ (∀ a, Memory.get s.buf a = none) ∧
    s.bufBytes = n ∧ s.regBase = r ∧ s.bufBase = b ∧
    readReg s .id = 0x434D5043#32 ∧ readReg s .param = 0x00001010#32 ∧ readReg s .bufSize = BitVec.ofNat 32 n) ∧
  State.reset = State.resetWith 65536 State.reset.regBase State.reset.bufBase

/-- 70_reset_and_hazards.md R261, R262, R263: a reset between any two steps, also while a command is in flight. What is the
model's own (the OPEN parameters, draws, agenda, responses) stays (log 12). -/
def Obligations.ResetStep : Prop :=
  ∀ (s : State) (rest : List Event), s.agenda = .reset :: rest →
    ∃ t, step s = .next t ∧
      t.ien = false ∧ t.busy = false ∧ t.done = false ∧ t.ovr = false ∧ t.cmdLast = 0 ∧ t.err = .ok ∧
      t.outLen = 0 ∧ t.result = 0 ∧ t.result2 = 0 ∧ t.ops = ⟨0, 0, 0, 0, 0, 0, 0, 0, 0⟩ ∧ t.latch = none ∧ t.irq = false ∧
      (∀ a, Memory.get t.buf a = none) ∧
      t.bufBytes = s.bufBytes ∧ t.regBase = s.regBase ∧ t.bufBase = s.bufBase ∧
      t.draws = s.draws ∧ t.agenda = rest ∧ t.responses = s.responses

/-- 60_exceptions.md R229, 10_state.md R41: irq is the level DONE ∧ IEN: masked by IEN = 0, pending while DONE = 1 whatever ERR is,
and lowered by the acknowledge, by the next accepted command and by reset. -/
def Obligations.InterruptLevel : Prop :=
  (∀ s : State, s.irq = true ↔ s.done = true ∧ s.ien = true) ∧
  (∀ (s t : State) (v : Word) (rest : List Event), s.agenda = .host (.regWrite .w32 0x00C#12 v) :: rest → step s = .next t →
    t.irq = (s.done && v.getLsbD 0)) ∧
  (∀ (s t : State) (v : Word) (rest : List Event), s.agenda = .host (.regWrite .w32 0x010#12 v) :: rest →
    v.getLsbD 1 = true → step s = .next t → t.irq = false) ∧
  (∀ (s t : State) (v : Word) (rest : List Event), s.agenda = .host (.regWrite .w32 0x014#12 v) :: rest → s.busy = false →
    step s = .next t → t.irq = false) ∧
  (∀ (s t : State) (rest : List Event), s.agenda = .reset :: rest → step s = .next t → t.irq = false) ∧
  (∀ (s t : State) (L : Latch) (i : Instr), s.latch = some L → exec i s = .next t → t.irq = s.ien)

/-! The commands: where each completes, and with what result -/

/-- 40_padding.md R114: PAD completes. -/
def Obligations.PadCompletes : Prop :=
  ∀ (s : State) (L : Latch) (bs p : Nat) (d : List Byte), s.latch = some L → 1 ≤ bs →
    Memory.readRange s.buf L.ops.srcAddr.toNat L.ops.srcLen.toNat = .ok d →
    p = bs - d.length % bs →
    L.ops.srcAddr.toNat + L.ops.srcLen.toNat ≤ s.bufBytes →
    L.ops.dstAddr.toNat + (d.length + p) ≤ s.bufBytes →
    ¬ overlap ⟨L.ops.dstAddr.toNat, d.length + p⟩ L.src →
    exec (.pad bs) s = .next
      { s with
        buf := Memory.writeRange s.buf L.ops.dstAddr.toNat (d ++ List.replicate p (BitVec.ofNat 8 p))
        err := .ok, outLen := word (d.length + p), result := 0, result2 := 0, busy := false, done := true, latch := none }

/-- 40_padding.md R112, R115: PVALID completes, and RESULT = 1 exactly when the padding is valid. -/
def Obligations.PvalidCompletes : Prop :=
  ∀ (s : State) (L : Latch) (bs : Nat) (d : List Byte), s.latch = some L → 1 ≤ bs →
    L.ops.srcAddr.toNat + L.ops.srcLen.toNat ≤ s.bufBytes →
    Memory.readRange s.buf L.ops.srcAddr.toNat L.ops.srcLen.toNat = .ok d →
    ∃ r : Word, exec (.pvalid bs) s = .next
        { s with err := .ok, outLen := 0, result := r, result2 := 0, busy := false, done := true, latch := none } ∧
      (r = 0 ∨ r = 1) ∧
      (r = 1 ↔ ∃ (c : List Byte) (p : Nat), 1 ≤ p ∧ p ≤ bs ∧ p ≤ 255 ∧ d = c ++ List.replicate p (BitVec.ofNat 8 p) ∧
        d.length % bs = 0)

/-- 40_padding.md R116, R117: PSTRIP completes, with the kept length or with PADDING_INVALID, and writes no memory. -/
def Obligations.PstripCompletes : Prop :=
  ∀ (s : State) (L : Latch) (bs : Nat) (d : List Byte), s.latch = some L → 1 ≤ bs →
    L.ops.srcAddr.toNat + L.ops.srcLen.toNat ≤ s.bufBytes →
    Memory.readRange s.buf L.ops.srcAddr.toNat L.ops.srcLen.toNat = .ok d →
    (∀ (c : List Byte) (p : Nat), 1 ≤ p → p ≤ bs → p ≤ 255 → d = c ++ List.replicate p (BitVec.ofNat 8 p) →
      d.length % bs = 0 →
      exec (.pstrip bs) s = .next
        { s with err := .ok, outLen := word c.length, result := 0, result2 := 0, busy := false, done := true, latch := none }) ∧
    (isValidFn d bs = false →
      exec (.pstrip bs) s = .next
        { s with err := .paddingInvalid, outLen := 0, result := 0, result2 := 0, busy := false, done := true, latch := none })

/-- 41_cipher_modes.md R140, R145, 20_memory.md R79 (b): ECBENC with a 16-byte key completes, with OK and one primitive call a block
of the padded plaintext in the window, or with PRIM_FAULT and unspecified bytes there when the primitive answers none for a
block. -/
def Obligations.EcbencCompletes : Prop :=
  ∀ (s : State) (L : Latch) (k : Block) (d : List Byte) (n : Nat), s.latch = some L →
    Memory.readRange s.buf L.ops.keyAddr.toNat L.ops.keyLen.toNat = .ok k.val →
    Memory.readRange s.buf L.ops.srcAddr.toNat L.ops.srcLen.toNat = .ok d →
    n = d.length + (16 - d.length % 16) →
    inRange s.bufBytes L.src → inRange s.bufBytes L.key → L.ops.dstAddr.toNat + n ≤ s.bufBytes →
    ¬ overlap ⟨L.ops.dstAddr.toNat, n⟩ L.src → ¬ overlap ⟨L.ops.dstAddr.toNat, n⟩ L.key →
    ∃ (fault : Bool) (out : List Byte), out.length = n ∧
      (fault = true ↔ ∃ j b, j < n / 16 ∧ b.val = blk (padFn d 16) j ∧ Config.primitive.enc k b = none) ∧
      (fault = false → ∀ j, j < n / 16 → ∃ b c : Block, b.val = blk (padFn d 16) j ∧ Config.primitive.enc k b = some c ∧
        blk out j = c.val) ∧
      exec .ecbenc s = .next
        { s with
          buf := Memory.writeRange s.buf L.ops.dstAddr.toNat out, err := if fault then .primFault else .ok,
          outLen := if fault then 0 else word n, result := 0, result2 := 0,
          busy := false, done := true, latch := none, draws := s.draws + 1 }

/-- 41_cipher_modes.md R140, R144, R147, 20_memory.md R79 (b): CBCENC with a 16-byte key; block j's input is its plaintext block XOR
the ciphertext block before it, or XOR the IV for block 0 (the IV descriptor's bytes if IVP = 1, else zeros). It ends in
PRIM_FAULT exactly when the primitive answers none for block i's input, the blocks before i being enciphered. -/
def Obligations.CbcencCompletes : Prop :=
  ∀ (s : State) (L : Latch) (ivp : Bool) (k : Block) (d iv : List Byte) (n : Nat), s.latch = some L →
    Memory.readRange s.buf L.ops.keyAddr.toNat L.ops.keyLen.toNat = .ok k.val →
    Memory.readRange s.buf L.ops.srcAddr.toNat L.ops.srcLen.toNat = .ok d →
    (if ivp then L.ops.ivLen.toNat = 16 ∧ Memory.readRange s.buf L.ops.ivAddr.toNat 16 = .ok iv ∧
        L.ops.ivAddr.toNat + 16 ≤ s.bufBytes ∧ ¬ overlap ⟨L.ops.dstAddr.toNat, n⟩ ⟨L.ops.ivAddr.toNat, 16⟩
      else iv = zeros 16) →
    n = d.length + (16 - d.length % 16) →
    inRange s.bufBytes L.src → inRange s.bufBytes L.key → L.ops.dstAddr.toNat + n ≤ s.bufBytes →
    ¬ overlap ⟨L.ops.dstAddr.toNat, n⟩ L.src → ¬ overlap ⟨L.ops.dstAddr.toNat, n⟩ L.key →
    ∃ (fault : Bool) (done : Nat) (c out : List Byte), out.length = n ∧ (fault = false → done = n / 16 ∧ out = c) ∧
      (∀ j, j < done → ∃ b x : Block, b.val = xorBytes (blk (padFn d 16) j) (if j = 0 then iv else blk c (j - 1)) ∧
        Config.primitive.enc k b = some x ∧ blk c j = x.val) ∧
      (fault = true → done < n / 16 ∧ ∃ b : Block,
        b.val = xorBytes (blk (padFn d 16) done) (if done = 0 then iv else blk c (done - 1)) ∧
        Config.primitive.enc k b = none) ∧
      exec (.cbcenc ivp) s = .next
        { s with
          buf := Memory.writeRange s.buf L.ops.dstAddr.toNat out, err := if fault then .primFault else .ok,
          outLen := if fault then 0 else word n, result := 0, result2 := 0,
          busy := false, done := true, latch := none, draws := s.draws + 1 }

/-- 41_cipher_modes.md R140, R146, 20_memory.md R79 (b): ECBDEC with a 16-byte key deciphers block by block. If the primitive answers
none for a block it completes with PRIM_FAULT; else, if the padding is valid, with OK, the window holding all decrypted blocks and
OUT_LEN the stripped length; else with PADDING_INVALID. -/
def Obligations.EcbdecCompletes : Prop :=
  ∀ (s : State) (L : Latch) (k : Block) (c : List Byte), s.latch = some L →
    Memory.readRange s.buf L.ops.keyAddr.toNat L.ops.keyLen.toNat = .ok k.val →
    Memory.readRange s.buf L.ops.srcAddr.toNat L.ops.srcLen.toNat = .ok c →
    c.length % 16 = 0 →
    inRange s.bufBytes L.src → inRange s.bufBytes L.key → inRange s.bufBytes L.decWindow →
    ¬ overlap L.decWindow L.src → ¬ overlap L.decWindow L.key →
    ∃ (fault : Bool) (pd free : List Byte), pd.length = c.length ∧ free.length = c.length ∧
      (fault = true ↔ ∃ j b, j < c.length / 16 ∧ b.val = blk c j ∧ Config.primitive.dec k b = none) ∧
      (fault = false → ∀ j, j < c.length / 16 → ∃ b x : Block, b.val = blk c j ∧ Config.primitive.dec k b = some x ∧
        blk pd j = x.val) ∧
      exec .ecbdec s = .next
        { s with
          buf := Memory.writeRange s.buf L.ops.dstAddr.toNat (if fault = false ∧ isValidFn pd 16 = true then pd else free)
          err := if fault then .primFault else if isValidFn pd 16 then .ok else .paddingInvalid
          outLen := if fault then 0 else word ((stripFn pd 16).getD 0), result := 0, result2 := 0,
          busy := false, done := true, latch := none, draws := s.draws + 1 }

/-- 41_cipher_modes.md R140, R144, R148, 20_memory.md R79 (b): CBCDEC with a 16-byte key; block j is the deciphered block XOR the
CIPHERTEXT block before it, or XOR the IV for block 0; then as ECBDEC. -/
def Obligations.CbcdecCompletes : Prop :=
  ∀ (s : State) (L : Latch) (ivp : Bool) (k : Block) (c iv : List Byte), s.latch = some L →
    Memory.readRange s.buf L.ops.keyAddr.toNat L.ops.keyLen.toNat = .ok k.val →
    Memory.readRange s.buf L.ops.srcAddr.toNat L.ops.srcLen.toNat = .ok c →
    c.length % 16 = 0 →
    (if ivp then L.ops.ivLen.toNat = 16 ∧ Memory.readRange s.buf L.ops.ivAddr.toNat 16 = .ok iv ∧
        L.ops.ivAddr.toNat + 16 ≤ s.bufBytes ∧ ¬ overlap L.decWindow ⟨L.ops.ivAddr.toNat, 16⟩
      else iv = zeros 16) →
    inRange s.bufBytes L.src → inRange s.bufBytes L.key → inRange s.bufBytes L.decWindow →
    ¬ overlap L.decWindow L.src → ¬ overlap L.decWindow L.key →
    ∃ (fault : Bool) (pd free : List Byte), pd.length = c.length ∧ free.length = c.length ∧
      (fault = true ↔ ∃ j b, j < c.length / 16 ∧ b.val = blk c j ∧ Config.primitive.dec k b = none) ∧
      (fault = false → ∀ j, j < c.length / 16 → ∃ b x : Block, b.val = blk c j ∧ Config.primitive.dec k b = some x ∧
        blk pd j = xorBytes x.val (if j = 0 then iv else blk c (j - 1))) ∧
      exec (.cbcdec ivp) s = .next
        { s with
          buf := Memory.writeRange s.buf L.ops.dstAddr.toNat (if fault = false ∧ isValidFn pd 16 = true then pd else free)
          err := if fault then .primFault else if isValidFn pd 16 then .ok else .paddingInvalid
          outLen := if fault then 0 else word ((stripFn pd 16).getD 0), result := 0, result2 := 0,
          busy := false, done := true, latch := none, draws := s.draws + 1 }

/-- 42_hamming.md R180, R181, R183: HAMD completes with the number of differing bits, counted byte by byte and bit by bit. -/
def Obligations.HamdCompletes : Prop :=
  ∀ (s : State) (L : Latch) (a b : List Byte), s.latch = some L → L.ops.srcLen = L.ops.src2Len →
    inRange s.bufBytes L.src → inRange s.bufBytes L.src2 →
    Memory.readRange s.buf L.ops.srcAddr.toNat L.ops.srcLen.toNat = .ok a →
    Memory.readRange s.buf L.ops.src2Addr.toNat L.ops.src2Len.toNat = .ok b →
    exec .hamd s = .next
      { s with
        err := .ok, outLen := 0, result := word ((List.range a.length).map fun i =>
          ((List.range 8).countP fun j => (a.getD i 0).getLsbD j != (b.getD i 0).getLsbD j)).sum,
        result2 := 0, busy := false, done := true, latch := none }

/-- 42_hamming.md R182, R184: HPAIR completes with the sum over the overlapping adjacent pairs of full chunks and their number. -/
def Obligations.HpairCompletes : Prop :=
  ∀ (s : State) (L : Latch) (k : Nat) (d : List Byte), s.latch = some L → 1 ≤ k → inRange s.bufBytes L.src →
    Memory.readRange s.buf L.ops.srcAddr.toNat L.ops.srcLen.toNat = .ok d →
    exec (.hpair k) s = .next
      { s with
        err := .ok, outLen := 0,
        result := word ((List.range (d.length / k - 1)).map fun j =>
          hd ((d.take (k * j + k)).drop (k * j)) ((d.take (k * (j + 1) + k)).drop (k * (j + 1)))).sum,
        result2 := word (d.length / k - 1), busy := false, done := true, latch := none }

/-- 43_ecb_detect.md R200, R201: ECBDET completes, and RESULT = 1 exactly when two chunks at different positions are equal, the final
partial chunk included. -/
def Obligations.EcbdetCompletes : Prop :=
  ∀ (s : State) (L : Latch) (bs : Nat) (d : List Byte), s.latch = some L → 1 ≤ bs → inRange s.bufBytes L.src →
    Memory.readRange s.buf L.ops.srcAddr.toNat L.ops.srcLen.toNat = .ok d →
    ∃ r : Word, exec (.ecbdet bs) s = .next
        { s with err := .ok, outLen := 0, result := r, result2 := 0, busy := false, done := true, latch := none } ∧
      (r = 0 ∨ r = 1) ∧
      (r = 1 ↔ ∃ i j, i < j ∧ bs * j < d.length ∧ (d.drop (bs * i)).take bs = (d.drop (bs * j)).take bs)

/-! Errors -/

/-- 60_exceptions.md R225, R226: the checks on the command's own arguments come before every check of a region. -/
def Obligations.ArgumentErrorsComplete : Prop :=
  ∀ (s : State) (L : Latch), s.latch = some L →
    (∀ i : Instr, i ∈ [.pad 0, .pvalid 0, .pstrip 0, .hpair 0, .ecbdet 0] →
      exec i s = .next { s with
        err := .invalidBlockSize, outLen := 0, result := 0, result2 := 0, busy := false, done := true, latch := none }) ∧
    (L.ops.ivLen ≠ 16 → ∀ i : Instr, i ∈ [.cbcenc true, .cbcdec true] →
      exec i s = .next { s with
        err := .invalidIvLength, outLen := 0, result := 0, result2 := 0, busy := false, done := true, latch := none }) ∧
    (L.ops.srcLen.toNat % 16 ≠ 0 → ∀ i : Instr, (i = .ecbdec ∨ i = .cbcdec false ∨ i = .cbcdec true ∧ L.ops.ivLen = 16) →
      exec i s = .next { s with
        err := .invalidLength, outLen := 0, result := 0, result2 := 0, busy := false, done := true, latch := none }) ∧
    (L.ops.srcLen ≠ L.ops.src2Len →
      exec .hamd s = .next { s with
        err := .lengthMismatch, outLen := 0, result := 0, result2 := 0, busy := false, done := true, latch := none })

/-- 60_exceptions.md R225, 20_memory.md R63, R64, R79 (a): once the argument checks pass, a region out of range gives RANGE, and only
then an overlap of the window with a region the command reads gives OVERLAP; neither writes memory. -/
def Obligations.RegionErrorsComplete : Prop :=
  ∀ (s : State) (L : Latch) (i : Instr), s.latch = some L → zeroBlockSize i = false → badIvLength i L = false →
    badLength i L = false → lengthMismatch i L = false →
    ((∃ r ∈ readsOf i L ++ (windowOf i L).toList, s.bufBytes < r.addr + r.len) →
      exec i s = .next { s with
        err := .range, outLen := 0, result := 0, result2 := 0, busy := false, done := true, latch := none }) ∧
    ((∀ r ∈ readsOf i L ++ (windowOf i L).toList, r.addr + r.len ≤ s.bufBytes) →
      (∃ w r, windowOf i L = some w ∧ r ∈ readsOf i L ∧ ∃ a, w.addr ≤ a ∧ a < w.addr + w.len ∧ r.addr ≤ a ∧ a < r.addr + r.len) →
      exec i s = .next { s with
        err := .overlap, outLen := 0, result := 0, result2 := 0, busy := false, done := true, latch := none })

/-- 93_implementation_defined.md I1, 70_reset_and_hazards.md R263: a command that passes its checks and reads a byte that holds no
value stops the machine, and a host read of such a byte, 8-bit or in an aligned 32-bit word, does too. -/
def Obligations.UnwrittenByteStops : Prop :=
  (∀ (s : State) (L : Latch) (i : Instr) (r : Region) (a : Nat), s.latch = some L → validate s.bufBytes i L = none →
    r ∈ readsOf i L → r.addr ≤ a → a < r.addr + r.len → Memory.get s.buf a = none →
    ∃ x, exec i s = .fault (.unwrittenByte x) ∧ Memory.get s.buf x = none) ∧
  (∀ (s : State) (a : Nat) (rest : List Event), s.busy = false → a < s.bufBytes → Memory.get s.buf a = none →
    s.agenda = .host (.bufRead .w8 a) :: rest → step s = .fault (.unwrittenByte a)) ∧
  (∀ (s : State) (a i : Nat) (rest : List Event), s.busy = false → a % 4 = 0 → a + 4 ≤ s.bufBytes → i < 4 →
    Memory.get s.buf (a + i) = none → s.agenda = .host (.bufRead .w32 a) :: rest →
    ∃ j, j < 4 ∧ step s = .fault (.unwrittenByte (a + j)) ∧ Memory.get s.buf (a + j) = none)

/-- 60_exceptions.md R220, R240: every command, whatever its operands and its key's length, ends in a completion with BUSY = 0 and
DONE = 1, once every byte it reads holds a value. -/
def Obligations.EveryCommandCompletes : Prop :=
  ∀ (s : State) (L : Latch) (i : Instr), s.latch = some L → (∀ r ∈ readsOf i L, s.written r) →
    ∃ t, exec i s = .next t ∧ t.busy = false ∧ t.done = true ∧ t.latch = none

/-- 41_cipher_modes.md R141, R143, 93_implementation_defined.md I2: a mode command passes on a key of any length, whatever the
primitive: an encryption ends in OK or PRIM_FAULT and a decryption also in PADDING_INVALID; and under PRIM_TOTAL and PRIM_INV it
never ends in PRIM_FAULT with a 16-byte key. -/
def Obligations.ModeCommandsForEveryKey : Prop :=
  ∀ (P : Primitive) (s t : State) (L : Latch) (i : Instr),
    i ∈ [.ecbenc, .ecbdec, .cbcenc false, .cbcenc true, .cbcdec false, .cbcdec true] →
    s.latch = some L → validate s.bufBytes i L = none → execWith P i s = .next t →
    (t.err = .ok ∨ t.err = .primFault ∨ t.err = .paddingInvalid) ∧
    (i ∈ [.ecbenc, .cbcenc false, .cbcenc true] → t.err ≠ .paddingInvalid) ∧
    (t.err ≠ .ok → t.outLen = 0) ∧
    (PrimTotal P → PrimInv P → L.ops.keyLen = 16 → t.err ≠ .primFault)

/-! Frames -/

/-- 60_exceptions.md R228, R240: a command leaves CTRL, OVR, CMD_LAST, the nine operand registers and everything of the host's as
they were, and ends with BUSY = 0, DONE = 1 and the latch empty. -/
def Obligations.CompletionFrame : Prop :=
  ∀ (s t : State) (L : Latch) (i : Instr), s.latch = some L → exec i s = .next t →
    t.ien = s.ien ∧ t.ovr = s.ovr ∧ t.cmdLast = s.cmdLast ∧ t.ops = s.ops ∧ t.bufBytes = s.bufBytes ∧
    t.regBase = s.regBase ∧ t.bufBase = s.bufBase ∧ t.agenda = s.agenda ∧ t.responses = s.responses ∧ t.busy = false ∧ t.done = true ∧ t.latch = none

/-- 20_memory.md R79, 30_encoding.md R97: PVALID, PSTRIP, HAMD, HPAIR and ECBDET write no memory. -/
def Obligations.ReadOnlyCommandsKeepMemory : Prop :=
  ∀ (s t : State) (L : Latch) (n : Nat) (i : Instr), i ∈ [.pvalid n, .pstrip n, .hamd, .hpair n, .ecbdet n] →
    s.latch = some L → exec i s = .next t →
    (∀ a, Memory.get t.buf a = Memory.get s.buf a) ∧ t.buf = s.buf ∧ t.draws = s.draws

/-- 20_memory.md R79: a writing command writes no byte outside its window; and none at all when it ends in an error of R225. -/
def Obligations.WritesStayInWindow : Prop :=
  ∀ (s t : State) (L : Latch) (i : Instr) (w : Region), s.latch = some L → windowOf i L = some w → exec i s = .next t →
    (∀ a, a < w.addr ∨ w.addr + w.len ≤ a → Memory.get t.buf a = Memory.get s.buf a) ∧
    (t.err ≠ .ok → t.err ≠ .primFault → t.err ≠ .paddingInvalid → t.buf = s.buf) ∧
    (t.buf ≠ s.buf → ∀ a, w.addr ≤ a → a < w.addr + w.len → Memory.get t.buf a ≠ none)

/-- 10_state.md R31, R32, R33, 60_exceptions.md R222: which command leaves what in the result registers, and that after any error
all three are 0 and CMD_LAST still holds the word. -/
def Obligations.ResultRegistersByCommand : Prop :=
  ∀ (s t : State) (L : Latch) (i : Instr), s.latch = some L → exec i s = .next t →
    (t.err ≠ .ok → t.outLen = 0 ∧ t.result = 0 ∧ t.result2 = 0 ∧ t.cmdLast = s.cmdLast) ∧
    ((∀ k, i ≠ .hpair k) → t.result2 = 0) ∧
    (∀ n, i ∈ [.pvalid n, .hamd, .hpair n, .ecbdet n] → t.outLen = 0) ∧
    (∀ n b, i ∈ [.pad n, .pstrip n, .ecbenc, .ecbdec, .cbcenc b, .cbcdec b] → t.result = 0)

/-! Invariants -/

/-- The state after reset meets the invariant, for every BUF_BYTES that 00_scope.md R5 allows. -/
def Obligations.ResetMeetsInvariant : Prop :=
  State.reset.Inv ∧ ∀ n r b : Nat, bufBytesOk n → (State.resetWith n r b).Inv

/-- 10_state.md R26, R27, R29, R35, 20_memory.md R60, R79, 42_hamming.md R186, 60_exceptions.md R222, 70_reset_and_hazards.md R269:
every step keeps the invariant, from every state that meets it. -/
def Obligations.StepKeepsInvariant : Prop :=
  ∀ s t : State, s.Inv → step s = .next t → t.Inv

/-- 00_scope.md R5: no step changes an OPEN parameter, and no step takes back what the ports have returned. -/
def Obligations.StepKeepsParameter : Prop :=
  ∀ s t : State, step s = .next t →
    t.bufBytes = s.bufBytes ∧ t.regBase = s.regBase ∧ t.bufBase = s.bufBase ∧ ∃ l, t.responses = l ++ s.responses ∧ l.length ≤ 1

/-- 93_implementation_defined.md I1: the machine stops with a fault only for a byte within the buffer that holds no value. -/
def Obligations.FaultOnlyForUnwrittenByte : Prop :=
  ∀ (s : State) (f : Fault), step s = .fault f →
    ∃ a, f = .unwrittenByte a ∧ a < s.bufBytes ∧ Memory.get s.buf a = none

/-! What a command can depend on -/

/-- 00_scope.md R12, 10_state.md R35, R38: a command's results depend on the latch, the buffer and the free values alone: not on the
live operand registers, not on a flag, not on an earlier result. -/
def Obligations.CommandsDependOnLatchAndBuffer : Prop :=
  ∀ (s u : State) (i : Instr), u.latch = s.latch → u.buf = s.buf → u.bufBytes = s.bufBytes → u.draws = s.draws →
    s.latch ≠ none →
    (∀ t, exec i s = .next t → ∃ v, exec i u = .next v ∧ v.err = t.err ∧ v.outLen = t.outLen ∧ v.result = t.result ∧
      v.result2 = t.result2 ∧ v.buf = t.buf) ∧
    (∀ f, exec i s = .fault f → exec i u = .fault f)

/-- 30_encoding.md R97: the latch fields a command does not read are irrelevant to it. -/
def Obligations.UnlistedFieldsAreIrrelevant : Prop :=
  ∀ (s : State) (L M : Latch) (i : Instr),
    L.ops.srcAddr = M.ops.srcAddr → L.ops.srcLen = M.ops.srcLen →
    (i = .hamd → L.ops.src2Addr = M.ops.src2Addr ∧ L.ops.src2Len = M.ops.src2Len) →
    (i ∈ [.ecbenc, .ecbdec, .cbcenc false, .cbcdec false, .cbcenc true, .cbcdec true] →
      L.ops.keyAddr = M.ops.keyAddr ∧ L.ops.keyLen = M.ops.keyLen) →
    (i ∈ [.cbcenc true, .cbcdec true] → L.ops.ivAddr = M.ops.ivAddr ∧ L.ops.ivLen = M.ops.ivLen) →
    (∀ n, i ∈ [.pad n, .ecbenc, .ecbdec, .cbcenc false, .cbcdec false, .cbcenc true, .cbcdec true] →
      L.ops.dstAddr = M.ops.dstAddr) →
    exec i { s with latch := some L } = exec i { s with latch := some M }

/-! Derived properties of the pure functions and of the mode chainer -/

/-- 40_padding.md R113: three readings of `padded_len`. -/
def Obligations.PaddedLength : Prop :=
  ∀ n bs : Nat, 1 ≤ bs →
    (∀ x : List Byte, x.length = n → (padFn x bs).length = paddedLen n bs) ∧ paddedLen n bs = n + padp n bs ∧
    paddedLen n bs = (n / bs + 1) * bs ∧ 0 < paddedLen n bs ∧ paddedLen n bs % bs = 0 ∧ n < paddedLen n bs

/-- 40_padding.md R118: the properties of padding and stripping. -/
def Obligations.PaddingProperties : Prop :=
  ∀ (x : List Byte) (bs : Nat), 1 ≤ bs → bs ≤ 255 →
    isValidFn (padFn x bs) bs = true ∧
    (stripFn (padFn x bs) bs = some x.length ∧ (padFn x bs).take x.length = x) ∧
    (x.length % bs = 0 → (padFn x bs).length - x.length = bs) ∧
    (∀ p : Byte, x.getLast? = some p → p = 0 ∨ x.length < p.toNat ∨ (∃ b ∈ x.drop (x.length - p.toNat), b ≠ p) →
      stripFn x bs = none)

/-- 41_cipher_modes.md R141: of every primitive with PRIM_TOTAL and PRIM_INV, `PrimEnc` is a bijection on the blocks for each 16-byte
key, and `PrimDec` is total and its inverse; and the primitive port passes a 16-byte key and a block on to the two functions,
whatever the draw and the call (R140). -/
def Obligations.PrimitiveContract : Prop :=
  (∀ P : Primitive, PrimTotal P → PrimInv P → ∀ k : Block,
    (∀ b c : Block, P.enc k b = P.enc k c → b = c) ∧ (∀ c : Block, ∃ b, P.enc k b = some c) ∧
    ∀ c : Block, ∃ b, P.dec k c = some b ∧ P.enc k b = some c) ∧
  ∀ (P : Primitive) (draw call : Nat) (k b c : Block),
    (primEnc P draw k.val call b.val = some c.val ↔ P.enc k b = some c) ∧
    (primEnc P draw k.val call b.val = none ↔ P.enc k b = none) ∧
    (primDec P draw k.val call b.val = some c.val ↔ P.dec k b = some c) ∧
    (primDec P draw k.val call b.val = none ↔ P.dec k b = none)

/-- 00_scope.md R5, 93_implementation_defined.md I4: the machine takes the primitive as an argument, and this machine is the one at
`Config.primitive`. That a `Primitive` has 16-byte keys only, so that two which agree on those give one machine, is the model's
choice (log 5). So is that under a key of another length no command depends on it: R140 and R143 pass such a key to PrimEnc and
PrimDec too, 41_cipher_modes.md R141 and I2 make the answer of each such call a free draw, and the model draws it from
`Config.freePrim`, which takes no primitive (log 6). -/
def Obligations.PrimitiveIsAParameter : Prop :=
  (∀ s : State, step s = stepWith Config.primitive s) ∧
  (∀ (P Q : Primitive) (s : State), (∀ k b, P.enc k b = Q.enc k b) → (∀ k b, P.dec k b = Q.dec k b) →
    stepWith P s = stepWith Q s) ∧
  ∀ (P Q : Primitive) (s : State) (L : Latch), s.latch = some L → L.ops.keyLen ≠ 16 → ∀ i, execWith P i s = execWith Q i s

/-- 41_cipher_modes.md R150, ECB: what ECBENC writes, ECBDEC under the same key turns back into the plaintext, for every
primitive with PRIM_TOTAL and PRIM_INV (R141). -/
def Obligations.EcbRoundTrip : Prop :=
  ∀ (P : Primitive) (s t u : State) (L M : Latch) (x : List Byte),
    PrimTotal P → PrimInv P → s.latch = some L → L.ops.keyLen = 16 → validate s.bufBytes .ecbenc L = none →
    Memory.readRange s.buf L.ops.srcAddr.toNat L.ops.srcLen.toNat = .ok x →
    execWith P .ecbenc s = .next t →
    u.buf = t.buf → u.bufBytes = s.bufBytes → u.latch = some M →
    M.ops.srcAddr = L.ops.dstAddr → M.ops.srcLen = t.outLen →
    M.ops.keyAddr = L.ops.keyAddr → M.ops.keyLen = L.ops.keyLen → validate u.bufBytes .ecbdec M = none →
    bufBytesOk s.bufBytes →
    ∃ v, execWith P .ecbdec u = .next v ∧ v.err = .ok ∧ v.outLen = word x.length ∧
      Memory.readRange v.buf M.ops.dstAddr.toNat x.length = .ok x

/-- 41_cipher_modes.md R150, CBC: what CBCENC writes, CBCDEC under the same key, IVP and IV turns back into the plaintext, for every
primitive with PRIM_TOTAL and PRIM_INV (R141). -/
def Obligations.CbcRoundTrip : Prop :=
  ∀ (P : Primitive) (s t u : State) (L M : Latch) (ivp : Bool) (x : List Byte),
    PrimTotal P → PrimInv P → s.latch = some L → L.ops.keyLen = 16 → validate s.bufBytes (.cbcenc ivp) L = none →
    Memory.readRange s.buf L.ops.srcAddr.toNat L.ops.srcLen.toNat = .ok x →
    execWith P (.cbcenc ivp) s = .next t →
    u.buf = t.buf → u.bufBytes = s.bufBytes → u.latch = some M →
    M.ops.srcAddr = L.ops.dstAddr → M.ops.srcLen = t.outLen →
    M.ops.keyAddr = L.ops.keyAddr → M.ops.keyLen = L.ops.keyLen →
    M.ops.ivAddr = L.ops.ivAddr → M.ops.ivLen = L.ops.ivLen → validate u.bufBytes (.cbcdec ivp) M = none →
    bufBytesOk s.bufBytes →
    ∃ v, execWith P (.cbcdec ivp) u = .next v ∧ v.err = .ok ∧ v.outLen = word x.length ∧
      Memory.readRange v.buf M.ops.dstAddr.toNat x.length = .ok x

/-- 41_cipher_modes.md R151 (a), (b): for a 16-byte key, changing one plaintext block changes that ciphertext block only in ECB, and
that block and every later one in CBC encryption. The plaintexts here are padded sequences of whole blocks, and the primitive is
any one with PRIM_TOTAL and PRIM_INV (R141). -/
def Obligations.EncryptionErrorPropagation : Prop :=
  ∀ (P : Primitive) (draw : Nat) (k iv p q : List Byte) (i : Nat), PrimTotal P → PrimInv P →
    k.length = 16 → iv.length = 16 → p.length % 16 = 0 → q.length = p.length →
    i < nblk p → blk p i ≠ blk q i → (∀ j, j < nblk p → j ≠ i → blk p j = blk q j) →
    (∀ c e, ecbLoop (primEnc P draw k) 0 (blocksOf p) = some c → ecbLoop (primEnc P draw k) 0 (blocksOf q) = some e →
      ∀ j, j < nblk p → (blk c j = blk e j ↔ j ≠ i)) ∧
    (∀ c e, cbcEncLoop (primEnc P draw k) 0 iv (blocksOf p) = some c →
      cbcEncLoop (primEnc P draw k) 0 iv (blocksOf q) = some e → ∀ j, j < nblk p → (blk c j = blk e j ↔ j < i))

/-- 41_cipher_modes.md R151 (c), (d): bit-flipping locality of CBC decryption, for any primitive with PRIM_TOTAL and PRIM_INV
(R141), and that whether the padding is valid depends on the last decrypted block alone. -/
def Obligations.CbcDecryptionLocality : Prop :=
  (∀ (P : Primitive) (draw : Nat) (k iv c e pc pe : List Byte) (i : Nat), PrimTotal P →
    PrimInv P → k.length = 16 → iv.length = 16 → c.length % 16 = 0 →
    e.length = c.length → i < nblk c → blk c i ≠ blk e i → (∀ j, j < nblk c → j ≠ i → blk c j = blk e j) →
    cbcDecLoop (primDec P draw k) 0 iv (blocksOf c) = some pc → cbcDecLoop (primDec P draw k) 0 iv (blocksOf e) = some pe →
    blk pc i ≠ blk pe i ∧
    (i + 1 < nblk c → blk pe (i + 1) = xorBytes (blk pc (i + 1)) (xorBytes (blk c i) (blk e i))) ∧
    ∀ j, j < nblk c → j ≠ i → j ≠ i + 1 → blk pc j = blk pe j) ∧
  (∀ p q : List Byte, p.length % 16 = 0 → q.length % 16 = 0 → 0 < nblk p → 0 < nblk q →
    blk p (nblk p - 1) = blk q (nblk q - 1) → (stripFn p 16 = none ↔ stripFn q 16 = none))

/-- 41_cipher_modes.md R152, 43_ecb_detect.md R202: equal plaintext blocks 0 and 1 give equal ECB ciphertext blocks, which the
detector reports; in CBC they give c_1 = c_0 exactly when c_0 = IV. The primitive is any one with PRIM_TOTAL and PRIM_INV
(R141). -/
def Obligations.EcbFingerprint : Prop :=
  ∀ (P : Primitive) (draw : Nat) (k iv p : List Byte), PrimTotal P → PrimInv P →
    k.length = 16 → iv.length = 16 → p.length % 16 = 0 → 2 ≤ nblk p → blk p 0 = blk p 1 →
    (∀ c, ecbLoop (primEnc P draw k) 0 (blocksOf p) = some c → blk c 0 = blk c 1 ∧ hasRepeat c 16 = true) ∧
    (∀ c, cbcEncLoop (primEnc P draw k) 0 iv (blocksOf p) = some c → (blk c 1 = blk c 0 ↔ blk c 0 = iv))

/-- 42_hamming.md R180, R181: popcount8 counts the 1 bits of a byte, and hd the bits in which two sequences of one length differ; hd is
symmetric, zero exactly on equal sequences, and (R183) 8n when all bits differ. -/
def Obligations.HammingDistanceLaws : Prop :=
  (∀ b : Byte, popcount8 b = (List.range 8).countP fun i => b.getLsbD i) ∧
  popcount8 0x00 = 0 ∧ popcount8 0xFF = 8 ∧ popcount8 0x0B = 3 ∧
  ∀ a b : List Byte, a.length = b.length →
    hd a b = ((List.range a.length).map fun i =>
      ((List.range 8).countP fun j => (a.getD i 0).getLsbD j != (b.getD i 0).getLsbD j)).sum ∧
    hd a b = hd b a ∧ hd a a = 0 ∧ hd [] [] = 0 ∧ (hd a b = 0 ↔ a = b) ∧ hd a (a.map fun x => ~~~x) = 8 * a.length

/-- 42_hamming.md R186: no result of the Hamming engine overflows 32 bits. The rule's RESULT2 < SRC_LEN is stated for a non-empty SRC: for an empty
one both are 0. -/
def Obligations.HammingResultsFit : Prop :=
  ∀ (s t : State) (L : Latch), s.latch = some L → bufBytesOk s.bufBytes →
    (exec .hamd s = .next t → t.result.toNat ≤ 8 * L.ops.srcLen.toNat ∧ t.result.toNat < 2 ^ 27) ∧
    (∀ k, exec (.hpair k) s = .next t →
      t.result.toNat ≤ 8 * k * t.result2.toNat ∧ t.result.toNat ≤ 8 * L.ops.srcLen.toNat ∧
      (0 < L.ops.srcLen.toNat → t.result2.toNat < L.ops.srcLen.toNat) ∧ t.result.toNat < 2 ^ 27 ∧ t.result2.toNat < 2 ^ 27)

/-! Command scripts -/

/-- 30_encoding.md R105: exactly which texts the assembler accepts, and as what: `bs=` for four commands, `k=` for hpair, `iv` for the
two CBC commands, immediates of at most 255; every other text is refused. What it accepts is a legal word, and it stands for a
write of that word to CMD. That an immediate must be given is the model's choice (log 14). -/
def Obligations.AssemblerSpellsLegalWords : Prop :=
  (∀ (m : String) (bs k : Option Nat) (iv : Bool) (i : Instr), assemble m bs k iv = some i ↔
    (∃ n, n ≤ 255 ∧ bs = some n ∧ k = none ∧ iv = false ∧
      (m = "pad" ∧ i = .pad n ∨ m = "pvalid" ∧ i = .pvalid n ∨ m = "pstrip" ∧ i = .pstrip n ∨ m = "ecbdet" ∧ i = .ecbdet n)) ∨
    (∃ n, n ≤ 255 ∧ bs = none ∧ k = some n ∧ iv = false ∧ m = "hpair" ∧ i = .hpair n) ∨
    (bs = none ∧ k = none ∧ iv = false ∧ (m = "ecbenc" ∧ i = .ecbenc ∨ m = "ecbdec" ∧ i = .ecbdec ∨ m = "hamd" ∧ i = .hamd)) ∨
    (bs = none ∧ k = none ∧ (m = "cbcenc" ∧ i = .cbcenc iv ∨ m = "cbcdec" ∧ i = .cbcdec iv))) ∧
  (∀ i : Instr, i.WellFormed → ∃ m bs k iv, assemble m bs k iv = some i) ∧
  (∀ (m : String) (bs k : Option Nat) (iv : Bool) (i : Instr), assemble m bs k iv = some i → decode (encode i) = .ok i) ∧
  ∀ i : Instr, expandOp (.command i) = [.host (.regWrite .w32 0x014#12 (encode i))]

/-- 30_encoding.md R106, 20_memory.md R67: `wbs` writes byte i at addr + i, which does not wrap (00_scope.md R7): from any address, with
BUSY = 0 each of its writes sets its byte if that lies inside BUF_BYTES, and otherwise nothing. -/
def Obligations.WbsWritesAscending : Prop :=
  ∀ (a : Nat) (bytes : List Byte) (i : Nat) (h : i < bytes.length),
    (opsWbs a bytes).length = bytes.length ∧
    (opsWbs a bytes)[i]? = some (.bufWrite .w8 (a + i) (bytes[i].setWidth 32)) ∧
    ∀ (s : State) (rest : List Event), s.busy = false →
      s.agenda = .host (.bufWrite .w8 (a + i) (bytes[i].setWidth 32)) :: rest →
      ∃ m, step s = .next { s with buf := m, agenda := rest } ∧
        (∀ x, Memory.get m x = if x = a + i ∧ x < s.bufBytes then some bytes[i] else Memory.get s.buf x)

/-! The host bus -/

/-- 00_scope.md R5, 20_memory.md R61, R66, R73: the OPEN parameters REG_BASE and BUF_BASE place the register space and the buffer on
the host bus; and (10_state.md R22) the bytes of ID at REG_BASE + 0 to + 3 are those of "CPMC". The byte order of the other
registers is the model's choice (log 18), and nothing is stated of it. Where the two spaces overlap, the register space is
taken, by the model's choice (log 10). -/
def Obligations.BusPlacement : Prop :=
  (∀ (s : State) (off : BitVec 12), s.placeAt (s.regBase + off.toNat) = some (.register off)) ∧
  (∀ (s : State) (a : Nat), a < s.bufBytes → s.bufBase + a < s.regBase ∨ s.regBase + 4096 ≤ s.bufBase + a →
    s.placeAt (s.bufBase + a) = some (.buffer a)) ∧
  (∀ (s : State) (n : Nat), n < s.regBase ∨ s.regBase + 4096 ≤ n → n < s.bufBase ∨ s.bufBase + s.bufBytes ≤ n →
    s.placeAt n = none) ∧
  (∀ s : State, regByte s 0 = 0x43 ∧ regByte s 1 = 0x50 ∧ regByte s 2 = 0x4D ∧ regByte s 3 = 0x43)
end

