-- ==== Sys2Proof/Laws/State.lean ====
section
/-!
SUPPORT. One lemma per field per update of the state, each true by `rfl`, so that no proof unfolds a record update.
-/

namespace Sys2Proof.Machine

variable (s : State)

@[simp] theorem State.memWrite_ien (a : Nat) (bs : List Byte) : (s.memWrite a bs).ien = s.ien := rfl
@[simp] theorem State.memWrite_busy (a : Nat) (bs : List Byte) : (s.memWrite a bs).busy = s.busy := rfl
@[simp] theorem State.memWrite_done (a : Nat) (bs : List Byte) : (s.memWrite a bs).done = s.done := rfl
@[simp] theorem State.memWrite_ovr (a : Nat) (bs : List Byte) : (s.memWrite a bs).ovr = s.ovr := rfl
@[simp] theorem State.memWrite_cmdLast (a : Nat) (bs : List Byte) : (s.memWrite a bs).cmdLast = s.cmdLast := rfl
@[simp] theorem State.memWrite_err (a : Nat) (bs : List Byte) : (s.memWrite a bs).err = s.err := rfl
@[simp] theorem State.memWrite_outLen (a : Nat) (bs : List Byte) : (s.memWrite a bs).outLen = s.outLen := rfl
@[simp] theorem State.memWrite_result (a : Nat) (bs : List Byte) : (s.memWrite a bs).result = s.result := rfl
@[simp] theorem State.memWrite_result2 (a : Nat) (bs : List Byte) : (s.memWrite a bs).result2 = s.result2 := rfl
@[simp] theorem State.memWrite_ops (a : Nat) (bs : List Byte) : (s.memWrite a bs).ops = s.ops := rfl
@[simp] theorem State.memWrite_latch (a : Nat) (bs : List Byte) : (s.memWrite a bs).latch = s.latch := rfl
@[simp] theorem State.memWrite_buf (a : Nat) (bs : List Byte) : (s.memWrite a bs).buf = Memory.writeRange s.buf a bs := rfl
@[simp] theorem State.memWrite_bufBytes (a : Nat) (bs : List Byte) : (s.memWrite a bs).bufBytes = s.bufBytes := rfl
@[simp] theorem State.memWrite_regBase (a : Nat) (bs : List Byte) : (s.memWrite a bs).regBase = s.regBase := rfl
@[simp] theorem State.memWrite_bufBase (a : Nat) (bs : List Byte) : (s.memWrite a bs).bufBase = s.bufBase := rfl
@[simp] theorem State.memWrite_draws (a : Nat) (bs : List Byte) : (s.memWrite a bs).draws = s.draws := rfl
@[simp] theorem State.memWrite_agenda (a : Nat) (bs : List Byte) : (s.memWrite a bs).agenda = s.agenda := rfl
@[simp] theorem State.memWrite_responses (a : Nat) (bs : List Byte) : (s.memWrite a bs).responses = s.responses := rfl

@[simp] theorem State.memWriteAny_ien (r : Region) : (s.memWriteAny r).ien = s.ien := rfl
@[simp] theorem State.memWriteAny_busy (r : Region) : (s.memWriteAny r).busy = s.busy := rfl
@[simp] theorem State.memWriteAny_done (r : Region) : (s.memWriteAny r).done = s.done := rfl
@[simp] theorem State.memWriteAny_ovr (r : Region) : (s.memWriteAny r).ovr = s.ovr := rfl
@[simp] theorem State.memWriteAny_cmdLast (r : Region) : (s.memWriteAny r).cmdLast = s.cmdLast := rfl
@[simp] theorem State.memWriteAny_err (r : Region) : (s.memWriteAny r).err = s.err := rfl
@[simp] theorem State.memWriteAny_outLen (r : Region) : (s.memWriteAny r).outLen = s.outLen := rfl
@[simp] theorem State.memWriteAny_result (r : Region) : (s.memWriteAny r).result = s.result := rfl
@[simp] theorem State.memWriteAny_result2 (r : Region) : (s.memWriteAny r).result2 = s.result2 := rfl
@[simp] theorem State.memWriteAny_ops (r : Region) : (s.memWriteAny r).ops = s.ops := rfl
@[simp] theorem State.memWriteAny_latch (r : Region) : (s.memWriteAny r).latch = s.latch := rfl
@[simp] theorem State.memWriteAny_buf (r : Region) : (s.memWriteAny r).buf = Memory.writeRange s.buf r.addr (drawnBytes s.draws r.len) := rfl
@[simp] theorem State.memWriteAny_bufBytes (r : Region) : (s.memWriteAny r).bufBytes = s.bufBytes := rfl
@[simp] theorem State.memWriteAny_regBase (r : Region) : (s.memWriteAny r).regBase = s.regBase := rfl
@[simp] theorem State.memWriteAny_bufBase (r : Region) : (s.memWriteAny r).bufBase = s.bufBase := rfl
@[simp] theorem State.memWriteAny_draws (r : Region) : (s.memWriteAny r).draws = s.draws := rfl
@[simp] theorem State.memWriteAny_agenda (r : Region) : (s.memWriteAny r).agenda = s.agenda := rfl
@[simp] theorem State.memWriteAny_responses (r : Region) : (s.memWriteAny r).responses = s.responses := rfl

@[simp] theorem State.nextDraw_ien : (s.nextDraw).ien = s.ien := rfl
@[simp] theorem State.nextDraw_busy : (s.nextDraw).busy = s.busy := rfl
@[simp] theorem State.nextDraw_done : (s.nextDraw).done = s.done := rfl
@[simp] theorem State.nextDraw_ovr : (s.nextDraw).ovr = s.ovr := rfl
@[simp] theorem State.nextDraw_cmdLast : (s.nextDraw).cmdLast = s.cmdLast := rfl
@[simp] theorem State.nextDraw_err : (s.nextDraw).err = s.err := rfl
@[simp] theorem State.nextDraw_outLen : (s.nextDraw).outLen = s.outLen := rfl
@[simp] theorem State.nextDraw_result : (s.nextDraw).result = s.result := rfl
@[simp] theorem State.nextDraw_result2 : (s.nextDraw).result2 = s.result2 := rfl
@[simp] theorem State.nextDraw_ops : (s.nextDraw).ops = s.ops := rfl
@[simp] theorem State.nextDraw_latch : (s.nextDraw).latch = s.latch := rfl
@[simp] theorem State.nextDraw_buf : (s.nextDraw).buf = s.buf := rfl
@[simp] theorem State.nextDraw_bufBytes : (s.nextDraw).bufBytes = s.bufBytes := rfl
@[simp] theorem State.nextDraw_regBase : (s.nextDraw).regBase = s.regBase := rfl
@[simp] theorem State.nextDraw_bufBase : (s.nextDraw).bufBase = s.bufBase := rfl
@[simp] theorem State.nextDraw_draws : (s.nextDraw).draws = s.draws + 1 := rfl
@[simp] theorem State.nextDraw_agenda : (s.nextDraw).agenda = s.agenda := rfl
@[simp] theorem State.nextDraw_responses : (s.nextDraw).responses = s.responses := rfl

@[simp] theorem State.accept_ien (w : Word) : (s.accept w).ien = s.ien := rfl
@[simp] theorem State.accept_busy (w : Word) : (s.accept w).busy = true := rfl
@[simp] theorem State.accept_done (w : Word) : (s.accept w).done = false := rfl
@[simp] theorem State.accept_ovr (w : Word) : (s.accept w).ovr = s.ovr := rfl
@[simp] theorem State.accept_cmdLast (w : Word) : (s.accept w).cmdLast = w := rfl
@[simp] theorem State.accept_err (w : Word) : (s.accept w).err = .ok := rfl
@[simp] theorem State.accept_outLen (w : Word) : (s.accept w).outLen = 0 := rfl
@[simp] theorem State.accept_result (w : Word) : (s.accept w).result = 0 := rfl
@[simp] theorem State.accept_result2 (w : Word) : (s.accept w).result2 = 0 := rfl
@[simp] theorem State.accept_ops (w : Word) : (s.accept w).ops = s.ops := rfl
@[simp] theorem State.accept_latch (w : Word) : (s.accept w).latch = some ⟨w, s.ops⟩ := rfl
@[simp] theorem State.accept_buf (w : Word) : (s.accept w).buf = s.buf := rfl
@[simp] theorem State.accept_bufBytes (w : Word) : (s.accept w).bufBytes = s.bufBytes := rfl
@[simp] theorem State.accept_regBase (w : Word) : (s.accept w).regBase = s.regBase := rfl
@[simp] theorem State.accept_bufBase (w : Word) : (s.accept w).bufBase = s.bufBase := rfl
@[simp] theorem State.accept_draws (w : Word) : (s.accept w).draws = s.draws := rfl
@[simp] theorem State.accept_agenda (w : Word) : (s.accept w).agenda = s.agenda := rfl
@[simp] theorem State.accept_responses (w : Word) : (s.accept w).responses = s.responses := rfl

@[simp] theorem State.finish_ien (c : ErrCode) (o r r2 : Word) : (s.finish c o r r2).ien = s.ien := rfl
@[simp] theorem State.finish_busy (c : ErrCode) (o r r2 : Word) : (s.finish c o r r2).busy = false := rfl
@[simp] theorem State.finish_done (c : ErrCode) (o r r2 : Word) : (s.finish c o r r2).done = true := rfl
@[simp] theorem State.finish_ovr (c : ErrCode) (o r r2 : Word) : (s.finish c o r r2).ovr = s.ovr := rfl
@[simp] theorem State.finish_cmdLast (c : ErrCode) (o r r2 : Word) : (s.finish c o r r2).cmdLast = s.cmdLast := rfl
@[simp] theorem State.finish_err (c : ErrCode) (o r r2 : Word) : (s.finish c o r r2).err = c := rfl
@[simp] theorem State.finish_outLen (c : ErrCode) (o r r2 : Word) : (s.finish c o r r2).outLen = o := rfl
@[simp] theorem State.finish_result (c : ErrCode) (o r r2 : Word) : (s.finish c o r r2).result = r := rfl
@[simp] theorem State.finish_result2 (c : ErrCode) (o r r2 : Word) : (s.finish c o r r2).result2 = r2 := rfl
@[simp] theorem State.finish_ops (c : ErrCode) (o r r2 : Word) : (s.finish c o r r2).ops = s.ops := rfl
@[simp] theorem State.finish_latch (c : ErrCode) (o r r2 : Word) : (s.finish c o r r2).latch = none := rfl
@[simp] theorem State.finish_buf (c : ErrCode) (o r r2 : Word) : (s.finish c o r r2).buf = s.buf := rfl
@[simp] theorem State.finish_bufBytes (c : ErrCode) (o r r2 : Word) : (s.finish c o r r2).bufBytes = s.bufBytes := rfl
@[simp] theorem State.finish_regBase (c : ErrCode) (o r r2 : Word) : (s.finish c o r r2).regBase = s.regBase := rfl
@[simp] theorem State.finish_bufBase (c : ErrCode) (o r r2 : Word) : (s.finish c o r r2).bufBase = s.bufBase := rfl
@[simp] theorem State.finish_draws (c : ErrCode) (o r r2 : Word) : (s.finish c o r r2).draws = s.draws := rfl
@[simp] theorem State.finish_agenda (c : ErrCode) (o r r2 : Word) : (s.finish c o r r2).agenda = s.agenda := rfl
@[simp] theorem State.finish_responses (c : ErrCode) (o r r2 : Word) : (s.finish c o r r2).responses = s.responses := rfl

@[simp] theorem State.raise_ien (e : ErrCode) : (s.raise e).ien = s.ien := rfl
@[simp] theorem State.raise_busy (e : ErrCode) : (s.raise e).busy = false := rfl
@[simp] theorem State.raise_done (e : ErrCode) : (s.raise e).done = true := rfl
@[simp] theorem State.raise_ovr (e : ErrCode) : (s.raise e).ovr = s.ovr := rfl
@[simp] theorem State.raise_cmdLast (e : ErrCode) : (s.raise e).cmdLast = s.cmdLast := rfl
@[simp] theorem State.raise_err (e : ErrCode) : (s.raise e).err = e := rfl
@[simp] theorem State.raise_outLen (e : ErrCode) : (s.raise e).outLen = 0 := rfl
@[simp] theorem State.raise_result (e : ErrCode) : (s.raise e).result = 0 := rfl
@[simp] theorem State.raise_result2 (e : ErrCode) : (s.raise e).result2 = 0 := rfl
@[simp] theorem State.raise_ops (e : ErrCode) : (s.raise e).ops = s.ops := rfl
@[simp] theorem State.raise_latch (e : ErrCode) : (s.raise e).latch = none := rfl
@[simp] theorem State.raise_buf (e : ErrCode) : (s.raise e).buf = s.buf := rfl
@[simp] theorem State.raise_bufBytes (e : ErrCode) : (s.raise e).bufBytes = s.bufBytes := rfl
@[simp] theorem State.raise_regBase (e : ErrCode) : (s.raise e).regBase = s.regBase := rfl
@[simp] theorem State.raise_bufBase (e : ErrCode) : (s.raise e).bufBase = s.bufBase := rfl
@[simp] theorem State.raise_draws (e : ErrCode) : (s.raise e).draws = s.draws := rfl
@[simp] theorem State.raise_agenda (e : ErrCode) : (s.raise e).agenda = s.agenda := rfl
@[simp] theorem State.raise_responses (e : ErrCode) : (s.raise e).responses = s.responses := rfl

@[simp] theorem State.clearDone_ien : (s.clearDone).ien = s.ien := rfl
@[simp] theorem State.clearDone_busy : (s.clearDone).busy = s.busy := rfl
@[simp] theorem State.clearDone_done : (s.clearDone).done = false := rfl
@[simp] theorem State.clearDone_ovr : (s.clearDone).ovr = s.ovr := rfl
@[simp] theorem State.clearDone_cmdLast : (s.clearDone).cmdLast = s.cmdLast := rfl
@[simp] theorem State.clearDone_err : (s.clearDone).err = s.err := rfl
@[simp] theorem State.clearDone_outLen : (s.clearDone).outLen = s.outLen := rfl
@[simp] theorem State.clearDone_result : (s.clearDone).result = s.result := rfl
@[simp] theorem State.clearDone_result2 : (s.clearDone).result2 = s.result2 := rfl
@[simp] theorem State.clearDone_ops : (s.clearDone).ops = s.ops := rfl
@[simp] theorem State.clearDone_latch : (s.clearDone).latch = s.latch := rfl
@[simp] theorem State.clearDone_buf : (s.clearDone).buf = s.buf := rfl
@[simp] theorem State.clearDone_bufBytes : (s.clearDone).bufBytes = s.bufBytes := rfl
@[simp] theorem State.clearDone_regBase : (s.clearDone).regBase = s.regBase := rfl
@[simp] theorem State.clearDone_bufBase : (s.clearDone).bufBase = s.bufBase := rfl
@[simp] theorem State.clearDone_draws : (s.clearDone).draws = s.draws := rfl
@[simp] theorem State.clearDone_agenda : (s.clearDone).agenda = s.agenda := rfl
@[simp] theorem State.clearDone_responses : (s.clearDone).responses = s.responses := rfl

@[simp] theorem State.writeCtrl_ien (v : Word) : (s.writeCtrl v).ien = v.getLsbD 0 := rfl
@[simp] theorem State.writeCtrl_busy (v : Word) : (s.writeCtrl v).busy = s.busy := rfl
@[simp] theorem State.writeCtrl_done (v : Word) : (s.writeCtrl v).done = s.done := rfl
@[simp] theorem State.writeCtrl_ovr (v : Word) : (s.writeCtrl v).ovr = s.ovr := rfl
@[simp] theorem State.writeCtrl_cmdLast (v : Word) : (s.writeCtrl v).cmdLast = s.cmdLast := rfl
@[simp] theorem State.writeCtrl_err (v : Word) : (s.writeCtrl v).err = s.err := rfl
@[simp] theorem State.writeCtrl_outLen (v : Word) : (s.writeCtrl v).outLen = s.outLen := rfl
@[simp] theorem State.writeCtrl_result (v : Word) : (s.writeCtrl v).result = s.result := rfl
@[simp] theorem State.writeCtrl_result2 (v : Word) : (s.writeCtrl v).result2 = s.result2 := rfl
@[simp] theorem State.writeCtrl_ops (v : Word) : (s.writeCtrl v).ops = s.ops := rfl
@[simp] theorem State.writeCtrl_latch (v : Word) : (s.writeCtrl v).latch = s.latch := rfl
@[simp] theorem State.writeCtrl_buf (v : Word) : (s.writeCtrl v).buf = s.buf := rfl
@[simp] theorem State.writeCtrl_bufBytes (v : Word) : (s.writeCtrl v).bufBytes = s.bufBytes := rfl
@[simp] theorem State.writeCtrl_regBase (v : Word) : (s.writeCtrl v).regBase = s.regBase := rfl
@[simp] theorem State.writeCtrl_bufBase (v : Word) : (s.writeCtrl v).bufBase = s.bufBase := rfl
@[simp] theorem State.writeCtrl_draws (v : Word) : (s.writeCtrl v).draws = s.draws := rfl
@[simp] theorem State.writeCtrl_agenda (v : Word) : (s.writeCtrl v).agenda = s.agenda := rfl
@[simp] theorem State.writeCtrl_responses (v : Word) : (s.writeCtrl v).responses = s.responses := rfl

@[simp] theorem State.respond_ien (v : Word) : (s.respond v).ien = s.ien := rfl
@[simp] theorem State.respond_busy (v : Word) : (s.respond v).busy = s.busy := rfl
@[simp] theorem State.respond_done (v : Word) : (s.respond v).done = s.done := rfl
@[simp] theorem State.respond_ovr (v : Word) : (s.respond v).ovr = s.ovr := rfl
@[simp] theorem State.respond_cmdLast (v : Word) : (s.respond v).cmdLast = s.cmdLast := rfl
@[simp] theorem State.respond_err (v : Word) : (s.respond v).err = s.err := rfl
@[simp] theorem State.respond_outLen (v : Word) : (s.respond v).outLen = s.outLen := rfl
@[simp] theorem State.respond_result (v : Word) : (s.respond v).result = s.result := rfl
@[simp] theorem State.respond_result2 (v : Word) : (s.respond v).result2 = s.result2 := rfl
@[simp] theorem State.respond_ops (v : Word) : (s.respond v).ops = s.ops := rfl
@[simp] theorem State.respond_latch (v : Word) : (s.respond v).latch = s.latch := rfl
@[simp] theorem State.respond_buf (v : Word) : (s.respond v).buf = s.buf := rfl
@[simp] theorem State.respond_bufBytes (v : Word) : (s.respond v).bufBytes = s.bufBytes := rfl
@[simp] theorem State.respond_regBase (v : Word) : (s.respond v).regBase = s.regBase := rfl
@[simp] theorem State.respond_bufBase (v : Word) : (s.respond v).bufBase = s.bufBase := rfl
@[simp] theorem State.respond_draws (v : Word) : (s.respond v).draws = s.draws := rfl
@[simp] theorem State.respond_agenda (v : Word) : (s.respond v).agenda = s.agenda := rfl
@[simp] theorem State.respond_responses (v : Word) : (s.respond v).responses = v :: s.responses := rfl

@[simp] theorem State.popTurn_ien : (s.popTurn).ien = s.ien := rfl
@[simp] theorem State.popTurn_busy : (s.popTurn).busy = s.busy := rfl
@[simp] theorem State.popTurn_done : (s.popTurn).done = s.done := rfl
@[simp] theorem State.popTurn_ovr : (s.popTurn).ovr = s.ovr := rfl
@[simp] theorem State.popTurn_cmdLast : (s.popTurn).cmdLast = s.cmdLast := rfl
@[simp] theorem State.popTurn_err : (s.popTurn).err = s.err := rfl
@[simp] theorem State.popTurn_outLen : (s.popTurn).outLen = s.outLen := rfl
@[simp] theorem State.popTurn_result : (s.popTurn).result = s.result := rfl
@[simp] theorem State.popTurn_result2 : (s.popTurn).result2 = s.result2 := rfl
@[simp] theorem State.popTurn_ops : (s.popTurn).ops = s.ops := rfl
@[simp] theorem State.popTurn_latch : (s.popTurn).latch = s.latch := rfl
@[simp] theorem State.popTurn_buf : (s.popTurn).buf = s.buf := rfl
@[simp] theorem State.popTurn_bufBytes : (s.popTurn).bufBytes = s.bufBytes := rfl
@[simp] theorem State.popTurn_regBase : (s.popTurn).regBase = s.regBase := rfl
@[simp] theorem State.popTurn_bufBase : (s.popTurn).bufBase = s.bufBase := rfl
@[simp] theorem State.popTurn_draws : (s.popTurn).draws = s.draws := rfl
@[simp] theorem State.popTurn_agenda : (s.popTurn).agenda = s.agenda.tail := rfl
@[simp] theorem State.popTurn_responses : (s.popTurn).responses = s.responses := rfl

@[simp] theorem State.afterReset_ien : (s.afterReset).ien = false := rfl
@[simp] theorem State.afterReset_busy : (s.afterReset).busy = false := rfl
@[simp] theorem State.afterReset_done : (s.afterReset).done = false := rfl
@[simp] theorem State.afterReset_ovr : (s.afterReset).ovr = false := rfl
@[simp] theorem State.afterReset_cmdLast : (s.afterReset).cmdLast = 0 := rfl
@[simp] theorem State.afterReset_err : (s.afterReset).err = .ok := rfl
@[simp] theorem State.afterReset_outLen : (s.afterReset).outLen = 0 := rfl
@[simp] theorem State.afterReset_result : (s.afterReset).result = 0 := rfl
@[simp] theorem State.afterReset_result2 : (s.afterReset).result2 = 0 := rfl
@[simp] theorem State.afterReset_ops : (s.afterReset).ops = Operands.zero := rfl
@[simp] theorem State.afterReset_latch : (s.afterReset).latch = none := rfl
@[simp] theorem State.afterReset_buf : (s.afterReset).buf = [] := rfl
@[simp] theorem State.afterReset_bufBytes : (s.afterReset).bufBytes = s.bufBytes := rfl
@[simp] theorem State.afterReset_regBase : (s.afterReset).regBase = s.regBase := rfl
@[simp] theorem State.afterReset_bufBase : (s.afterReset).bufBase = s.bufBase := rfl
@[simp] theorem State.afterReset_draws : (s.afterReset).draws = s.draws := rfl
@[simp] theorem State.afterReset_agenda : (s.afterReset).agenda = s.agenda := rfl
@[simp] theorem State.afterReset_responses : (s.afterReset).responses = s.responses := rfl

@[simp] theorem State.resetWith_ien (n r b : Nat) : (State.resetWith n r b).ien = false := rfl
@[simp] theorem State.resetWith_busy (n r b : Nat) : (State.resetWith n r b).busy = false := rfl
@[simp] theorem State.resetWith_done (n r b : Nat) : (State.resetWith n r b).done = false := rfl
@[simp] theorem State.resetWith_ovr (n r b : Nat) : (State.resetWith n r b).ovr = false := rfl
@[simp] theorem State.resetWith_cmdLast (n r b : Nat) : (State.resetWith n r b).cmdLast = 0 := rfl
@[simp] theorem State.resetWith_err (n r b : Nat) : (State.resetWith n r b).err = .ok := rfl
@[simp] theorem State.resetWith_outLen (n r b : Nat) : (State.resetWith n r b).outLen = 0 := rfl
@[simp] theorem State.resetWith_result (n r b : Nat) : (State.resetWith n r b).result = 0 := rfl
@[simp] theorem State.resetWith_result2 (n r b : Nat) : (State.resetWith n r b).result2 = 0 := rfl
@[simp] theorem State.resetWith_ops (n r b : Nat) : (State.resetWith n r b).ops = Operands.zero := rfl
@[simp] theorem State.resetWith_latch (n r b : Nat) : (State.resetWith n r b).latch = none := rfl
@[simp] theorem State.resetWith_buf (n r b : Nat) : (State.resetWith n r b).buf = [] := rfl
@[simp] theorem State.resetWith_bufBytes (n r b : Nat) : (State.resetWith n r b).bufBytes = n := rfl
@[simp] theorem State.resetWith_regBase (n r b : Nat) : (State.resetWith n r b).regBase = r := rfl
@[simp] theorem State.resetWith_bufBase (n r b : Nat) : (State.resetWith n r b).bufBase = b := rfl
@[simp] theorem State.resetWith_draws (n r b : Nat) : (State.resetWith n r b).draws = 0 := rfl
@[simp] theorem State.resetWith_agenda (n r b : Nat) : (State.resetWith n r b).agenda = [] := rfl
@[simp] theorem State.resetWith_responses (n r b : Nat) : (State.resetWith n r b).responses = [] := rfl

end Sys2Proof.Machine
end

