-- ==== Sys2Proof/Laws/Memory.lean ====
section
/-!
SUPPORT. The laws of the memory operations: read after write, frames, the canonical form, and what `readRange` answers.
-/

namespace Sys2Proof.Machine

/-! One byte -/

@[simp] theorem Memory.get_nil (a : Nat) : Memory.get [] a = none := rfl

/-- A byte reads as it was written. -/
@[simp] theorem Memory.get_set_same (m : Memory) (a : Nat) (b : Byte) : Memory.get (Memory.set m a b) a = some b := by
  induction m with
  | nil => simp [Memory.set, Memory.get]
  | cons c m ih =>
    obtain ⟨k, v⟩ := c
    simp only [Memory.set]
    split
    · simp [Memory.get]
    · split
      · simp [Memory.get]
      · simp only [Memory.get, ih]
        rw [if_neg (by omega)]

/-- A write leaves every other byte alone. -/
theorem Memory.get_set_other (m : Memory) {a x : Nat} (b : Byte) (h : x ≠ a) :
    Memory.get (Memory.set m a b) x = Memory.get m x := by
  induction m with
  | nil => simp [Memory.set, Memory.get, Ne.symm h]
  | cons c m ih =>
    obtain ⟨k, v⟩ := c
    simp only [Memory.set]
    split
    · simp [Memory.get, Ne.symm h]
    · split
      · subst_vars; simp [Memory.get, Ne.symm h]
      · simp only [Memory.get, ih]

theorem Memory.mem_set {m : Memory} {a : Nat} {b : Byte} {c : Host.Cell} (h : c ∈ Memory.set m a b) :
    c = (a, b) ∨ c ∈ m := by
  induction m with
  | nil => simpa [Memory.set] using h
  | cons d m ih =>
    obtain ⟨k, v⟩ := d
    simp only [Memory.set] at h
    split at h
    · simpa using h
    · split at h
      · rcases List.mem_cons.1 h with h | h
        · exact .inl h
        · exact .inr (List.mem_cons_of_mem _ h)
      · rcases List.mem_cons.1 h with h | h
        · exact .inr (h ▸ List.mem_cons_self ..)
        · exact (ih h).imp id (List.mem_cons_of_mem _)

/-- A write keeps the canonical form. -/
theorem Memory.set_wf {m : Memory} (h : Memory.wf m) (a : Nat) (b : Byte) : Memory.wf (Memory.set m a b) := by
  induction m with
  | nil => simp [Memory.set, Memory.wf]
  | cons c m ih =>
    obtain ⟨k, v⟩ := c
    obtain ⟨hk, hm⟩ := List.pairwise_cons.1 h
    simp only [Memory.set]
    split
    · rename_i hak
      refine List.pairwise_cons.2 ⟨fun d hd => ?_, h⟩
      rcases List.mem_cons.1 hd with rfl | hd
      · exact hak
      · exact hak.trans (hk d hd)
    · split
      · rename_i hak
        exact List.pairwise_cons.2 ⟨fun d hd => hak ▸ hk d hd, hm⟩
      · rename_i h1 h2
        refine List.pairwise_cons.2 ⟨fun d hd => ?_, ih hm⟩
        rcases Memory.mem_set hd with rfl | hd
        · change k < a; omega
        · exact hk d hd

/-! Ranges -/

theorem Memory.writeRange_wf {m : Memory} (h : Memory.wf m) (a : Nat) (bs : List Byte) :
    Memory.wf (Memory.writeRange m a bs) := by
  induction bs generalizing m a with
  | nil => exact h
  | cons b bs ih => exact ih (Memory.set_wf h a b) (a + 1)

/-- The addresses listed after a write are the ones listed before and the ones written. -/
theorem Memory.mem_writeRange {m : Memory} {a : Nat} {bs : List Byte} {c : Host.Cell} (h : c ∈ Memory.writeRange m a bs) :
    (a ≤ c.1 ∧ c.1 < a + bs.length) ∨ c ∈ m := by
  induction bs generalizing m a with
  | nil => exact .inr h
  | cons b bs ih =>
    simp only [List.length_cons]
    rcases ih h with h | h
    · left; omega
    · rcases Memory.mem_set h with rfl | h
      · left; simp
      · exact .inr h

/-- A write of a range leaves every byte outside it alone. -/
theorem Memory.get_writeRange_outside (m : Memory) {a x : Nat} (bs : List Byte) (h : x < a ∨ a + bs.length ≤ x) :
    Memory.get (Memory.writeRange m a bs) x = Memory.get m x := by
  induction bs generalizing m a with
  | nil => rfl
  | cons b bs ih =>
    simp only [List.length_cons] at h
    rw [Memory.writeRange, ih _ (by omega), Memory.get_set_other _ _ (by omega)]

/-- A byte of a written range reads as it was written. -/
theorem Memory.get_writeRange_inside (m : Memory) (a : Nat) (bs : List Byte) {i : Nat} (h : i < bs.length) :
    Memory.get (Memory.writeRange m a bs) (a + i) = some bs[i] := by
  induction bs generalizing m a i with
  | nil => simp at h
  | cons b bs ih =>
    cases i with
    | zero =>
      rw [Memory.writeRange, Nat.add_zero, Memory.get_writeRange_outside _ _ (by omega)]
      simp
    | succ i =>
      rw [Memory.writeRange, show a + (i + 1) = a + 1 + i by omega, ih _ _ (by simpa using h)]
      simp

/-- `readRange` answers the bytes of the region, in order. -/
theorem Memory.readRange_ok_iff {m : Memory} {a n : Nat} {bs : List Byte} :
    Memory.readRange m a n = .ok bs ↔
      bs.length = n ∧ ∀ i, (h : i < bs.length) → Memory.get m (a + i) = some bs[i] := by
  induction n generalizing a bs with
  | zero =>
    simp only [Memory.readRange, Except.ok.injEq, List.length_eq_zero_iff]
    exact ⟨fun h => ⟨h.symm, by simp [← h]⟩, fun h => h.1.symm⟩
  | succ n ih =>
    simp only [Memory.readRange]
    constructor
    · intro h
      split at h
      · cases h
      · rename_i b hb
        split at h
        · cases h
        · rename_i cs hcs
          cases h
          obtain ⟨hl, hg⟩ := ih.1 hcs
          refine ⟨by simp [hl], fun i hi => ?_⟩
          cases i with
          | zero => simpa using hb
          | succ i => simpa [Nat.add_assoc, Nat.add_comm 1 i] using hg i (by simpa using hi)
    · rintro ⟨hl, hg⟩
      cases bs with
      | nil => simp at hl
      | cons b bs =>
        have hb : Memory.get m a = some b := hg 0 (by simp)
        have hr : Memory.readRange m (a + 1) n = .ok bs := ih.2 ⟨by simpa using hl, fun i hi => by
          have := hg (i + 1) (by simpa using hi)
          rw [show a + (i + 1) = a + 1 + i by omega] at this
          exact this⟩
        simp [hb, hr]

theorem Memory.readRange_length {m : Memory} {a n : Nat} {bs : List Byte} (h : Memory.readRange m a n = .ok bs) :
    bs.length = n := (Memory.readRange_ok_iff.1 h).1

/-- `readRange` stops at an address of the region that holds no value. -/
theorem Memory.readRange_error {m : Memory} {a n x : Nat} (h : Memory.readRange m a n = .error x) :
    a ≤ x ∧ x < a + n ∧ Memory.get m x = none := by
  induction n generalizing a with
  | zero => simp [Memory.readRange] at h
  | succ n ih =>
    simp only [Memory.readRange] at h
    split at h
    · rename_i hb
      cases h
      exact ⟨le_refl _, by omega, hb⟩
    · split at h
      · rename_i e he
        cases h
        have := ih he
        exact ⟨by omega, by omega, this.2.2⟩
      · cases h

/-- A region all of whose bytes hold values is read. -/
theorem Memory.readRange_of_written {m : Memory} {a n : Nat} (h : ∀ x, a ≤ x → x < a + n → Memory.get m x ≠ none) :
    ∃ bs, Memory.readRange m a n = .ok bs := by
  cases hr : Memory.readRange m a n with
  | ok bs => exact ⟨bs, rfl⟩
  | error x =>
    obtain ⟨h1, h2, h3⟩ := Memory.readRange_error hr
    exact absurd h3 (h x h1 h2)

/-- A region with a byte that holds no value is not read. -/
theorem Memory.readRange_of_unwritten {m : Memory} {a n x : Nat} (h1 : a ≤ x) (h2 : x < a + n) (h3 : Memory.get m x = none) :
    ∃ y, Memory.readRange m a n = .error y := by
  cases hr : Memory.readRange m a n with
  | error y => exact ⟨y, rfl⟩
  | ok bs =>
    obtain ⟨hl, hg⟩ := Memory.readRange_ok_iff.1 hr
    have := hg (x - a) (by omega)
    rw [show a + (x - a) = x by omega, h3] at this
    cases this

/-- `readRange` depends on the bytes of its region alone. -/
theorem Memory.readRange_congr {m m' : Memory} {a n : Nat} (h : ∀ x, a ≤ x → x < a + n → Memory.get m' x = Memory.get m x) :
    Memory.readRange m' a n = Memory.readRange m a n := by
  induction n generalizing a with
  | zero => rfl
  | succ n ih =>
    simp only [Memory.readRange]
    rw [h a (le_refl _) (by omega), ih fun x h1 h2 => h x (by omega) (by omega)]

/-- A written range is read back. -/
theorem Memory.readRange_writeRange (m : Memory) (a : Nat) (bs : List Byte) :
    Memory.readRange (Memory.writeRange m a bs) a bs.length = .ok bs :=
  Memory.readRange_ok_iff.2 ⟨rfl, fun _ h => Memory.get_writeRange_inside m a bs h⟩

/-- The first n bytes of a region that is read. -/
theorem Memory.readRange_take {m : Memory} {a k n : Nat} {bs : List Byte} (h : Memory.readRange m a n = .ok bs) (hk : k ≤ n) :
    Memory.readRange m a k = .ok (bs.take k) := by
  obtain ⟨hl, hg⟩ := Memory.readRange_ok_iff.1 h
  refine Memory.readRange_ok_iff.2 ⟨by simp [hl, hk], fun i hi => ?_⟩
  rw [List.getElem_take]
  exact hg i (by simp at hi; omega)

/-- A write away from a region leaves what is read from it. -/
theorem Memory.readRange_writeRange_disjoint (m : Memory) {a n x : Nat} (bs : List Byte)
    (h : ¬ overlap ⟨x, bs.length⟩ ⟨a, n⟩) : Memory.readRange (Memory.writeRange m x bs) a n = Memory.readRange m a n := by
  refine Memory.readRange_congr fun y h1 h2 => Memory.get_writeRange_outside m bs ?_
  by_contra hc
  simp only [overlap, not_and, not_lt] at h
  have := h (by omega) (by omega) (by omega)
  omega

end Sys2Proof.Machine
end

