-- ==== Sys2Proof/Laws/Bytes.lean ====
section
/-!
SUPPORT. The laws of the pure functions: lengths, blocks, the mode loops, and the bounds of the Hamming engine.
-/

namespace Sys2Proof.Machine

/-! Notation -/

@[simp] theorem slice_length (s : List Byte) (i j : Nat) : (slice s i j).length = min j s.length - i := by
  simp [slice]

@[simp] theorem xorBytes_length (a b : List Byte) : (xorBytes a b).length = min a.length b.length := by
  simp [xorBytes]

@[simp] theorem zeros_length (n : Nat) : (zeros n).length = n := by simp [zeros]

/-- XOR with the same sequence twice gives the sequence back. -/
theorem xorBytes_cancel {a b : List Byte} (h : a.length = b.length) : xorBytes (xorBytes a b) b = a := by
  induction a generalizing b with
  | nil => simp [xorBytes]
  | cons x a ih =>
    cases b with
    | nil => simp at h
    | cons y b =>
      have := ih (b := b) (by simpa using h)
      simp only [xorBytes, List.zipWith_cons_cons] at this ⊢
      rw [this, BitVec.xor_assoc, BitVec.xor_self, BitVec.xor_zero]

/-- XOR with one sequence is injective on sequences of its length. -/
theorem xorBytes_right_inj {a b c : List Byte} (ha : a.length = c.length) (hb : b.length = c.length) :
    xorBytes a c = xorBytes b c ↔ a = b :=
  ⟨fun h => by rw [← xorBytes_cancel ha, h, xorBytes_cancel hb], fun h => h ▸ rfl⟩

theorem xorBytes_comm (a b : List Byte) : xorBytes a b = xorBytes b a := by
  simp only [xorBytes]
  rw [List.zipWith_comm]
  simp only [BitVec.xor_comm]

/-! Padding -/

theorem padp_pos {n bs : Nat} (h : 1 ≤ bs) : 1 ≤ padp n bs := by
  have := Nat.mod_lt n h; unfold padp; omega

theorem padp_le (n bs : Nat) : padp n bs ≤ bs := by unfold padp; omega

@[simp] theorem padFn_length (x : List Byte) (bs : Nat) : (padFn x bs).length = paddedLen x.length bs := by
  simp [padFn, paddedLen]

/-- The padded length as a multiple of the block size (R113). -/
theorem paddedLen_eq_mul {n bs : Nat} (h : 1 ≤ bs) : paddedLen n bs = (n / bs + 1) * bs := by
  have h1 := Nat.div_add_mod n bs
  have h2 := Nat.mod_lt n h
  have h3 : (n / bs + 1) * bs = bs * (n / bs) + bs := by ring
  unfold paddedLen padp
  omega

theorem paddedLen_mod {n bs : Nat} (h : 1 ≤ bs) : paddedLen n bs % bs = 0 := by
  rw [paddedLen_eq_mul h]; simp

/-- What a valid padding is, in the words of R112. -/
theorem isValidFn_iff {d : List Byte} {bs : Nat} :
    isValidFn d bs = true ↔ ∃ p : Byte, d.getLast? = some p ∧ d.length % bs = 0 ∧ 1 ≤ p.toNat ∧ p.toNat ≤ bs ∧
      ∀ b ∈ d.drop (d.length - p.toNat), b = p := by
  unfold isValidFn
  cases d.getLast? with
  | none => simp
  | some p => simp [and_assoc]

theorem stripFn_eq_some {d : List Byte} {bs m : Nat} :
    stripFn d bs = some m ↔ isValidFn d bs = true ∧ ∃ p, d.getLast? = some p ∧ m = d.length - p.toNat := by
  unfold stripFn
  split
  · rename_i h
    obtain ⟨p, hp, -⟩ := isValidFn_iff.1 h
    simp [h, hp, eq_comm]
  · rename_i h; simp [h]

theorem stripFn_eq_none {d : List Byte} {bs : Nat} : stripFn d bs = none ↔ isValidFn d bs = false := by
  unfold stripFn
  split
  · rename_i h
    obtain ⟨p, hp, -⟩ := isValidFn_iff.1 h
    simp [h, hp]
  · rename_i h; simpa using h

theorem stripFn_le {d : List Byte} {bs m : Nat} (h : stripFn d bs = some m) : m ≤ d.length := by
  obtain ⟨-, p, -, rfl⟩ := stripFn_eq_some.1 h
  omega

/-! Blocks -/

@[simp] theorem nblk_padFn (x : List Byte) : nblk (padFn x 16) = x.length / 16 + 1 := by
  rw [nblk, padFn_length, paddedLen_eq_mul (by decide)]
  simp [Config.cipherBs]

theorem blk_length {s : List Byte} {i : Nat} (h : i < nblk s) : (blk s i).length = 16 := by
  simp only [nblk, Config.cipherBs] at h
  simp only [blk, slice_length, Config.cipherBs]
  omega

@[simp] theorem blocksOf_length (s : List Byte) : (blocksOf s).length = nblk s := by simp [blocksOf]

theorem length_of_mem_blocksOf {s b : List Byte} (h : b ∈ blocksOf s) : b.length = 16 := by
  obtain ⟨i, hi, rfl⟩ := List.mem_map.1 h
  exact blk_length (List.mem_range.1 hi)

theorem blocksOf_getElem {s : List Byte} {i : Nat} (h : i < (blocksOf s).length) : (blocksOf s)[i] = blk s i := by
  simp [blocksOf]

/-- The blocks of a first block followed by the rest. -/
theorem blocksOf_append {c rest : List Byte} (h : c.length = 16) : blocksOf (c ++ rest) = c :: blocksOf rest := by
  have hn : nblk (c ++ rest) = nblk rest + 1 := by
    simp only [nblk, Config.cipherBs, List.length_append, h]; omega
  have hb : ∀ i, blk (c ++ rest) (i + 1) = blk rest i := by
    intro i
    simp only [blk, slice, Config.cipherBs]
    rw [List.take_append, List.drop_append]
    simp only [List.length_take, h]
    rw [List.drop_eq_nil_of_le (by simp only [List.length_take, h]; omega), List.nil_append]
    rw [show 16 * (i + 1) + 16 - 16 = 16 * i + 16 by omega]
    rw [show 16 * (i + 1) - min (16 * (i + 1) + 16) 16 = 16 * i by omega]
  have h0 : blk (c ++ rest) 0 = c := by
    simp only [blk, slice, Config.cipherBs, Nat.mul_zero, Nat.zero_add, List.drop_zero]
    rw [List.take_append, List.take_of_length_le (by omega), h]
    simp
  rw [blocksOf, hn, List.range_succ_eq_map, List.map_cons, List.map_map, h0]
  simp only [blocksOf, List.cons.injEq, true_and]
  exact List.map_congr_left fun i _ => hb i

/-- The blocks of the concatenation of blocks are those blocks. -/
theorem blocksOf_flatten {bl : List (List Byte)} (h : ∀ b ∈ bl, b.length = 16) : blocksOf bl.flatten = bl := by
  induction bl with
  | nil => rfl
  | cons b bl ih =>
    rw [List.flatten_cons, blocksOf_append (h b (List.mem_cons_self ..)), ih fun b hb => h b (List.mem_cons_of_mem _ hb)]

theorem flatten_length_blocks {bl : List (List Byte)} (h : ∀ b ∈ bl, b.length = 16) : bl.flatten.length = 16 * bl.length := by
  induction bl with
  | nil => rfl
  | cons b bl ih =>
    rw [List.flatten_cons, List.length_append, h b (List.mem_cons_self ..), ih fun b hb => h b (List.mem_cons_of_mem _ hb),
      List.length_cons]
    omega

/-- Two sequences of whole blocks with the same blocks are equal. -/
theorem flatten_blocksOf {s : List Byte} (h : s.length % 16 = 0) : (blocksOf s).flatten = s := by
  obtain ⟨n, hn⟩ : ∃ n, s.length = 16 * n := ⟨s.length / 16, by omega⟩
  clear h
  induction n generalizing s with
  | zero =>
    have : s = [] := List.length_eq_zero_iff.1 (by omega)
    subst this; rfl
  | succ n ih =>
    have h1 : (s.take 16).length = 16 := by simp; omega
    have h2 : s.take 16 ++ s.drop 16 = s := List.take_append_drop 16 s
    conv_lhs => rw [← h2]
    rw [blocksOf_append h1, List.flatten_cons, ih (by simp; omega), h2]

/-- Block j of the concatenation of blocks. -/
theorem blk_flatten {bl : List (List Byte)} (h : ∀ b ∈ bl, b.length = 16) {j : Nat} (hj : j < bl.length) :
    blk bl.flatten j = bl[j] := by
  have h1 := blocksOf_flatten h
  rw [← blocksOf_getElem (s := bl.flatten) (by rw [h1]; exact hj)]
  simp only [h1]

/-! The mode loops. Each answers the concatenation of one output block a block, in block order. -/

/-- A primitive that answers blocks of 16 bytes whenever it answers. -/
def BlockValued (prim : Nat → List Byte → Option (List Byte)) : Prop := ∀ i b c, prim i b = some c → c.length = 16

/-- A primitive that answers every 16-byte block with a 16-byte block. -/
def BlockTotal (prim : Nat → List Byte → Option (List Byte)) : Prop :=
  ∀ i b, b.length = 16 → ∃ c, prim i b = some c ∧ c.length = 16

/-- What the ECB loop answers (R145, R146). -/
theorem ecbLoop_some {prim : Nat → List Byte → Option (List Byte)} {i : Nat} {bl : List (List Byte)} {out : List Byte} :
    ecbLoop prim i bl = some out ↔ ∃ cs : List (List Byte), out = cs.flatten ∧ cs.length = bl.length ∧
      ∀ j, (h : j < bl.length) → (h' : j < cs.length) → prim (i + j) bl[j] = some cs[j] := by
  induction bl generalizing i out with
  | nil =>
    simp only [ecbLoop, Option.some.injEq, List.length_nil, List.length_eq_zero_iff]
    exact ⟨fun h => ⟨[], by simp [← h], rfl, by simp⟩, fun ⟨cs, h1, h2, _⟩ => by simp [h1, h2]⟩
  | cons b bl ih =>
    simp only [ecbLoop]
    constructor
    · intro h
      split at h
      · cases h
      · rename_i c hc
        split at h
        · cases h
        · rename_i o ho
          cases h
          obtain ⟨cs, rfl, h2, h3⟩ := ih.1 ho
          refine ⟨c :: cs, rfl, by simp [h2], fun j hj hj' => ?_⟩
          cases j with
          | zero => simpa using hc
          | succ j => simpa [Nat.add_assoc, Nat.add_comm 1 j] using h3 j (by simpa using hj) (by simpa using hj')
    · rintro ⟨cs, rfl, h2, h3⟩
      cases cs with
      | nil => simp at h2
      | cons c cs =>
        have hc : prim i b = some c := h3 0 (by simp) (by simp)
        have ho : ecbLoop prim (i + 1) bl = some cs.flatten := ih.2 ⟨cs, rfl, by simpa using h2, fun j hj hj' => by
          have := h3 (j + 1) (by simpa using hj) (by simpa using hj')
          rw [show i + (j + 1) = i + 1 + j by omega] at this
          exact this⟩
        simp [hc, ho]

/-- What the CBCENC loop answers: block j's input is XORed with the ciphertext block before it (R147). -/
theorem cbcEncLoop_some {prim : Nat → List Byte → Option (List Byte)} {i : Nat} {prev : List Byte} {bl : List (List Byte)}
    {out : List Byte} :
    cbcEncLoop prim i prev bl = some out ↔ ∃ cs : List (List Byte), out = cs.flatten ∧ cs.length = bl.length ∧
      ∀ j, (h : j < bl.length) → (h' : j < cs.length) →
        prim (i + j) (xorBytes bl[j] ((prev :: cs)[j]'(by simp; omega))) = some cs[j] := by
  induction bl generalizing i out prev with
  | nil =>
    simp only [cbcEncLoop, Option.some.injEq, List.length_nil, List.length_eq_zero_iff]
    exact ⟨fun h => ⟨[], by simp [← h], rfl, by simp⟩, fun ⟨cs, h1, h2, _⟩ => by simp [h1, h2]⟩
  | cons b bl ih =>
    simp only [cbcEncLoop]
    constructor
    · intro h
      split at h
      · cases h
      · rename_i c hc
        split at h
        · cases h
        · rename_i o ho
          cases h
          obtain ⟨cs, rfl, h2, h3⟩ := ih.1 ho
          refine ⟨c :: cs, rfl, by simp [h2], fun j hj hj' => ?_⟩
          cases j with
          | zero => simpa using hc
          | succ j => simpa [Nat.add_assoc, Nat.add_comm 1 j] using h3 j (by simpa using hj) (by simpa using hj')
    · rintro ⟨cs, rfl, h2, h3⟩
      cases cs with
      | nil => simp at h2
      | cons c cs =>
        have hc : prim i (xorBytes b prev) = some c := h3 0 (by simp) (by simp)
        have ho : cbcEncLoop prim (i + 1) c bl = some cs.flatten := ih.2 ⟨cs, rfl, by simpa using h2, fun j hj hj' => by
          have := h3 (j + 1) (by simpa using hj) (by simpa using hj')
          rw [show i + (j + 1) = i + 1 + j by omega] at this
          exact this⟩
        simp [hc, ho]

/-- What the CBCDEC loop answers: block j's output is XORed with the ciphertext block before it (R148). -/
theorem cbcDecLoop_some {prim : Nat → List Byte → Option (List Byte)} {i : Nat} {prev : List Byte} {bl : List (List Byte)}
    {out : List Byte} :
    cbcDecLoop prim i prev bl = some out ↔ ∃ ds : List (List Byte), ds.length = bl.length ∧
      (∀ j, (h : j < bl.length) → (h' : j < ds.length) → prim (i + j) bl[j] = some ds[j]) ∧
      out = (List.zipWith xorBytes ds (prev :: bl)).flatten := by
  induction bl generalizing i out prev with
  | nil =>
    simp only [cbcDecLoop, Option.some.injEq, List.length_nil, List.length_eq_zero_iff]
    exact ⟨fun h => ⟨[], rfl, by simp, by simp [← h]⟩, fun ⟨ds, h1, _, h2⟩ => by simp [h1, h2]⟩
  | cons b bl ih =>
    simp only [cbcDecLoop]
    constructor
    · intro h
      split at h
      · cases h
      · rename_i d hd
        split at h
        · cases h
        · rename_i o ho
          cases h
          obtain ⟨ds, h2, h3, rfl⟩ := ih.1 ho
          refine ⟨d :: ds, by simp [h2], fun j hj hj' => ?_, by simp⟩
          cases j with
          | zero => simpa using hd
          | succ j => simpa [Nat.add_assoc, Nat.add_comm 1 j] using h3 j (by simpa using hj) (by simpa using hj')
    · rintro ⟨ds, h2, h3, rfl⟩
      cases ds with
      | nil => simp at h2
      | cons d ds =>
        have hd : prim i b = some d := h3 0 (by simp) (by simp)
        have ho := (ih (i := i + 1) (prev := b)).2 ⟨ds, by simpa using h2, fun j hj hj' => by
          have := h3 (j + 1) (by simpa using hj) (by simpa using hj')
          rw [show i + (j + 1) = i + 1 + j by omega] at this
          exact this, rfl⟩
        simp [hd, ho]

/-- The ECB loop goes through when the primitive answers every block. -/
theorem ecbLoop_total {prim : Nat → List Byte → Option (List Byte)} (hp : BlockTotal prim) (i : Nat) {bl : List (List Byte)}
    (h : ∀ b ∈ bl, b.length = 16) : ∃ out, ecbLoop prim i bl = some out := by
  induction bl generalizing i with
  | nil => exact ⟨[], rfl⟩
  | cons b bl ih =>
    obtain ⟨c, hc, -⟩ := hp i b (h b (List.mem_cons_self ..))
    obtain ⟨o, ho⟩ := ih (i + 1) fun b hb => h b (List.mem_cons_of_mem _ hb)
    exact ⟨c ++ o, by simp [ecbLoop, hc, ho]⟩

/-- The CBCENC loop goes through when the primitive answers every block. -/
theorem cbcEncLoop_total {prim : Nat → List Byte → Option (List Byte)} (hp : BlockTotal prim) (i : Nat) {prev : List Byte}
    (hprev : prev.length = 16) {bl : List (List Byte)} (h : ∀ b ∈ bl, b.length = 16) :
    ∃ out, cbcEncLoop prim i prev bl = some out := by
  induction bl generalizing i prev with
  | nil => exact ⟨[], rfl⟩
  | cons b bl ih =>
    obtain ⟨c, hc, hl⟩ := hp i (xorBytes b prev) (by simp [h b (List.mem_cons_self ..), hprev])
    obtain ⟨o, ho⟩ := ih (i + 1) hl fun b hb => h b (List.mem_cons_of_mem _ hb)
    exact ⟨c ++ o, by simp [cbcEncLoop, hc, ho]⟩

/-- The CBCDEC loop goes through when the primitive answers every block. -/
theorem cbcDecLoop_total {prim : Nat → List Byte → Option (List Byte)} (hp : BlockTotal prim) (i : Nat) (prev : List Byte)
    {bl : List (List Byte)} (h : ∀ b ∈ bl, b.length = 16) : ∃ out, cbcDecLoop prim i prev bl = some out := by
  induction bl generalizing i prev with
  | nil => exact ⟨[], rfl⟩
  | cons b bl ih =>
    obtain ⟨d, hd, -⟩ := hp i b (h b (List.mem_cons_self ..))
    obtain ⟨o, ho⟩ := ih (i + 1) b fun b hb => h b (List.mem_cons_of_mem _ hb)
    exact ⟨xorBytes d prev ++ o, by simp [cbcDecLoop, hd, ho]⟩

theorem ecbLoop_length {prim : Nat → List Byte → Option (List Byte)} (hp : BlockValued prim) {i : Nat}
    {bl : List (List Byte)} {out : List Byte} (h : ecbLoop prim i bl = some out) : out.length = 16 * bl.length := by
  induction bl generalizing i out with
  | nil => simp [ecbLoop] at h; simp [h]
  | cons b bl ih =>
    simp only [ecbLoop] at h
    split at h
    · cases h
    · rename_i c hc
      split at h
      · cases h
      · rename_i o ho
        cases h
        rw [List.length_append, ih ho, hp _ _ _ hc, List.length_cons]; omega

theorem cbcEncLoop_length {prim : Nat → List Byte → Option (List Byte)} (hp : BlockValued prim) {i : Nat} {prev : List Byte}
    {bl : List (List Byte)} {out : List Byte} (h : cbcEncLoop prim i prev bl = some out) : out.length = 16 * bl.length := by
  induction bl generalizing i prev out with
  | nil => simp [cbcEncLoop] at h; simp [h]
  | cons b bl ih =>
    simp only [cbcEncLoop] at h
    split at h
    · cases h
    · rename_i c hc
      split at h
      · cases h
      · rename_i o ho
        cases h
        rw [List.length_append, ih ho, hp _ _ _ hc, List.length_cons]; omega

theorem cbcDecLoop_length {prim : Nat → List Byte → Option (List Byte)} (hp : BlockValued prim) {i : Nat} {prev : List Byte}
    (hprev : prev.length = 16) {bl : List (List Byte)} (hb : ∀ b ∈ bl, b.length = 16) {out : List Byte}
    (h : cbcDecLoop prim i prev bl = some out) : out.length = 16 * bl.length := by
  induction bl generalizing i prev out with
  | nil => simp [cbcDecLoop] at h; simp [h]
  | cons b bl ih =>
    simp only [cbcDecLoop] at h
    split at h
    · cases h
    · rename_i d hd
      split at h
      · cases h
      · rename_i o ho
        cases h
        rw [List.length_append, ih (hb b (List.mem_cons_self ..)) (fun b h => hb b (List.mem_cons_of_mem _ h)) ho,
          xorBytes_length, hp _ _ _ hd, hprev, List.length_cons]
        omega

/-! The Hamming engine -/

theorem popcount8_le (b : Byte) : popcount8 b ≤ 8 := by
  have := List.length_filter_le (fun i => b.getLsbD i) (List.range 8)
  simpa [popcount8] using this

theorem hd_le (a b : List Byte) : hd a b ≤ 8 * min a.length b.length := by
  induction a generalizing b with
  | nil => simp [hd]
  | cons x a ih =>
    cases b with
    | nil => simp [hd]
    | cons y b =>
      have h1 := popcount8_le (x ^^^ y)
      have h2 := ih b
      simp only [hd, List.zipWith_cons_cons, List.sum_cons, List.length_cons] at h2 ⊢
      omega

theorem pairCount_eq (s : List Byte) (k : Nat) : pairCount s k = s.length / k - 1 := by
  unfold pairCount nfull; split <;> omega

theorem pairSum_le_mul (s : List Byte) (k : Nat) : pairSum s k ≤ 8 * k * pairCount s k := by
  unfold pairSum
  have h : ∀ l : List Nat, ((l.map fun j => hd (fchunk s k j) (fchunk s k (j + 1))).sum) ≤ 8 * k * l.length := by
    intro l
    induction l with
    | nil => simp
    | cons j l ih =>
      have h1 := hd_le (fchunk s k j) (fchunk s k (j + 1))
      have h2 : (fchunk s k j).length ≤ k := by simp only [fchunk, slice_length]; omega
      have h3 : 8 * min (fchunk s k j).length (fchunk s k (j + 1)).length ≤ 8 * k := by omega
      simp only [List.map_cons, List.sum_cons, List.length_cons]
      have : 8 * k * (l.length + 1) = 8 * k * l.length + 8 * k := by ring
      omega
  simpa using h (List.range (pairCount s k))

theorem pairSum_le (s : List Byte) (k : Nat) : pairSum s k ≤ 8 * s.length := by
  have h1 := pairSum_le_mul s k
  have h2 : k * pairCount s k ≤ s.length := by
    rw [pairCount_eq]
    exact le_trans (Nat.mul_le_mul_left _ (Nat.sub_le _ _)) (Nat.mul_div_le _ _)
  have : 8 * k * pairCount s k = 8 * (k * pairCount s k) := by ring
  omega

end Sys2Proof.Machine
end

