-- ==== Sys2Proof/Laws/Engine.lean ====
section
/-!
SUPPORT. What the shared operations of the engine can do, said once: the checks, `runCommand`, `withRegion`, the primitive
port, and `exec_next`, the inversion of every command.
-/

namespace Sys2Proof.Machine

/-! The checks -/

/-- When the checks of R225 pass. -/
theorem validate_eq_none {n : Nat} {i : Instr} {L : Latch} :
    validate n i L = none ↔
      zeroBlockSize i = false ∧ badIvLength i L = false ∧ badLength i L = false ∧ lengthMismatch i L = false ∧
      (∀ r ∈ readsOf i L, inRange n r) ∧
      ∀ w, windowOf i L = some w → inRange n w ∧ ∀ r ∈ readsOf i L, ¬ overlap w r := by
  have h1 : outOfRange n i L = false ↔ (∀ r ∈ readsOf i L, inRange n r) ∧ ∀ w, windowOf i L = some w → inRange n w := by
    simp only [outOfRange, List.any_eq_false, List.mem_append, Option.mem_toList, Bool.not_eq_true', decide_eq_false_iff_not,
      not_not]
    exact ⟨fun h => ⟨fun r hr => h r (.inl hr), fun w hw => h w (.inr hw)⟩, fun h r hr => hr.elim (h.1 r) (h.2 r)⟩
  have h2 : windowOverlaps i L = false ↔ ∀ w, windowOf i L = some w → ∀ r ∈ readsOf i L, ¬ overlap w r := by
    simp [windowOverlaps]
  unfold validate
  repeat' split
  all_goals simp_all
  all_goals (intro a; grind)

/-- The checks raise none of OK, PRIM_FAULT and PADDING_INVALID. -/
theorem validate_eq_some {n : Nat} {i : Instr} {L : Latch} {e : ErrCode} (h : validate n i L = some e) :
    e ≠ .ok ∧ e ≠ .primFault ∧ e ≠ .paddingInvalid := by
  unfold validate at h
  repeat' split at h
  all_goals simp_all
  all_goals subst h; simp

/-! The frame of a command -/

theorem runCommand_of_valid {i : Instr} {s : State} {L : Latch} {p : Latch → Result} (hl : s.latch = some L)
    (hv : validate s.bufBytes i L = none) : runCommand i s p = p L := by simp [runCommand, hl, hv]

theorem runCommand_of_error {i : Instr} {s : State} {L : Latch} {p : Latch → Result} {e : ErrCode} (hl : s.latch = some L)
    (hv : validate s.bufBytes i L = some e) : runCommand i s p = .next (s.raise e) := by simp [runCommand, hl, hv]

/-- All that `runCommand` can answer. -/
theorem runCommand_cases (i : Instr) (s : State) (p : Latch → Result) :
    (s.latch = none ∧ runCommand i s p = .next s) ∨
    ∃ L, s.latch = some L ∧
      ((∃ e, validate s.bufBytes i L = some e ∧ runCommand i s p = .next (s.raise e)) ∨
        (validate s.bufBytes i L = none ∧ runCommand i s p = p L)) := by
  cases hl : s.latch with
  | none => simp [runCommand, hl]
  | some L => cases hv : validate s.bufBytes i L <;> simp [runCommand, hl, hv]

theorem withRegion_of_ok {s : State} {r : Region} {k : List Byte → Result} {bs : List Byte}
    (h : Memory.readRange s.buf r.addr r.len = .ok bs) : withRegion s r k = k bs := by simp [withRegion, h]

/-- All that `withRegion` can answer. -/
theorem withRegion_cases (s : State) (r : Region) (k : List Byte → Result) :
    (∃ bs, Memory.readRange s.buf r.addr r.len = .ok bs ∧ withRegion s r k = k bs) ∨
    ∃ a, Memory.readRange s.buf r.addr r.len = .error a ∧ withRegion s r k = .fault (.unwrittenByte a) ∧
      r.addr ≤ a ∧ a < r.addr + r.len ∧ Memory.get s.buf a = none := by
  cases h : Memory.readRange s.buf r.addr r.len with
  | ok bs => simp [withRegion, h]
  | error a => exact .inr ⟨a, rfl, by simp [withRegion, h], Memory.readRange_error h⟩

theorem withRegion_next {s t : State} {r : Region} {k : List Byte → Result} (h : withRegion s r k = .next t) :
    ∃ bs, Memory.readRange s.buf r.addr r.len = .ok bs ∧ bs.length = r.len ∧ k bs = .next t := by
  rcases withRegion_cases s r k with ⟨bs, h1, h2⟩ | ⟨a, -, h2, -⟩
  · exact ⟨bs, h1, Memory.readRange_length h1, h2 ▸ h⟩
  · rw [h2] at h; cases h

/-- The IV a command uses has 16 bytes (R144). -/
theorem withIv_next {ivp : Bool} {s t : State} {L : Latch} {k : List Byte → Result} (h : withIv ivp s L k = .next t) :
    ∃ iv, iv.length = 16 ∧ k iv = .next t ∧
      (if ivp then Memory.readRange s.buf L.ops.ivAddr.toNat 16 = .ok iv else iv = zeros 16) := by
  cases ivp with
  | false => exact ⟨_, by simp [Config.cipherBs], h, by simp [Config.cipherBs]⟩
  | true =>
    obtain ⟨iv, h1, h2, h3⟩ := withRegion_next (by simpa [withIv] using h)
    exact ⟨iv, by simpa [Latch.iv, Config.cipherBs] using h2, h3, by simpa [Latch.iv, Config.cipherBs] using h1⟩

/-! The primitive port -/

/-- The engine's calls with a 16-byte key (R140). -/
theorem primEnc_block (P : Primitive) (d i : Nat) (k b : Block) : primEnc P d k.val i b.val = (P.enc k b).map Subtype.val := by
  simp [primEnc, primCall, toBlock, k.2, b.2]

theorem primDec_block (P : Primitive) (d i : Nat) (k b : Block) : primDec P d k.val i b.val = (P.dec k b).map Subtype.val := by
  simp [primDec, primCall, toBlock, k.2, b.2]

theorem primCall_blockValued (f : Block → Block → Option Block) (d : Nat) (k : List Byte) :
    BlockValued fun i b => primCall f d i k b := by
  intro i b c h
  simp only [primCall] at h
  split at h <;> obtain ⟨x, -, rfl⟩ := Option.map_eq_some_iff.1 h <;> exact x.2

theorem primEnc_blockValued (P : Primitive) (d : Nat) (k : List Byte) : BlockValued (primEnc P d k) :=
  primCall_blockValued P.enc d k

theorem primDec_blockValued (P : Primitive) (d : Nat) (k : List Byte) : BlockValued (primDec P d k) :=
  primCall_blockValued P.dec d k

/-- Under PRIM_TOTAL an encryption call with a 16-byte key answers a block. -/
theorem primEnc_blockTotal {P : Primitive} (h : PrimTotal P) (d : Nat) {k : List Byte} (hk : k.length = 16) :
    BlockTotal (primEnc P d k) := fun i b hb => by
  obtain ⟨c, hc⟩ := Option.ne_none_iff_exists'.1 (h ⟨k, hk⟩ ⟨b, hb⟩)
  exact ⟨c.val, by rw [primEnc_block P d i ⟨k, hk⟩ ⟨b, hb⟩, hc]; rfl, c.2⟩

/-- Under PRIM_INV a decryption call undoes an encryption call that answered. -/
theorem primDec_of_primEnc {P : Primitive} (h : PrimInv P) {d i : Nat} (d' i' : Nat) {k b c : List Byte} (hk : k.length = 16)
    (hb : b.length = 16) (hc : primEnc P d k i b = some c) : primDec P d' k i' c = some b := by
  rw [primEnc_block P d i ⟨k, hk⟩ ⟨b, hb⟩] at hc
  obtain ⟨x, hx, rfl⟩ := Option.map_eq_some_iff.1 hc
  rw [primDec_block P d' i' ⟨k, hk⟩ x, h _ _ _ hx]
  rfl

@[simp] theorem drawnBytes_length (d n : Nat) : (drawnBytes d n).length = n := by simp [drawnBytes]

/-! What a command can do -/

/-- How command i, with latch L, can take state s to a next state. -/
inductive Completion (i : Instr) (L : Latch) (s : State) : State → Prop
  /-- a check of R225 failed: nothing is written -/
  | checked (e : ErrCode) (hv : validate s.bufBytes i L = some e) : Completion i L s (s.raise e)
  /-- a command without a window: nothing is written -/
  | reading (c : ErrCode) (o r r2 : Word) (hw : windowOf i L = none) (hv : validate s.bufBytes i L = none)
      (hc : c = .ok ∨ c = .paddingInvalid ∧ o = 0 ∧ r = 0 ∧ r2 = 0)
      (ho : o.toNat ≤ s.bufBytes) (hr : r.toNat ≤ 8 * s.bufBytes ∨ r.toNat ≤ 1) (hr2 : r2.toNat ≤ s.bufBytes) :
      Completion i L s (s.finish c o r r2)
  /-- a writing command: the window, all of it, and nothing else -/
  | writing (w : Region) (bs : List Byte) (c : ErrCode) (o : Word) (n : Nat) (hw : windowOf i L = some w)
      (hv : validate s.bufBytes i L = none) (hb : bs.length = w.len)
      (hc : c = .ok ∨ (c = .primFault ∨ c = .paddingInvalid) ∧ o = 0) (ho : o.toNat ≤ s.bufBytes) :
      Completion i L s { (s.memWrite w.addr bs).finish c o 0 0 with draws := n }

theorem word_toNat_le (n : Nat) : (word n).toNat ≤ n := by
  simp only [word, BitVec.toNat_ofNat]; exact Nat.mod_le _ _

theorem word_toNat {n : Nat} (h : n < 2 ^ 32) : (word n).toNat = n := by
  simp only [word, BitVec.toNat_ofNat]; exact Nat.mod_eq_of_lt h

/-- The end of an encryption, for a ciphertext that fills the window. -/
theorem finishEncrypt_completion {i : Instr} {L : Latch} {s : State} {w : Region} {out : Option (List Byte)}
    (hw : windowOf i L = some w) (hv : validate s.bufBytes i L = none) (ho : ∀ c, out = some c → c.length = w.len) :
    Completion i L s (finishEncrypt s w out) := by
  have hr := ((validate_eq_none.1 hv).2.2.2.2.2 w hw).1
  cases out with
  | none => exact .writing w (drawnBytes s.draws w.len) .primFault 0 (s.draws + 1) hw hv (by simp) (by simp) (by simp)
  | some c =>
    exact .writing w c .ok (word w.len) (s.draws + 1) hw hv (ho c rfl) (by simp)
      (by have := word_toNat_le w.len; simp only [inRange] at hr; omega)

/-- The end of a decryption, for a plaintext that fills the window. -/
theorem finishDecrypt_completion {i : Instr} {L : Latch} {s : State} {w : Region} {pd : Option (List Byte)}
    (hw : windowOf i L = some w) (hv : validate s.bufBytes i L = none) (ho : ∀ p, pd = some p → p.length = w.len) :
    Completion i L s (finishDecrypt s w pd) := by
  have hr := ((validate_eq_none.1 hv).2.2.2.2.2 w hw).1
  cases pd with
  | none => exact .writing w (drawnBytes s.draws w.len) .primFault 0 (s.draws + 1) hw hv (by simp) (by simp) (by simp)
  | some p =>
    simp only [finishDecrypt]
    cases hm : stripFn p Config.cipherBs with
    | none => exact .writing w (drawnBytes s.draws w.len) .paddingInvalid 0 (s.draws + 1) hw hv (by simp) (by simp) (by simp)
    | some m =>
      have h1 := stripFn_le hm
      have h2 := ho p rfl
      exact .writing w p .ok (word m) (s.draws + 1) hw hv h2 (by simp)
        (by have := word_toNat_le m; simp only [inRange] at hr; omega)

/-- The ciphertext of a padded plaintext fills its window. -/
theorem padded_blocks_length {d : List Byte} {L : Latch} (h : d.length = L.src.len) :
    16 * (blocksOf (padFn d Config.cipherBs)).length = (L.padWindow Config.cipherBs).len := by
  rw [blocksOf_length, Config.cipherBs, nblk_padFn, Latch.padWindow, paddedLen_eq_mul (by decide), h]
  simp [Latch.src]; omega

/-- The plaintext of whole ciphertext blocks fills its window. -/
theorem whole_blocks_length {c : List Byte} {L : Latch} (h : c.length = L.src.len) (h16 : L.ops.srcLen.toNat % 16 = 0) :
    16 * (blocksOf c).length = L.decWindow.len := by
  rw [blocksOf_length, nblk, Config.cipherBs, Latch.decWindow, h]
  simp [Latch.src]; omega

/-- All that a command can do when it takes a next state: nothing while the latch is empty, else one of the three ways of
`Completion`. -/
theorem execWith_next {P : Primitive} {i : Instr} {s t : State} (h : execWith P i s = .next t) :
    (s.latch = none ∧ t = s) ∨ ∃ L, s.latch = some L ∧ Completion i L s t := by
  have key : ∀ p : Latch → Result, execWith P i s = runCommand i s p →
      (∀ L, validate s.bufBytes i L = none → p L = .next t → Completion i L s t) →
      (s.latch = none ∧ t = s) ∨ ∃ L, s.latch = some L ∧ Completion i L s t := by
    intro p hp hc
    rw [hp] at h
    rcases runCommand_cases i s p with ⟨h1, h2⟩ | ⟨L, h1, ⟨e, h2, h3⟩ | ⟨h2, h3⟩⟩
    · rw [h2] at h; cases h; exact .inl ⟨h1, rfl⟩
    · rw [h3] at h; cases h; exact .inr ⟨L, h1, .checked e h2⟩
    · rw [h3] at h; exact .inr ⟨L, h1, hc L h2 h⟩
  have hin : ∀ {L : Latch} {r : Region}, validate s.bufBytes i L = none → r ∈ readsOf i L → r.len ≤ s.bufBytes := by
    intro L r hv hr
    have := (validate_eq_none.1 hv).2.2.2.2.1 r hr
    simp only [inRange] at this; omega
  cases i with
  | pad bs =>
    refine key _ rfl fun L hv hp => ?_
    obtain ⟨d, -, hd, hp⟩ := withRegion_next hp
    cases hp
    have hr := ((validate_eq_none.1 hv).2.2.2.2.2 _ rfl).1
    refine .writing (L.padWindow bs) (padFn d bs) .ok (word (paddedLen L.ops.srcLen.toNat bs)) s.draws rfl hv ?_ (by simp) ?_
    · simp [Latch.padWindow, hd, Latch.src]
    · have := word_toNat_le (paddedLen L.ops.srcLen.toNat bs)
      simp only [inRange, Latch.padWindow] at hr; omega
  | pvalid bs =>
    refine key _ rfl fun L hv hp => ?_
    obtain ⟨d, -, hd, hp⟩ := withRegion_next hp
    cases hp
    exact .reading _ _ _ _ rfl hv (by simp) (by simp) (.inr (by split <;> simp)) (by simp)
  | pstrip bs =>
    refine key _ rfl fun L hv hp => ?_
    obtain ⟨d, -, hd, hp⟩ := withRegion_next hp
    cases hp
    have := hin hv (r := L.src) (by simp [readsOf])
    cases hm : stripFn d bs with
    | none => exact .reading _ _ _ _ rfl hv (by simp) (by simp) (.inr (by simp)) (by simp)
    | some m =>
      have h1 := stripFn_le hm
      exact .reading _ _ _ _ rfl hv (by simp) (by have := word_toNat_le m; omega) (.inr (by simp)) (by simp)
  | ecbenc =>
    refine key _ rfl fun L hv hp => ?_
    obtain ⟨k, -, -, hp⟩ := withRegion_next hp
    obtain ⟨d, -, hd, hp⟩ := withRegion_next hp
    cases hp
    exact finishEncrypt_completion rfl hv fun c hc => by
      rw [ecbLoop_length (primEnc_blockValued _ _ _) hc, padded_blocks_length hd]
  | ecbdec =>
    refine key _ rfl fun L hv hp => ?_
    obtain ⟨k, -, -, hp⟩ := withRegion_next hp
    obtain ⟨c, -, hc, hp⟩ := withRegion_next hp
    cases hp
    have h16 : L.ops.srcLen.toNat % 16 = 0 := by simpa [badLength, Config.cipherBs] using (validate_eq_none.1 hv).2.2.1
    exact finishDecrypt_completion rfl hv fun p hp => by
      rw [ecbLoop_length (primDec_blockValued _ _ _) hp, whole_blocks_length hc h16]
  | cbcenc ivp =>
    refine key _ rfl fun L hv hp => ?_
    obtain ⟨k, -, -, hp⟩ := withRegion_next hp
    obtain ⟨d, -, hd, hp⟩ := withRegion_next hp
    obtain ⟨iv, hiv, hp, -⟩ := withIv_next hp
    cases hp
    exact finishEncrypt_completion rfl hv fun c hc => by
      rw [cbcEncLoop_length (primEnc_blockValued _ _ _) hc, padded_blocks_length hd]
  | cbcdec ivp =>
    refine key _ rfl fun L hv hp => ?_
    obtain ⟨k, -, -, hp⟩ := withRegion_next hp
    obtain ⟨c, -, hc, hp⟩ := withRegion_next hp
    obtain ⟨iv, hiv, hp, -⟩ := withIv_next hp
    cases hp
    have h16 : L.ops.srcLen.toNat % 16 = 0 := by simpa [badLength, Config.cipherBs] using (validate_eq_none.1 hv).2.2.1
    exact finishDecrypt_completion rfl hv fun p hp => by
      rw [cbcDecLoop_length (primDec_blockValued _ _ _) hiv (fun b hb => length_of_mem_blocksOf hb) hp,
        whole_blocks_length hc h16]
  | hamd =>
    refine key _ rfl fun L hv hp => ?_
    obtain ⟨a, -, ha, hp⟩ := withRegion_next hp
    obtain ⟨b, -, hb, hp⟩ := withRegion_next hp
    cases hp
    have h1 := hd_le a b
    have h2 := hin hv (r := L.src) (by simp [readsOf])
    have h3 := word_toNat_le (hd a b)
    exact .reading _ _ _ _ rfl hv (by simp) (by simp) (.inl (by omega)) (by simp)
  | hpair k =>
    refine key _ rfl fun L hv hp => ?_
    obtain ⟨d, -, hd, hp⟩ := withRegion_next hp
    cases hp
    have h2 := hin hv (r := L.src) (by simp [readsOf])
    have h3 := word_toNat_le (pairSum d k)
    have h4 := pairSum_le d k
    have h5 := word_toNat_le (pairCount d k)
    have h6 : pairCount d k ≤ d.length := by
      rw [pairCount_eq]; exact le_trans (Nat.sub_le _ _) (Nat.div_le_self _ _)
    exact .reading _ _ _ _ rfl hv (by simp) (by simp) (.inl (by omega)) (by omega)
  | ecbdet bs =>
    refine key _ rfl fun L hv hp => ?_
    obtain ⟨d, -, hd, hp⟩ := withRegion_next hp
    cases hp
    exact .reading _ _ _ _ rfl hv (by simp) (by simp) (.inr (by split <;> simp)) (by simp)

/-- No command is refused. -/
theorem execWith_not_refused (P : Primitive) (i : Instr) (s : State) (r : Refusal) : execWith P i s ≠ .refused r := by
  have hw : ∀ (q : Region) (k : List Byte → Result), (∀ bs, k bs ≠ .refused r) → withRegion s q k ≠ .refused r := by
    intro q k hk
    rcases withRegion_cases s q k with ⟨bs, -, h⟩ | ⟨a, -, h, -⟩ <;> rw [h]
    · exact hk bs
    · simp
  have hi : ∀ (ivp : Bool) (L : Latch) (k : List Byte → Result), (∀ bs, k bs ≠ .refused r) → withIv ivp s L k ≠ .refused r := by
    intro ivp L k hk
    cases ivp with
    | false => exact hk _
    | true => exact hw _ _ hk
  have hr : ∀ p : Latch → Result, execWith P i s = runCommand i s p → (∀ L, p L ≠ .refused r) → execWith P i s ≠ .refused r := by
    intro p hp hk
    rw [hp]
    rcases runCommand_cases i s p with ⟨-, h⟩ | ⟨L, -, ⟨e, -, h⟩ | ⟨-, h⟩⟩ <;> rw [h]
    · simp
    · simp
    · exact hk L
  cases i with
  | pad bs => exact hr _ rfl fun L => hw _ _ fun d => by simp
  | pvalid bs => exact hr _ rfl fun L => hw _ _ fun d => by simp
  | pstrip bs => exact hr _ rfl fun L => hw _ _ fun d => by simp
  | ecbenc => exact hr _ rfl fun L => hw _ _ fun k => hw _ _ fun d => by simp
  | ecbdec => exact hr _ rfl fun L => hw _ _ fun k => hw _ _ fun d => by simp
  | cbcenc ivp => exact hr _ rfl fun L => hw _ _ fun k => hw _ _ fun d => hi _ _ _ fun iv => by simp
  | cbcdec ivp => exact hr _ rfl fun L => hw _ _ fun k => hw _ _ fun d => hi _ _ _ fun iv => by simp
  | hamd => exact hr _ rfl fun L => hw _ _ fun a => hw _ _ fun b => by simp
  | hpair k => exact hr _ rfl fun L => hw _ _ fun d => by simp
  | ecbdet bs => exact hr _ rfl fun L => hw _ _ fun d => by simp

/-- A command that faults has read a byte without a value, in a region it reads and within the buffer (I1). -/
theorem execWith_fault {P : Primitive} {i : Instr} {s : State} {f : Fault} (h : execWith P i s = .fault f) :
    ∃ L r a, s.latch = some L ∧ validate s.bufBytes i L = none ∧ r ∈ readsOf i L ∧ f = .unwrittenByte a ∧
      r.addr ≤ a ∧ a < r.addr + r.len ∧ a < s.bufBytes ∧ Memory.get s.buf a = none := by
  have hw : ∀ {L : Latch} {q : Region} {k : List Byte → Result}, validate s.bufBytes i L = none → q ∈ readsOf i L →
      withRegion s q k = .fault f →
      (∃ r a, r ∈ readsOf i L ∧ f = .unwrittenByte a ∧ r.addr ≤ a ∧ a < r.addr + r.len ∧ a < s.bufBytes ∧
        Memory.get s.buf a = none) ∨ ∃ bs, k bs = .fault f := by
    intro L q k hv hq hk
    rcases withRegion_cases s q k with ⟨bs, -, h'⟩ | ⟨a, -, h', h1, h2, h3⟩
    · exact .inr ⟨bs, h' ▸ hk⟩
    · have := (validate_eq_none.1 hv).2.2.2.2.1 q hq
      rw [h'] at hk
      cases hk
      exact .inl ⟨q, a, hq, rfl, h1, h2, by simp only [inRange] at this; omega, h3⟩
  have hi : ∀ {ivp : Bool} {L : Latch} {k : List Byte → Result}, validate s.bufBytes i L = none →
      (ivp = true → L.iv ∈ readsOf i L) → withIv ivp s L k = .fault f →
      (∃ r a, r ∈ readsOf i L ∧ f = .unwrittenByte a ∧ r.addr ≤ a ∧ a < r.addr + r.len ∧ a < s.bufBytes ∧
        Memory.get s.buf a = none) ∨ ∃ bs, k bs = .fault f := by
    intro ivp L k hv hm hk
    cases ivp with
    | false => exact .inr ⟨_, hk⟩
    | true => exact hw hv (hm rfl) hk
  have key : ∀ p : Latch → Result, execWith P i s = runCommand i s p →
      (∀ L, validate s.bufBytes i L = none → p L = .fault f →
        ∃ r a, r ∈ readsOf i L ∧ f = .unwrittenByte a ∧ r.addr ≤ a ∧ a < r.addr + r.len ∧ a < s.bufBytes ∧
          Memory.get s.buf a = none) →
      ∃ L r a, s.latch = some L ∧ validate s.bufBytes i L = none ∧ r ∈ readsOf i L ∧ f = .unwrittenByte a ∧
        r.addr ≤ a ∧ a < r.addr + r.len ∧ a < s.bufBytes ∧ Memory.get s.buf a = none := by
    intro p hp hc
    rw [hp] at h
    rcases runCommand_cases i s p with ⟨-, h2⟩ | ⟨L, h1, ⟨e, -, h3⟩ | ⟨h2, h3⟩⟩
    · rw [h2] at h; cases h
    · rw [h3] at h; cases h
    · obtain ⟨r, a, h4⟩ := hc L h2 (h3 ▸ h)
      exact ⟨L, r, a, h1, h2, h4⟩
  cases i with
  | pad bs => exact key _ rfl fun L hv hp => (hw hv (by simp [readsOf]) hp).elim id fun h => absurd h (by simp)
  | pvalid bs => exact key _ rfl fun L hv hp => (hw hv (by simp [readsOf]) hp).elim id fun h => absurd h (by simp)
  | pstrip bs => exact key _ rfl fun L hv hp => (hw hv (by simp [readsOf]) hp).elim id fun h => absurd h (by simp)
  | hpair k => exact key _ rfl fun L hv hp => (hw hv (by simp [readsOf]) hp).elim id fun h => absurd h (by simp)
  | ecbdet bs => exact key _ rfl fun L hv hp => (hw hv (by simp [readsOf]) hp).elim id fun h => absurd h (by simp)
  | hamd =>
    exact key _ rfl fun L hv hp => (hw hv (by simp [readsOf]) hp).elim id fun ⟨a, h⟩ =>
      (hw hv (by simp [readsOf]) h).elim id fun h => absurd h (by simp)
  | ecbenc =>
    exact key _ rfl fun L hv hp => (hw hv (by simp [readsOf]) hp).elim id fun ⟨a, h⟩ =>
      (hw hv (by simp [readsOf]) h).elim id fun h => absurd h (by simp)
  | ecbdec =>
    exact key _ rfl fun L hv hp => (hw hv (by simp [readsOf]) hp).elim id fun ⟨a, h⟩ =>
      (hw hv (by simp [readsOf]) h).elim id fun h => absurd h (by simp)
  | cbcenc ivp =>
    exact key _ rfl fun L hv hp => (hw hv (by simp [readsOf]) hp).elim id fun ⟨a, h⟩ =>
      (hw hv (by simp [readsOf]) h).elim id fun ⟨b, h⟩ =>
        (hi hv (by rintro rfl; simp [readsOf, ivReads]) h).elim id fun h => absurd h (by simp)
  | cbcdec ivp =>
    exact key _ rfl fun L hv hp => (hw hv (by simp [readsOf]) hp).elim id fun ⟨a, h⟩ =>
      (hw hv (by simp [readsOf]) h).elim id fun ⟨b, h⟩ =>
        (hi hv (by rintro rfl; simp [readsOf, ivReads]) h).elim id fun h => absurd h (by simp)

/-! This machine: the primitive is `Config.primitive` -/

theorem exec_eq (i : Instr) (s : State) : exec i s = execWith Config.primitive i s := by cases i <;> rfl

theorem exec_next {i : Instr} {s t : State} (h : exec i s = .next t) :
    (s.latch = none ∧ t = s) ∨ ∃ L, s.latch = some L ∧ Completion i L s t := execWith_next (exec_eq i s ▸ h)

theorem exec_not_refused (i : Instr) (s : State) (r : Refusal) : exec i s ≠ .refused r :=
  exec_eq i s ▸ execWith_not_refused Config.primitive i s r

theorem exec_fault {i : Instr} {s : State} {f : Fault} (h : exec i s = .fault f) :
    ∃ L r a, s.latch = some L ∧ validate s.bufBytes i L = none ∧ r ∈ readsOf i L ∧ f = .unwrittenByte a ∧
      r.addr ≤ a ∧ a < r.addr + r.len ∧ a < s.bufBytes ∧ Memory.get s.buf a = none := execWith_fault (exec_eq i s ▸ h)

end Sys2Proof.Machine
end

