-- ==== Sys2Proof/Laws/PerInstr.lean ====
section
/-!
SUPPORT. The per-instruction family `EncodeFields`: what each field of a command's encoded word holds (30_encoding.md R91 to R95).
-/

namespace Sys2Proof.Laws

/-- A word with OPC, IVP and BS in their places, as `encode` builds it. -/
def fieldWord (opc : Nat) (ivp : Bool) (n : Nat) : Word :=
  BitVec.ofNat 32 opc ||| (if ivp then 0x00000100#32 else 0#32) ||| (BitVec.ofNat 32 (n % 256) <<< 16)

theorem fieldWord_opc {opc : Nat} (ho : opc < 32) (ivp : Bool) (n : Nat) : opcField (fieldWord opc ivp n) = opc := by
  unfold opcField fieldWord
  rw [BitVec.extractLsb'_or, BitVec.extractLsb'_or]
  have h1 : ((BitVec.ofNat 32 (n % 256)) <<< 16).extractLsb' 0 5 = 0 := by ext i hi; simp; omega
  have h2 : (if ivp then 0x00000100#32 else 0#32).extractLsb' 0 5 = 0 := by cases ivp <;> decide
  rw [h1, h2]
  simp; omega

theorem fieldWord_ivp {opc : Nat} (ho : opc < 32) (ivp : Bool) (n : Nat) : ivpFieldOf (fieldWord opc ivp n) = ivp := by
  unfold ivpFieldOf fieldWord
  have h1 : (BitVec.ofNat 32 opc)[8] = false := by interval_cases opc <;> rfl
  cases ivp <;> simp [h1]

theorem fieldWord_bs {opc : Nat} (ho : opc < 32) (ivp : Bool) {n : Nat} (hn : n ≤ 255) : bsFieldOf (fieldWord opc ivp n) = n := by
  unfold bsFieldOf fieldWord
  rw [BitVec.extractLsb'_or, BitVec.extractLsb'_or]
  have h1 : (BitVec.ofNat 32 opc).extractLsb' 16 8 = 0 := by interval_cases opc <;> rfl
  have h2 : (if ivp then 0x00000100#32 else 0#32).extractLsb' 16 8 = 0 := by cases ivp <;> decide
  have h3 : ((BitVec.ofNat 32 (n % 256)) <<< 16).extractLsb' 16 8 = BitVec.ofNat 8 n := by
    apply BitVec.eq_of_toNat_eq
    simp [BitVec.extractLsb'_toNat, Nat.shiftLeft_eq, Nat.shiftRight_eq_div_pow]
    omega
  rw [h1, h2, h3]
  simp; omega

/-- Z1 (bits 7:5), Z2 (bits 15:9) and Z3 (bits 31:24) are 0. -/
theorem fieldWord_reserved {opc : Nat} (ho : opc < 32) (ivp : Bool) (n : Nat) : fieldWord opc ivp n &&& 0xFF00FEE0#32 = 0 := by
  have h1 : BitVec.ofNat 32 opc &&& 0xFF00FEE0#32 = 0 := by interval_cases opc <;> rfl
  have h2 : (if ivp then 0x00000100#32 else 0#32) &&& 0xFF00FEE0#32 = 0 := by cases ivp <;> decide
  have h3 : (BitVec.ofNat 32 (n % 256)) <<< 16 &&& 0xFF00FEE0#32 = 0 := by
    have h : ∀ j, 8 ≤ j → (BitVec.ofNat 32 (n % 256)).getLsbD j = false := by
      intro j hj
      have h8 : n % 256 < 2 ^ j := lt_of_lt_of_le (Nat.mod_lt n (by decide : 0 < 256)) (Nat.pow_le_pow_right (by decide : 0 < 2) hj)
      simp only [BitVec.getLsbD_ofNat, Nat.testBit_lt_two_pow h8, Bool.and_false]
    have hm : ∀ j, 16 ≤ j → j < 24 → (0xFF00FEE0#32).getLsbD j = false := by decide
    ext i hi
    simp only [← BitVec.getLsbD_eq_getElem, BitVec.getLsbD_and, BitVec.getLsbD_shiftLeft]
    by_cases h1 : i < 16
    · simp [h1]
    by_cases h3 : i < 24
    · rw [hm i (by omega) h3]; simp
    · rw [h (i - 16) (by omega)]; simp
  unfold fieldWord
  rw [BitVec.and_comm, BitVec.and_or_distrib_left, BitVec.and_or_distrib_left, BitVec.and_comm, h1, BitVec.and_comm, h2,
    BitVec.and_comm, h3]
  rfl

/-- The word of a well-formed command holds its OPC, its IVP and its BS in their fields, and every other bit is 0. -/
def EncodeFields.Statement (i : Instr) : Prop :=
  i.WellFormed →
    opcField (encode i) = opcodeOf i ∧ ivpFieldOf (encode i) = ivpOf i ∧ bsFieldOf (encode i) = i.bsField ∧
      encode i &&& 0xFF00FEE0#32 = 0

/-- Every lemma of the family, from the OPC being below 32. -/
theorem encodeFields_of_opcode {i : Instr} (ho : opcodeOf i < 32) : EncodeFields.Statement i := fun h =>
  ⟨fieldWord_opc ho _ _, fieldWord_ivp ho _ _, fieldWord_bs ho _ h, fieldWord_reserved ho _ _⟩

theorem EncodeFields.pad (bs : Nat) : EncodeFields.Statement (.pad bs) := encodeFields_of_opcode (by simp [opcodeOf])

theorem EncodeFields.pvalid (bs : Nat) : EncodeFields.Statement (.pvalid bs) := encodeFields_of_opcode (by simp [opcodeOf])

theorem EncodeFields.pstrip (bs : Nat) : EncodeFields.Statement (.pstrip bs) := encodeFields_of_opcode (by simp [opcodeOf])

theorem EncodeFields.ecbenc : EncodeFields.Statement .ecbenc := encodeFields_of_opcode (by simp [opcodeOf])

theorem EncodeFields.ecbdec : EncodeFields.Statement .ecbdec := encodeFields_of_opcode (by simp [opcodeOf])

theorem EncodeFields.cbcenc (ivp : Bool) : EncodeFields.Statement (.cbcenc ivp) := encodeFields_of_opcode (by simp [opcodeOf])

theorem EncodeFields.cbcdec (ivp : Bool) : EncodeFields.Statement (.cbcdec ivp) := encodeFields_of_opcode (by simp [opcodeOf])

theorem EncodeFields.hamd : EncodeFields.Statement .hamd := encodeFields_of_opcode (by simp [opcodeOf])

theorem EncodeFields.hpair (k : Nat) : EncodeFields.Statement (.hpair k) := encodeFields_of_opcode (by simp [opcodeOf])

theorem EncodeFields.ecbdet (bs : Nat) : EncodeFields.Statement (.ecbdet bs) := encodeFields_of_opcode (by simp [opcodeOf])

end Sys2Proof.Laws
end

