-- ==== Sys2Proof/Laws/Step.lean ====
section
/-!
SUPPORT. The register port's map as one chain of offsets, what a register write and a host access can do, and `step_next`, the
inversion of a step.
-/

namespace Sys2Proof.Machine

/-! The register port -/

/-- The register map (R21) as a chain of offsets. -/
theorem regAt_eq (off : BitVec 12) :
    regAt off =
      if off = 0x000#12 then some .id else if off = 0x004#12 then some .param else if off = 0x008#12 then some .bufSize
      else if off = 0x00C#12 then some .ctrl else if off = 0x010#12 then some .status else if off = 0x014#12 then some .cmd
      else if off = 0x018#12 then some .err else if off = 0x01C#12 then some .outLen else if off = 0x020#12 then some .result
      else if off = 0x024#12 then some .result2 else if off = 0x028#12 then some .srcAddr
      else if off = 0x02C#12 then some .srcLen else if off = 0x030#12 then some .src2Addr
      else if off = 0x034#12 then some .src2Len else if off = 0x038#12 then some .keyAddr
      else if off = 0x03C#12 then some .keyLen else if off = 0x040#12 then some .ivAddr
      else if off = 0x044#12 then some .ivLen else if off = 0x048#12 then some .dstAddr else none := by
  have h : ∀ n, n < 4096 → (off = BitVec.ofNat 12 n ↔ (off.toNat == n) = true) := fun n hn => by
    rw [beq_iff_eq, ← BitVec.toNat_inj, BitVec.toNat_ofNat, Nat.mod_eq_of_lt hn]
  have hl : ∀ (n k : Nat) (r : Reg) (l : List (Nat × Reg)),
      List.lookup n ((k, r) :: l) = if (n == k) = true then some r else List.lookup n l := fun n k r l => by
    rw [List.lookup_cons]; cases n == k <;> rfl
  simp only [regAt, registerMap, hl, List.lookup_nil, h 0x000, h 0x004, h 0x008, h 0x00C, h 0x010, h 0x014, h 0x018, h 0x01C, h 0x020,
    h 0x024, h 0x028, h 0x02C, h 0x030, h 0x034, h 0x038, h 0x03C, h 0x040, h 0x044, h 0x048, Nat.reduceLT]

theorem elim_ite {α : Type} {c : Prop} [Decidable c] (a b : Option Reg) (x : α) (f : Reg → α) :
    (if c then a else b).elim x f = if c then a.elim x f else b.elim x f := by split <;> rfl

/-- A register read as the map's choice, so that `regAt_eq` and `elim_ite` give it offset by offset. -/
theorem regRead_eq_elim (s : State) (off : BitVec 12) : regRead s off = (regAt off).elim 0 (readReg s) := by
  unfold regRead; cases regAt off <;> rfl

/-- A register write as the map's choice. -/
theorem regWrite_eq_elim (s : State) (off : BitVec 12) (v : Word) : regWrite s off v = (regAt off).elim s (writeReg s v) := by
  unfold regWrite; cases regAt off <;> rfl

theorem flagWord_eq (b : Bool) : flagWord b = BitVec.ofNat 32 b.toNat := by cases b <;> rfl

/-- STATUS as a number (R26 to R28). -/
theorem statusWord_eq (s : State) :
    s.statusWord = BitVec.ofNat 32 (4 * s.ovr.toNat + 2 * s.done.toNat + s.busy.toNat) := by
  unfold State.statusWord
  cases s.busy <;> cases s.done <;> cases s.ovr <;> decide

theorem writeStatus_eq (s : State) (v : Word) :
    s.writeStatus v = { s with done := s.done && !v.getLsbD 1, ovr := s.ovr && !v.getLsbD 2 } := by
  cases s
  simp only [State.writeStatus, State.clearDone]
  cases v.getLsbD 1 <;> cases v.getLsbD 2 <;> simp

theorem writeCmd_of_idle {s : State} (h : s.busy = false) (w : Word) : s.writeCmd w = s.accept w := by simp [State.writeCmd, h]

theorem writeCmd_of_busy {s : State} (h : s.busy = true) (w : Word) : s.writeCmd w = { s with ovr := true } := by
  simp [State.writeCmd, h]

theorem mem_of_lookup {n : Nat} {r : Reg} {l : List (Nat × Reg)} (h : l.lookup n = some r) : (n, r) ∈ l := by
  induction l with
  | nil => simp at h
  | cons e l ih =>
    obtain ⟨k, q⟩ := e
    rw [List.lookup_cons] at h
    cases hk : n == k with
    | true =>
      rw [hk] at h
      simp only [Option.some.injEq] at h
      rw [beq_iff_eq.1 hk, h]
      exact List.mem_cons_self ..
    | false => rw [hk] at h; exact List.mem_cons_of_mem _ (ih h)

/-- Which offset CTRL, STATUS and CMD have (R21). -/
theorem offset_of_regAt {off : BitVec 12} {r : Reg} (h : regAt off = some r) :
    (r = .ctrl → off = 0x00C#12) ∧ (r = .status → off = 0x010#12) ∧ (r = .cmd → off = 0x014#12) := by
  have hm := mem_of_lookup h
  refine ⟨?_, ?_, ?_⟩ <;> rintro rfl <;> apply BitVec.eq_of_toNat_eq <;> simpa [registerMap] using hm

/-- All that a register write can do (R20, R61). -/
theorem regWrite_cases (s : State) (off : BitVec 12) (v : Word) :
    regWrite s off v = s ∨ (off = 0x00C#12 ∧ regWrite s off v = s.writeCtrl v) ∨
    (off = 0x010#12 ∧ regWrite s off v = s.writeStatus v) ∨ (off = 0x014#12 ∧ regWrite s off v = s.writeCmd v) ∨
    ∃ o, regWrite s off v = { s with ops := o } := by
  unfold regWrite
  cases hr : regAt off with
  | none => exact .inl rfl
  | some r =>
    obtain ⟨h1, h2, h3⟩ := offset_of_regAt hr
    cases r with
    | ctrl => exact .inr (.inl ⟨h1 rfl, rfl⟩)
    | status => exact .inr (.inr (.inl ⟨h2 rfl, rfl⟩))
    | cmd => exact .inr (.inr (.inr (.inl ⟨h3 rfl, rfl⟩)))
    | id => exact .inl rfl
    | param => exact .inl rfl
    | bufSize => exact .inl rfl
    | err => exact .inl rfl
    | outLen => exact .inl rfl
    | result => exact .inl rfl
    | result2 => exact .inl rfl
    | srcAddr => exact .inr (.inr (.inr (.inr ⟨_, rfl⟩)))
    | srcLen => exact .inr (.inr (.inr (.inr ⟨_, rfl⟩)))
    | src2Addr => exact .inr (.inr (.inr (.inr ⟨_, rfl⟩)))
    | src2Len => exact .inr (.inr (.inr (.inr ⟨_, rfl⟩)))
    | keyAddr => exact .inr (.inr (.inr (.inr ⟨_, rfl⟩)))
    | keyLen => exact .inr (.inr (.inr (.inr ⟨_, rfl⟩)))
    | ivAddr => exact .inr (.inr (.inr (.inr ⟨_, rfl⟩)))
    | ivLen => exact .inr (.inr (.inr (.inr ⟨_, rfl⟩)))
    | dstAddr => exact .inr (.inr (.inr (.inr ⟨_, rfl⟩)))

/-! The host's accesses -/

/-- A write that the buffer port takes (R66). -/
inductive BufferWrite (s : State) : State → Prop
  | outside : BufferWrite s s
  | inside (a : Nat) (bs : List Byte) (h : a + bs.length ≤ s.bufBytes) : BufferWrite s (s.memWrite a bs)

theorem bufWrite_cases (s : State) (a : Nat) (bs : List Byte) : BufferWrite s (bufWrite s a bs) := by
  unfold bufWrite
  split
  · rename_i h; exact .inside a bs h
  · exact .outside

/-- All that a host access can do when it takes a next state: return a value, write a register, or write the buffer. -/
theorem hostAccess_next {op : HostOp} {s t : State} (h : hostAccess op s = .next t) :
    (∃ v, t = s.respond v) ∨ (∃ off v, op = .regWrite .w32 off v ∧ t = regWrite s off v) ∨ BufferWrite s t := by
  have hb : ∀ a n, bufRead s a n = .next t → ∃ v, t = s.respond v := by
    intro a n h
    unfold bufRead at h
    split at h
    · obtain ⟨bs, -, -, h⟩ := withRegion_next h
      cases h; exact ⟨_, rfl⟩
    · cases h; exact ⟨_, rfl⟩
  unfold hostAccess at h
  split at h
  · split at h <;> cases h; exact .inl ⟨_, rfl⟩
  · cases h
  · cases h
  · split at h <;> cases h; exact .inr (.inl ⟨_, _, rfl, rfl⟩)
  · cases h
  · cases h
  · exact .inl (hb _ _ h)
  · cases h
  · split at h
    · exact .inl (hb _ _ h)
    · cases h
  · cases h; exact .inr (.inr (bufWrite_cases ..))
  · cases h
  · split at h
    · cases h; exact .inr (.inr (bufWrite_cases ..))
    · cases h

/-- A host access faults only at a byte of the buffer that holds no value (I1). -/
theorem hostAccess_fault {op : HostOp} {s : State} {f : Fault} (h : hostAccess op s = .fault f) :
    ∃ a, f = .unwrittenByte a ∧ a < s.bufBytes ∧ Memory.get s.buf a = none := by
  have hb : ∀ a n, bufRead s a n = .fault f → ∃ a, f = .unwrittenByte a ∧ a < s.bufBytes ∧ Memory.get s.buf a = none := by
    intro a n h
    unfold bufRead at h
    split at h
    · rcases withRegion_cases s ⟨a, n⟩ (fun bs => .next (s.respond (wordOfBytes bs))) with ⟨bs, -, h'⟩ | ⟨x, -, h', h1, h2, h3⟩
      · rw [h'] at h; cases h
      · rw [h'] at h; cases h; exact ⟨x, rfl, by simp only at h2; omega, h3⟩
    · cases h
  unfold hostAccess at h
  split at h
  · split at h <;> cases h
  · cases h
  · cases h
  · split at h <;> cases h
  · cases h
  · cases h
  · exact hb _ _ h
  · cases h
  · split at h
    · exact hb _ _ h
    · cases h
  · cases h
  · cases h
  · split at h <;> cases h

/-! Steps -/

/-- All that the engine's turn can do (R240). -/
theorem engineStep_next {s t : State} (h : engineStep s = .next t) :
    (s.latch = none ∧ t = s) ∨ ∃ L, s.latch = some L ∧
      (t = s.raise .illegalCommand ∨ ∃ i, decode L.cmd = .ok i ∧ Completion i L s t) := by
  unfold engineStep engineStepWith at h
  split at h
  · rename_i hl; cases h; exact .inl ⟨hl, rfl⟩
  · rename_i L hl
    refine .inr ⟨L, hl, ?_⟩
    split at h
    · cases h; exact .inl rfl
    · rename_i i hi
      rcases exec_next h with ⟨h1, -⟩ | ⟨L', h1, h2⟩
      · rw [hl] at h1; cases h1
      · rw [hl] at h1; cases h1; exact .inr ⟨i, hi, h2⟩

/-- All that a step can do: the engine's turn, with or without a turn used up; a reset; or a host access that does not wait. -/
theorem step_next {s t : State} (h : step s = .next t) :
    ((s.agenda = [] ∨ ∃ op rest, s.agenda = .host op :: rest ∧ stalls op s = true) ∧ engineStep s = .next t) ∨
    (∃ rest, s.agenda = .engine :: rest ∧ engineStep s.popTurn = .next t) ∨
    (∃ rest, s.agenda = .reset :: rest ∧ t = s.popTurn.afterReset) ∨
    ∃ op rest, s.agenda = .host op :: rest ∧ stalls op s = false ∧ hostAccess op s.popTurn = .next t := by
  unfold step agentStep agentStepWith at h
  split at h
  · rename_i ha; exact .inl ⟨.inl ha, h⟩
  · rename_i rest ha; exact .inr (.inl ⟨rest, ha, h⟩)
  · rename_i rest ha; cases h; exact .inr (.inr (.inl ⟨rest, ha, rfl⟩))
  · rename_i op rest ha
    split at h
    · rename_i hs; exact .inl ⟨.inr ⟨op, rest, ha, hs⟩, h⟩
    · rename_i hs; exact .inr (.inr (.inr ⟨op, rest, ha, by simpa using hs, h⟩))

theorem step_of_reset {s : State} {rest : List Event} (h : s.agenda = .reset :: rest) :
    step s = .next s.popTurn.afterReset := by simp [step, agentStep, agentStepWith, h]

theorem step_of_idle {s : State} (h : s.agenda = []) : step s = engineStep s := by simp [step, agentStep, agentStepWith, engineStep, h]

theorem step_of_engine {s : State} {rest : List Event} (h : s.agenda = .engine :: rest) :
    step s = engineStep { s with agenda := rest } := by simp [step, agentStep, agentStepWith, engineStep, h, State.popTurn]

theorem step_of_host {s : State} {op : HostOp} {rest : List Event} (h : s.agenda = .host op :: rest)
    (hs : stalls op s = false) : step s = hostAccess op { s with agenda := rest } := by
  simp [step, agentStep, agentStepWith, h, hs, State.popTurn]

theorem step_of_stall {s : State} {op : HostOp} {rest : List Event} (h : s.agenda = .host op :: rest)
    (hs : stalls op s = true) : step s = engineStep s := by simp [step, agentStep, agentStepWith, engineStep, h, hs]

/-- A 32-bit register write at an aligned offset. -/
theorem step_of_regWrite {s : State} {off : BitVec 12} {v : Word} {rest : List Event}
    (h : s.agenda = .host (.regWrite .w32 off v) :: rest) (h4 : off.toNat % 4 = 0) :
    step s = .next (regWrite { s with agenda := rest } off v) := by
  rw [step_of_host h rfl, hostAccess, if_pos h4]

/-- A 32-bit register read at an aligned offset. -/
theorem step_of_regRead {s : State} {off : BitVec 12} {rest : List Event}
    (h : s.agenda = .host (.regRead .w32 off) :: rest) (h4 : off.toNat % 4 = 0) :
    step s = .next (State.respond { s with agenda := rest } (regRead { s with agenda := rest } off)) := by
  rw [step_of_host h rfl, hostAccess, if_pos h4]

theorem engineStep_of_latch {s : State} {L : Latch} {i : Instr} (hl : s.latch = some L) (hd : decode L.cmd = .ok i) :
    engineStep s = exec i s := by simp [engineStep, engineStepWith, hl, hd]

theorem engineStep_of_illegal {s : State} {L : Latch} {e : DecodeError} (hl : s.latch = some L) (hd : decode L.cmd = .error e) :
    engineStep s = .next (s.raise .illegalCommand) := by simp [engineStep, engineStepWith, hl, hd]

end Sys2Proof.Machine
end

