-- ==== Sys2Proof/Tests/Slice0.lean ====
section
/-!
SUPPORT. Tests, with expected results from spec/ (30_encoding.md R103 and spec/95_test_vectors.md, whose vector each test names),
and a witness for every statement that has hypotheses.
-/

namespace Sys2Proof.Tests

open Sys2Proof.Machine

/-! Helpers -/

/-- "ICE ICE BABY", ICE12 of 95_test_vectors.md. -/
def ice : List Byte := [0x49, 0x43, 0x45, 0x20, 0x49, 0x43, 0x45, 0x20, 0x42, 0x41, 0x42, 0x59]

/-- "YELLOW SUBMARINE", YS of 95_test_vectors.md. -/
def ys : List Byte := [0x59, 0x45, 0x4C, 0x4C, 0x4F, 0x57, 0x20, 0x53, 0x55, 0x42, 0x4D, 0x41, 0x52, 0x49, 0x4E, 0x45]

/-- The bytes b, b + 1, ... : K is `run16 0`, IVA is `run16 0xA0`. -/
def run16 (b : Nat) : List Byte := (List.range 16).map fun i => BitVec.ofNat 8 (b + i)

/-- "this is a test". -/
def thisTest : List Byte := [0x74, 0x68, 0x69, 0x73, 0x20, 0x69, 0x73, 0x20, 0x61, 0x20, 0x74, 0x65, 0x73, 0x74]

/-- "wokka wokka!!!". -/
def wokka : List Byte := [0x77, 0x6F, 0x6B, 0x6B, 0x61, 0x20, 0x77, 0x6F, 0x6B, 0x6B, 0x61, 0x21, 0x21, 0x21]

/-- SRC at 0x0000, SRC2 and KEY at 0x0100, IV at 0x0200, DST at 0x1000, as 95_test_vectors.md places them. -/
def operands (src src2 key : Nat) : Operands :=
  ⟨0x0000, word src, 0x0100, word src2, 0x0100, word key, 0x0200, 16, 0x1000⟩

/-- A command in flight over a buffer and operands. -/
def inFlight (w : Word) (o : Operands) (m : Memory) : State :=
  { State.reset with busy := true, cmdLast := w, latch := some ⟨w, o⟩, ops := o, buf := m }

/-- A command in flight over SRC alone. -/
def onSrc (w : Word) (d : List Byte) : State := inFlight w (operands d.length 0 0) (Memory.writeRange [] 0 d)

/-- The completion registers after a step. -/
def completion : Result → Option (ErrCode × Word × Word × Word)
  | .next t => some (t.err, t.outLen, t.result, t.result2)
  | .fault _ => none
  | .refused _ => none

/-- The bytes of a region after a step. -/
def bytesAfter (r : Result) (a n : Nat) : Option (List Byte) :=
  match r with
  | .next t =>
    match Memory.readRange t.buf a n with
    | .ok bs => some bs
    | .error _ => none
  | .fault _ => none
  | .refused _ => none

/-- What the last host read returned. -/
def answer : Result → Option Word
  | .next t => t.responses.head?
  | .fault _ => none
  | .refused _ => none

/-- A machine whose next turn is a host access. -/
def hosted (s : State) (op : HostOp) : State := { s with agenda := [.host op] }

/-- XPRIM of 95_test_vectors.md on 16-byte keys. -/
def xprim : Primitive :=
  ⟨fun k b => some ⟨xorBytes b.val k.val, by simp [k.2, b.2]⟩, fun k b => some ⟨xorBytes b.val k.val, by simp [k.2, b.2]⟩⟩

/-- A primitive that faults on every block. -/
def faulty : Primitive := ⟨fun _ _ => none, fun _ _ => none⟩

/-- XPRIM meets PRIM_TOTAL and PRIM_INV (92_eei_decisions.md D42). -/
theorem xprim_contract : PrimTotal xprim ∧ PrimInv xprim := by
  refine ⟨fun k b => by simp [xprim], fun k b c h => ?_⟩
  cases h
  exact congrArg some (Subtype.ext (xorBytes_cancel (by rw [b.2, k.2])))

/-- A mode command in flight: SRC as given, KEY = K, IV = IVA. -/
def onMode (w : Word) (d : List Byte) : State :=
  inFlight w (operands d.length 0 16)
    (Memory.writeRange (Memory.writeRange (Memory.writeRange [] 0 d) 0x100 (run16 0)) 0x200 (run16 0xA0))

/-! Well-formedness: one ill-formed term a check -/

theorem test_wellFormed_pad : Instr.WellFormed (.pad 255) ∧ ¬ Instr.WellFormed (.pad 256) := by decide
theorem test_wellFormed_pvalid : Instr.WellFormed (.pvalid 0) ∧ ¬ Instr.WellFormed (.pvalid 256) := by decide
theorem test_wellFormed_pstrip : Instr.WellFormed (.pstrip 255) ∧ ¬ Instr.WellFormed (.pstrip 1000) := by decide
theorem test_wellFormed_hpair : Instr.WellFormed (.hpair 255) ∧ ¬ Instr.WellFormed (.hpair 256) := by decide
theorem test_wellFormed_ecbdet : Instr.WellFormed (.ecbdet 16) ∧ ¬ Instr.WellFormed (.ecbdet 256) := by decide
theorem test_wellFormed_unimmediate :
    Instr.WellFormed .ecbenc ∧ Instr.WellFormed (.cbcenc true) ∧ Instr.WellFormed .hamd := by decide

/-! Decoding: each word is written out from R91 and R96, bits 31:24, BS, bits 15:9, IVP, bits 7:5, OPC -/

theorem test_decode_pad : decode 0b00000000000100000000000000000001#32 = .ok (.pad 16) := by rfl
theorem test_decode_pvalid : decode 0b00000000000100000000000000000010#32 = .ok (.pvalid 16) := by rfl
theorem test_decode_pstrip : decode 0b00000000000010000000000000000011#32 = .ok (.pstrip 8) := by rfl
theorem test_decode_ecbenc : decode 0b00000000000000000000000000000100#32 = .ok .ecbenc := by rfl
theorem test_decode_ecbdec : decode 0b00000000000000000000000000000101#32 = .ok .ecbdec := by rfl
theorem test_decode_cbcenc :
    decode 0b00000000000000000000000000000110#32 = .ok (.cbcenc false) ∧
    decode 0b00000000000000000000000100000110#32 = .ok (.cbcenc true) := ⟨rfl, rfl⟩
theorem test_decode_cbcdec :
    decode 0b00000000000000000000000000000111#32 = .ok (.cbcdec false) ∧
    decode 0b00000000000000000000000100000111#32 = .ok (.cbcdec true) := ⟨rfl, rfl⟩
theorem test_decode_hamd : decode 0b00000000000000000000000000001000#32 = .ok .hamd := by rfl
theorem test_decode_hpair : decode 0b00000000111111110000000000001001#32 = .ok (.hpair 255) := by rfl
theorem test_decode_ecbdet : decode 0b00000000111111110000000000001010#32 = .ok (.ecbdet 255) := by rfl

/-- EN2 to EN6, EN9 to EN12, EN16. -/
theorem test_decode_illegal :
    [0x01100001#32, 0x00100201#32, 0x00100021#32, 0x00000000#32, 0x0000001F#32, 0x00010006#32, 0x00000108#32,
      0x80000008#32, 0x0000010A#32, 0x00000105#32].all (fun w => (decodeTableWord 32 w.toNat).isNone) = true := by decide

theorem test_encode : encode (.hpair 5) = 0x00050009#32 ∧ encode (.cbcdec true) = 0x00000107#32 := by decide

theorem test_decodeTableWord : decodeTableWord 32 0x00140001 = some (.pad 20) ∧ decodeTableWord 32 0x0B = none := by decide

/-- The placed command runs at once from reset: BS = 0 ends in INVALID_BLOCK_SIZE (EN14, R225). -/
theorem test_withFetchWord :
    completion (step (State.reset.withFetchWord 32 0x00000003)) = some (.invalidBlockSize, 0, 0, 0) := by decide

/-! PAD, PVALID, PSTRIP -/

/-- PD7 and PD4. -/
theorem test_pad :
    bytesAfter (exec (.pad 4) (onSrc 0x00040001 [0x61, 0x62])) 0x1000 4 = some [0x61, 0x62, 0x02, 0x02] ∧
    completion (exec (.pad 1) (onSrc 0x00010001 [0x61, 0x62, 0x63])) = some (.ok, 4, 0, 0) := by decide

/-- PD1 and PD9: an empty SRC is padded by a whole block; a window over the end is RANGE. -/
theorem test_pad_corners :
    bytesAfter (exec (.pad 16) (onSrc 0x00100001 [])) 0x1000 16 = some (List.replicate 16 0x10) ∧
    completion (exec (.pad 16) (inFlight 0x00100001 { operands 8 0 0 with dstAddr := 0xFFF1 } [])) =
      some (.range, 0, 0, 0) := by decide

/-- PV1 and PV12. -/
theorem test_pvalid :
    completion (exec (.pvalid 16) (onSrc 0x00100002 (ice ++ [4, 4, 4, 4]))) = some (.ok, 0, 1, 0) ∧
    completion (exec (.pvalid 5) (onSrc 0x00050002 (ice ++ [4, 4, 4, 4]))) = some (.ok, 0, 0, 0) := by decide

/-- PV5 and PV7. -/
theorem test_pvalid_corners :
    completion (exec (.pvalid 16) (onSrc 0x00100002 (zeros 16))) = some (.ok, 0, 0, 0) ∧
    completion (exec (.pvalid 16) (onSrc 0x00100002 (List.replicate 16 0x10))) = some (.ok, 0, 1, 0) := by decide

/-- PV8 and PV2. -/
theorem test_pstrip :
    completion (exec (.pstrip 8) (onSrc 0x00080003 (ice ++ [4, 4, 4, 4]))) = some (.ok, 12, 0, 0) ∧
    completion (exec (.pstrip 16) (onSrc 0x00100003 (ice ++ [5, 5, 5, 5]))) = some (.paddingInvalid, 0, 0, 0) := by decide

/-- PV4 and PV11. -/
theorem test_pstrip_corners :
    completion (exec (.pstrip 16) (onSrc 0x00100003 [])) = some (.paddingInvalid, 0, 0, 0) ∧
    completion (exec (.pstrip 0) (onSrc 0x00000003 [0x61, 0x62, 0x63])) = some (.invalidBlockSize, 0, 0, 0) := by decide

/-! The mode chainer, connected to XPRIM -/

/-- M2's output. -/
def m2 : List Byte :=
  [0x59, 0x44, 0x4E, 0x4F, 0x4B, 0x52, 0x26, 0x54, 0x5D, 0x4B, 0x47, 0x4A, 0x5E, 0x44, 0x40, 0x4A] ++ run16 0x10

/-- M2. -/
theorem test_ecbenc : bytesAfter (execWith xprim .ecbenc (onMode 4 ys)) 0x1000 32 = some m2 := by decide

/-- ER9: the window overlaps KEY; and a primitive that faults gives PRIM_FAULT (R145). -/
theorem test_ecbenc_errors :
    completion (execWith xprim .ecbenc (inFlight 4 { operands 0 0 16 with dstAddr := 0x108 } [])) =
      some (.overlap, 0, 0, 0) ∧
    completion (execWith faulty .ecbenc (onMode 4 ys)) = some (.primFault, 0, 0, 0) := by decide

/-- M11: M2's output gives back YS and its pad block. -/
theorem test_ecbdec :
    completion (execWith xprim .ecbdec (onMode 5 m2)) = some (.ok, 16, 0, 0) ∧
    bytesAfter (execWith xprim .ecbdec (onMode 5 m2)) 0x1000 32 = some (ys ++ List.replicate 16 0x10) := by decide

/-- M14, M12, and R226: PRIM_FAULT comes before PADDING_INVALID. -/
theorem test_ecbdec_errors :
    completion (execWith xprim .ecbdec (onMode 5 (zeros 16))) = some (.paddingInvalid, 0, 0, 0) ∧
    completion (execWith xprim .ecbdec (inFlight 5 (operands 17 0 16) [])) = some (.invalidLength, 0, 0, 0) ∧
    completion (execWith faulty .ecbdec (onMode 5 (zeros 16))) = some (.primFault, 0, 0, 0) := by decide

/-- M6. -/
theorem test_cbcenc :
    bytesAfter (execWith xprim (.cbcenc true) (onMode 0x106 [0x61, 0x62, 0x63])) 0x1000 16 =
      some ([0xC1, 0xC2, 0xC3] ++ List.replicate 13 0xAD) := by decide

/-- M10 and M7. -/
theorem test_cbcenc_chain :
    bytesAfter (execWith xprim (.cbcenc true) (onMode 0x106 (run16 0 ++ run16 0))) 0x1000 48 =
      some (run16 0xA0 ++ run16 0xA0 ++ List.replicate 16 0xB0) ∧
    completion (execWith xprim (.cbcenc true) (inFlight 0x106 { operands 3 0 16 with ivLen := 8 } [])) =
      some (.invalidIvLength, 0, 0, 0) := by decide

/-- M20: M5's output with its byte 0 flipped to F8. -/
theorem test_cbcdec :
    bytesAfter (execWith xprim (.cbcdec true) (onMode 0x107
      ([0xF8, 0xE5, 0xEC, 0xEC, 0xEF, 0xF7, 0x80, 0xF3, 0xF5, 0xE2, 0xED, 0xE1, 0xF2, 0xE9, 0xEE, 0xE5] ++ run16 0xA0 ++
        List.replicate 16 0xB0))) 0x1000 48 =
      some ([0x58] ++ ys.drop 1 ++ [0x58] ++ ys.drop 1 ++ List.replicate 16 0x10) := by decide

/-- M18 and M19: INVALID_IV_LENGTH beats INVALID_LENGTH. -/
theorem test_cbcdec_errors :
    completion (exec (.cbcdec true) (inFlight 0x00000107 { operands 17 0 16 with ivLen := 8 } [])) =
      some (.invalidIvLength, 0, 0, 0) ∧
    completion (exec (.cbcdec true) (inFlight 0x00000107 (operands 17 0 16) [])) = some (.invalidLength, 0, 0, 0) := by decide

/-! HAMD, HPAIR, ECBDET -/

/-- V1. -/
theorem test_hamd :
    completion (exec .hamd (inFlight 8 (operands 14 14 0) (Memory.writeRange (Memory.writeRange [] 0 thisTest) 0x100 wokka))) =
      some (.ok, 0, 37, 0) := by decide

/-- H6 and ER13. -/
theorem test_hamd_errors :
    completion (exec .hamd (inFlight 8 (operands 14 70000 0) [])) = some (.lengthMismatch, 0, 0, 0) ∧
    completion (exec .hamd (inFlight 8 { operands 0 0 0 with srcAddr := 0x10000, src2Addr := 0x10001 } [])) =
      some (.range, 0, 0, 0) := by decide

/-- HP8 and HP4. -/
theorem test_hpair :
    completion (exec (.hpair 2) (onSrc 0x00020009 [0, 0, 0xFF, 0xFF, 0x0F, 0x0F, 0xAA])) = some (.ok, 0, 24, 2) ∧
    completion (exec (.hpair 1) (onSrc 0x00010009 [0, 0xFF, 0, 0xFF, 0])) = some (.ok, 0, 32, 4) := by decide

/-- HP7, and HP6: the partial chunk is ignored. -/
theorem test_hpair_corners :
    completion (exec (.hpair 3) (onSrc 0x00030009 [])) = some (.ok, 0, 0, 0) ∧
    completion (exec (.hpair 14) (onSrc 0x000E0009 (thisTest ++ wokka ++ [0x78]))) = some (.ok, 0, 37, 1) := by decide

/-- X11 and X6. -/
theorem test_ecbdet :
    completion (exec (.ecbdet 8) (onSrc 0x0008000A (ys ++ ys.take 8))) = some (.ok, 0, 1, 0) ∧
    completion (exec (.ecbdet 1) (onSrc 0x0001000A [0x61, 0x62, 0x63, 0x61])) = some (.ok, 0, 1, 0) := by decide

/-- X5 and X3. -/
theorem test_ecbdet_corners :
    completion (exec (.ecbdet 3) (onSrc 0x0003000A [0x61, 0x62, 0x63, 0x61, 0x62])) = some (.ok, 0, 0, 0) ∧
    completion (exec (.ecbdet 16) (onSrc 0x0010000A [])) = some (.ok, 0, 0, 0) := by decide

/-! Registers, the buffer port, reset -/

/-- RG1, RG3. -/
theorem test_regRead :
    regRead State.reset 0x000 = 0x434D5043 ∧ regRead State.reset 0x004 = 0x00001010 ∧ regRead State.reset 0x008 = 0x00010000 ∧
    regRead State.reset 0x04C = 0 ∧ regRead State.reset 0xFFC = 0 := by decide

/-- RG4, RG5. -/
theorem test_regWrite :
    regRead (regWrite State.reset 0x010 1) 0x010 = 0 ∧ regRead (regWrite State.reset 0x00C 0xFFFFFFFF) 0x00C = 1 := by decide

/-- RG6, RG7. -/
theorem test_bufPort :
    answer (step (hosted { State.reset with buf := Memory.writeRange [] 0 (bytesOfWord 0x44332211) } (.bufRead .w8 3))) =
      some 0x44 ∧
    answer (step (hosted { State.reset with buf := Memory.writeRange [] 0x100 [0, 1, 2, 3] } (.bufRead .w32 0x100))) =
      some 0x03020100 := by decide

/-- RG14: a CMD write while busy. -/
theorem test_overrun :
    (let s := regWrite (onSrc 0x00100001 []) 0x014 8; (regRead s 0x010, regRead s 0x014)) = (0x5#32, 0x00100001#32) := by decide

/-- RG12: the level, then the acknowledge. -/
theorem test_irq :
    (let s : State := { State.reset with ien := true, done := true }
     (s.irq, (regWrite s 0x010 2).irq, regRead (regWrite s 0x010 2) 0x010)) = (true, false, 0#32) := by decide

/-- C7, R106: `ack` writes 0x00000006. -/
theorem test_script_ack : encodeScript [.ack] = [.regWrite .w32 0x010 0x00000006] := by decide

/-- R105: `iv` with ecbenc, `bs=` with hpair and an immediate over 255 are refused. -/
theorem test_assemble :
    assemble "hpair" none (some 5) false = some (.hpair 5) ∧ assemble "cbcenc" none none true = some (.cbcenc true) ∧
    assemble "ecbenc" none none true = none ∧ assemble "hpair" (some 5) none false = none ∧
    assemble "pad" (some 256) none false = none := by decide

/-- R7, R67: a `wbs` past 32 bits does not wrap to byte 0. -/
theorem test_wbs_no_wrap :
    encodeScript [.wbs 0xFFFFFFFF [1, 2]] = [.bufWrite .w8 0xFFFFFFFF 1, .bufWrite .w8 0x100000000 2] ∧
    Memory.get (bufWrite State.reset 0x100000000 [2]).buf 0 = none := by decide

/-- R22: the bytes of ID on the host bus. -/
theorem test_id_bytes : [0#12, 1#12, 2#12, 3#12].map (regByte State.reset) = [0x43, 0x50, 0x4D, 0x43] := by decide

/-! Witnesses: for every statement with hypotheses, a state and operands that meet them together, clause by clause. The name after
`witness_` is the statement's. -/

theorem witness_DecodeOfEncode : (Instr.hpair 255).WellFormed ∧ (Instr.cbcenc true).WellFormed := by decide

theorem witness_EncodeOfDecode : decode 0x00FF0009#32 = .ok (.hpair 255) := by rfl

theorem witness_AtMostOneRowMatches :
    (⟨.pad, 0x00000001#32, 0xFF00FFFF#32⟩ : Row) ∈ opcodeRows ∧ 0x00FF0001#32 &&& 0xFF00FFFF#32 = 0x00000001#32 := by decide

theorem witness_IllegalWordsComplete :
    (∃ e, decode 0x0000000B#32 = .error e) ∧ (hosted State.reset (.regWrite .w32 0x014 0x0000000B)).busy = false ∧
    (hosted State.reset (.regWrite .w32 0x014 0x0000000B)).agenda = .host (.regWrite .w32 0x014#12 0x0000000B) :: [] ∧
    ({ State.reset with agenda := [.host (.regWrite .w32 0x014 0), .engine] } : State).agenda =
      .host (.regWrite .w32 0x014#12 0) :: .engine :: [] ∧
    (onSrc 0x0000000B []).latch = some ⟨0x0000000B, operands 0 0 0⟩ ∧ (onSrc 0x0000000B []).agenda = [] ∧
    ({ onSrc 0x0000000B [] with agenda := [.engine] } : State).agenda = .engine :: [] :=
  ⟨⟨_, rfl⟩, rfl, rfl, rfl, rfl, rfl, rfl⟩

/-- A busy machine with a latched PAD. -/
def busyPad : State := onSrc 0x00100001 [0x61, 0x62]

/-- Its latch. -/
def padLatch : Latch := ⟨0x00100001, operands 2 0 0⟩

theorem witness_StepRunsDecodedCommand :
    busyPad.latch = some padLatch ∧ decode padLatch.cmd = .ok (.pad 16) ∧ busyPad.agenda = [] ∧
    ({ busyPad with agenda := [.engine] } : State).agenda = .engine :: [] ∧
    (hosted busyPad (.bufRead .w8 0)).agenda = .host (.bufRead .w8 0) :: [] ∧ usesBuffer (.bufRead .w8 0) = true ∧
    (hosted busyPad (.bufRead .w8 0)).busy = true := ⟨rfl, rfl, rfl, rfl, rfl, rfl, rfl⟩

theorem witness_PlacedCommandRunsNext :
    decode 0x00140001#32 = .ok (.pad 20) ∧ State.reset.agenda = [] ∧
    (hosted State.reset (.regRead .w32 0)).agenda = .host (.regRead .w32 0) :: [] ∧ Event.host (.regRead .w32 0) ≠ .engine ∧
    ({ State.reset with agenda := [.engine] } : State).agenda = .engine :: [] := ⟨rfl, rfl, rfl, by decide, rfl⟩

theorem witness_IdleBlockDoesNothing : State.reset.latch = none ∧ State.reset.agenda = [] := by decide

theorem witness_CmdWriteAccepts :
    (hosted State.reset (.regWrite .w32 0x014 0xFFFFFFFF)).busy = false ∧
    (hosted State.reset (.regWrite .w32 0x014 0xFFFFFFFF)).agenda = .host (.regWrite .w32 0x014#12 0xFFFFFFFF) :: [] := by decide

theorem witness_CmdWriteWhileBusyIsDropped :
    (hosted busyPad (.regWrite .w32 0x014 8)).busy = true ∧
    (hosted busyPad (.regWrite .w32 0x014 8)).agenda = .host (.regWrite .w32 0x014#12 8) :: [] ∧
    (∃ t, step (hosted { State.reset with ovr := true } (.regWrite .w32 0x010 4)) = .next t ∧ t.ovr = false) ∧
    (∃ t, step { State.reset with ovr := true, agenda := [.reset] } = .next t ∧ t.ovr = false) ∧
    ∃ t, exec (.pad 16) busyPad = .next t := ⟨rfl, rfl, ⟨_, rfl, rfl⟩, ⟨_, rfl, rfl⟩, ⟨_, rfl⟩⟩

theorem witness_StatusWriteAcknowledges :
    (hosted State.reset (.regWrite .w32 0x010 6)).agenda = .host (.regWrite .w32 0x010#12 6) :: [] := by decide

theorem witness_RegisterReadMap :
    [0x000#12, 0x048#12, 0x04C#12, 0xFFC#12].all (fun off => off.toNat % 4 = 0 ∧
      (hosted State.reset (.regRead .w32 off)).agenda = .host (.regRead .w32 off) :: []) = true := by decide

theorem witness_RegisterWriteMap :
    [0x000#12, 0x00C#12, 0x018#12, 0x028#12, 0x048#12, 0x04C#12, 0xFFC#12].all (fun off =>
      off.toNat % 4 = 0 ∧ off ≠ 0x010#12 ∧ off ≠ 0x014#12 ∧
      (hosted State.reset (.regWrite .w32 off 1)).agenda = .host (.regWrite .w32 off 1) :: []) = true := by decide

/-- A machine whose last four buffer bytes hold values, whose next turn is a host access. -/
def atEnd (op : HostOp) : State := hosted { State.reset with buf := Memory.writeRange [] 0xFFFC [1, 2, 3, 4] } op

theorem witness_HostBufferAccess :
    ((atEnd (.bufRead .w8 0xFFFF)).busy = false ∧ (atEnd (.bufRead .w8 0xFFFF)).agenda = .host (.bufRead .w8 0xFFFF) :: [] ∧
      0xFFFF < (atEnd (.bufRead .w8 0xFFFF)).bufBytes ∧
      Memory.get (atEnd (.bufRead .w8 0xFFFF)).buf 0xFFFF = some 4) ∧
    ((atEnd (.bufWrite .w8 0xFFFF 5)).busy = false ∧
      (atEnd (.bufWrite .w8 0xFFFF 5)).agenda = .host (.bufWrite .w8 0xFFFF 5) :: [] ∧
      0xFFFF < (atEnd (.bufWrite .w8 0xFFFF 5)).bufBytes) ∧
    ((atEnd (.bufRead .w32 0xFFFC)).busy = false ∧ (atEnd (.bufRead .w32 0xFFFC)).agenda = .host (.bufRead .w32 0xFFFC) :: [] ∧
      0xFFFC % 4 = 0 ∧ 0xFFFC + 4 ≤ (atEnd (.bufRead .w32 0xFFFC)).bufBytes ∧
      Memory.get (atEnd (.bufRead .w32 0xFFFC)).buf 0xFFFC = some 1 ∧
      Memory.get (atEnd (.bufRead .w32 0xFFFC)).buf (0xFFFC + 1) = some 2 ∧
      Memory.get (atEnd (.bufRead .w32 0xFFFC)).buf (0xFFFC + 2) = some 3 ∧
      Memory.get (atEnd (.bufRead .w32 0xFFFC)).buf (0xFFFC + 3) = some 4) ∧
    ((atEnd (.bufWrite .w32 0xFFFC 5)).busy = false ∧
      (atEnd (.bufWrite .w32 0xFFFC 5)).agenda = .host (.bufWrite .w32 0xFFFC 5) :: [] ∧
      0xFFFC % 4 = 0 ∧ 0xFFFC + 4 ≤ (atEnd (.bufWrite .w32 0xFFFC 5)).bufBytes) := by decide

theorem witness_AccessOutsideBuffer :
    ((atEnd (.bufRead .w8 0x10000)).busy = false ∧ (atEnd (.bufRead .w8 0x10000)).bufBytes ≤ 0x10000 ∧
      (atEnd (.bufRead .w8 0x10000)).agenda = .host (.bufRead .w8 0x10000) :: []) ∧
    ((atEnd (.bufRead .w32 0x10000)).busy = false ∧ 0x10000 % 4 = 0 ∧
      (atEnd (.bufRead .w32 0x10000)).bufBytes < 0x10000 + 4 ∧
      (atEnd (.bufRead .w32 0x10000)).agenda = .host (.bufRead .w32 0x10000) :: []) ∧
    ((atEnd (.bufWrite .w8 0x10000 5)).busy = false ∧ (atEnd (.bufWrite .w8 0x10000 5)).bufBytes ≤ 0x10000 ∧
      (atEnd (.bufWrite .w8 0x10000 5)).agenda = .host (.bufWrite .w8 0x10000 5) :: []) ∧
    ((atEnd (.bufWrite .w32 0x10000 5)).busy = false ∧ 0x10000 % 4 = 0 ∧
      (atEnd (.bufWrite .w32 0x10000 5)).bufBytes < 0x10000 + 4 ∧
      (atEnd (.bufWrite .w32 0x10000 5)).agenda = .host (.bufWrite .w32 0x10000 5) :: []) := by decide

theorem witness_UnsupportedAccessesRefused :
    step (hosted State.reset (.regRead .w8 0)) = .refused .unsupportedRegisterAccess ∧
    step (hosted State.reset (.regWrite .w32 2 0)) = .refused .unsupportedRegisterAccess ∧
    step (hosted State.reset (.bufRead .w32 2)) = .refused .unsupportedBufferAccess ∧
    step (hosted State.reset (.bufWrite .w16 0 0)) = .refused .unsupportedBufferAccess := ⟨rfl, rfl, rfl, rfl⟩

theorem witness_BufferAccessWaits :
    ((hosted busyPad (.bufRead .w8 0)).busy = true ∧ (hosted busyPad (.bufRead .w8 0)).latch = some padLatch ∧
      usesBuffer (.bufRead .w8 0) = true ∧ (hosted busyPad (.bufRead .w8 0)).agenda = .host (.bufRead .w8 0) :: [] ∧
      ∃ t, step (hosted busyPad (.bufRead .w8 0)) = .next t) ∧
    ({ busyPad with agenda := [.reset, .host (.bufRead .w8 0)] } : State).agenda = .reset :: .host (.bufRead .w8 0) :: [] ∧
    (usesBuffer (.regRead .w32 0x010) = false ∧
      (hosted busyPad (.regRead .w32 0x010)).agenda = .host (.regRead .w32 0x010) :: []) :=
  ⟨⟨rfl, rfl, rfl, rfl, ⟨_, rfl⟩⟩, rfl, rfl, rfl⟩

theorem witness_ResetStep : ({ busyPad with agenda := [.reset] } : State).agenda = .reset :: [] := by rfl

theorem witness_InterruptLevel :
    (∃ t, step (hosted State.reset (.regWrite .w32 0x00C 1)) = .next t) ∧
    ((2#32).getLsbD 1 = true ∧ ∃ t, step (hosted State.reset (.regWrite .w32 0x010 2)) = .next t) ∧
    ((hosted State.reset (.regWrite .w32 0x014 8)).busy = false ∧
      ∃ t, step (hosted State.reset (.regWrite .w32 0x014 8)) = .next t) ∧
    (∃ t, step { busyPad with agenda := [.reset] } = .next t) ∧
    (busyPad.latch = some padLatch ∧ ∃ t, exec (.pad 16) busyPad = .next t) :=
  ⟨⟨_, rfl⟩, ⟨rfl, ⟨_, rfl⟩⟩, ⟨rfl, ⟨_, rfl⟩⟩, ⟨_, rfl⟩, ⟨rfl, ⟨_, rfl⟩⟩⟩

theorem witness_PadCompletes :
    busyPad.latch = some padLatch ∧
    Memory.readRange busyPad.buf padLatch.ops.srcAddr.toNat padLatch.ops.srcLen.toNat = .ok [0x61, 0x62] ∧
    14 = 16 - [0x61, 0x62].length % 16 ∧
    padLatch.ops.srcAddr.toNat + padLatch.ops.srcLen.toNat ≤ busyPad.bufBytes ∧
    padLatch.ops.dstAddr.toNat + (2 + 14) ≤ busyPad.bufBytes ∧
    ¬ overlap ⟨padLatch.ops.dstAddr.toNat, 2 + 14⟩ padLatch.src := ⟨rfl, rfl, rfl, by decide, by decide, by decide⟩

/-- PVALID's, HPAIR's and ECBDET's hypotheses are these of PSTRIP. -/
theorem witness_PstripCompletes :
    busyPad.latch = some padLatch ∧ padLatch.ops.srcAddr.toNat + padLatch.ops.srcLen.toNat ≤ busyPad.bufBytes ∧
    Memory.readRange busyPad.buf padLatch.ops.srcAddr.toNat padLatch.ops.srcLen.toNat = .ok [0x61, 0x62] ∧
    isValidFn [0x61, 0x62] 2 = false := ⟨rfl, by decide, rfl, rfl⟩

/-- SRC holds the valid padding 01 at block size 1. -/
theorem witness_PstripCompletes_valid :
    (onSrc 0x00010003 [0x01]).latch = some ⟨0x00010003, operands 1 0 0⟩ ∧
    Memory.readRange (onSrc 0x00010003 [0x01]).buf 0 1 = .ok [0x01] ∧
    [0x01] = [] ++ List.replicate 1 (BitVec.ofNat 8 1) ∧ [(0x01 : Byte)].length % 1 = 0 := ⟨rfl, rfl, rfl, rfl⟩

theorem witness_PvalidCompletes :
    busyPad.latch = some padLatch ∧ padLatch.ops.srcAddr.toNat + padLatch.ops.srcLen.toNat ≤ busyPad.bufBytes ∧
    Memory.readRange busyPad.buf padLatch.ops.srcAddr.toNat padLatch.ops.srcLen.toNat = .ok [0x61, 0x62] := ⟨rfl, by decide, rfl⟩

theorem witness_HpairCompletes :
    busyPad.latch = some padLatch ∧ 1 ≤ 255 ∧ inRange busyPad.bufBytes padLatch.src ∧
    Memory.readRange busyPad.buf padLatch.ops.srcAddr.toNat padLatch.ops.srcLen.toNat = .ok [0x61, 0x62] :=
  ⟨rfl, by decide, by decide, rfl⟩

theorem witness_EcbdetCompletes :
    busyPad.latch = some padLatch ∧ 1 ≤ 16 ∧ inRange busyPad.bufBytes padLatch.src ∧
    Memory.readRange busyPad.buf padLatch.ops.srcAddr.toNat padLatch.ops.srcLen.toNat = .ok [0x61, 0x62] :=
  ⟨rfl, by decide, by decide, rfl⟩

/-- The zero key. -/
def zeroKey : Block := ⟨zeros 16, by simp⟩

/-- A mode command's operands: SRC of n bytes, a 16-byte KEY and IV. -/
def modeLatch (w : Word) (n : Nat) : Latch := ⟨w, operands n 0 16⟩

/-- A mode command in flight: SRC is n zero bytes, KEY and IV are zero. -/
def modeState (w : Word) (n : Nat) : State :=
  inFlight w (operands n 0 16)
    (Memory.writeRange (Memory.writeRange (Memory.writeRange [] 0 (zeros n)) 0x100 (zeros 16)) 0x200 (zeros 16))

theorem witness_EcbencCompletes :
    (modeState 4 3).latch = some (modeLatch 4 3) ∧
    Memory.readRange (modeState 4 3).buf 0x100 16 = .ok zeroKey.val ∧ Memory.readRange (modeState 4 3).buf 0 3 = .ok (zeros 3) ∧
    16 = (zeros 3).length + (16 - (zeros 3).length % 16) ∧
    inRange (modeState 4 3).bufBytes (modeLatch 4 3).src ∧ inRange (modeState 4 3).bufBytes (modeLatch 4 3).key ∧
    (modeLatch 4 3).ops.dstAddr.toNat + 16 ≤ (modeState 4 3).bufBytes ∧
    ¬ overlap ⟨(modeLatch 4 3).ops.dstAddr.toNat, 16⟩ (modeLatch 4 3).src ∧
    ¬ overlap ⟨(modeLatch 4 3).ops.dstAddr.toNat, 16⟩ (modeLatch 4 3).key :=
  ⟨rfl, rfl, rfl, rfl, by decide, by decide, by decide, by decide, by decide⟩

/-- What CBCENC and CBCDEC ask beyond ECBENC and ECBDEC: the IV, in both its forms. -/
theorem witness_CbcencCompletes :
    (modeLatch 0x106 3).ops.ivLen.toNat = 16 ∧ Memory.readRange (modeState 0x106 3).buf 0x200 16 = .ok (zeros 16) ∧
    0x200 + 16 ≤ (modeState 0x106 3).bufBytes ∧ ¬ overlap ⟨(modeLatch 0x106 3).ops.dstAddr.toNat, 16⟩ ⟨0x200, 16⟩ ∧
    (modeState 0x106 3).latch = some (modeLatch 0x106 3) ∧
    Memory.readRange (modeState 0x106 3).buf 0x100 16 = .ok zeroKey.val ∧
    Memory.readRange (modeState 0x106 3).buf 0 3 = .ok (zeros 3) ∧
    validate (modeState 0x106 3).bufBytes (.cbcenc true) (modeLatch 0x106 3) = none ∧
    validate (modeState 0x106 3).bufBytes (.cbcenc false) (modeLatch 0x106 3) = none :=
  ⟨by decide, rfl, by decide, by decide, rfl, rfl, rfl, by decide, by decide⟩

theorem witness_EcbdecCompletes :
    (modeState 5 16).latch = some (modeLatch 5 16) ∧
    Memory.readRange (modeState 5 16).buf 0x100 16 = .ok zeroKey.val ∧
    Memory.readRange (modeState 5 16).buf 0 16 = .ok (zeros 16) ∧ (zeros 16).length % 16 = 0 ∧
    inRange (modeState 5 16).bufBytes (modeLatch 5 16).src ∧ inRange (modeState 5 16).bufBytes (modeLatch 5 16).key ∧
    inRange (modeState 5 16).bufBytes (modeLatch 5 16).decWindow ∧
    ¬ overlap (modeLatch 5 16).decWindow (modeLatch 5 16).src ∧ ¬ overlap (modeLatch 5 16).decWindow (modeLatch 5 16).key :=
  ⟨rfl, rfl, rfl, rfl, by decide, by decide, by decide, by decide, by decide⟩

theorem witness_CbcdecCompletes :
    (modeLatch 0x107 16).ops.ivLen.toNat = 16 ∧ Memory.readRange (modeState 0x107 16).buf 0x200 16 = .ok (zeros 16) ∧
    0x200 + 16 ≤ (modeState 0x107 16).bufBytes ∧ ¬ overlap (modeLatch 0x107 16).decWindow ⟨0x200, 16⟩ ∧
    (modeState 0x107 16).latch = some (modeLatch 0x107 16) ∧
    Memory.readRange (modeState 0x107 16).buf 0x100 16 = .ok zeroKey.val ∧
    Memory.readRange (modeState 0x107 16).buf 0 16 = .ok (zeros 16) ∧
    validate (modeState 0x107 16).bufBytes (.cbcdec true) (modeLatch 0x107 16) = none ∧
    validate (modeState 0x107 16).bufBytes (.cbcdec false) (modeLatch 0x107 16) = none :=
  ⟨by decide, rfl, by decide, by decide, rfl, rfl, rfl, by decide, by decide⟩

/-- HAMD on SRC and SRC2 of two bytes each. -/
def hamdState : State :=
  inFlight 8 (operands 2 2 0) (Memory.writeRange (Memory.writeRange [] 0 [0x61, 0x62]) 0x100 [0x61, 0x63])

/-- Its latch. -/
def hamdLatch : Latch := ⟨8, operands 2 2 0⟩

theorem witness_HamdCompletes :
    hamdState.latch = some hamdLatch ∧ hamdLatch.ops.srcLen = hamdLatch.ops.src2Len ∧
    inRange hamdState.bufBytes hamdLatch.src ∧ inRange hamdState.bufBytes hamdLatch.src2 ∧
    Memory.readRange hamdState.buf hamdLatch.ops.srcAddr.toNat hamdLatch.ops.srcLen.toNat = .ok [0x61, 0x62] ∧
    Memory.readRange hamdState.buf hamdLatch.ops.src2Addr.toNat hamdLatch.ops.src2Len.toNat = .ok [0x61, 0x63] :=
  ⟨rfl, rfl, by decide, by decide, rfl, rfl⟩

theorem witness_ArgumentErrorsComplete :
    busyPad.latch = some padLatch ∧ (⟨0, { operands 0 0 16 with ivLen := 15 }⟩ : Latch).ops.ivLen ≠ 16 ∧
    (modeLatch 5 17).ops.srcLen.toNat % 16 ≠ 0 ∧ (modeLatch 5 17).ops.ivLen = 16 ∧ padLatch.ops.srcLen ≠ padLatch.ops.src2Len := by
  decide

/-- RANGE by one byte (ER12), and an overlap in one byte within the range. -/
theorem witness_RegionErrorsComplete :
    (let L : Latch := ⟨0x00100001, { operands 0 0 0 with dstAddr := 0xFFF1 }⟩
     zeroBlockSize (.pad 16) = false ∧ badIvLength (.pad 16) L = false ∧ badLength (.pad 16) L = false ∧
      lengthMismatch (.pad 16) L = false ∧ L.padWindow 16 ∈ readsOf (.pad 16) L ++ (windowOf (.pad 16) L).toList ∧
      State.reset.bufBytes < (L.padWindow 16).addr + (L.padWindow 16).len) ∧
    (let L : Latch := ⟨0x00100001, { operands 8 0 0 with dstAddr := 7 }⟩
     (∀ r ∈ readsOf (.pad 16) L ++ (windowOf (.pad 16) L).toList, r.addr + r.len ≤ State.reset.bufBytes) ∧
      windowOf (.pad 16) L = some (L.padWindow 16) ∧ L.src ∈ readsOf (.pad 16) L ∧
      (L.padWindow 16).addr ≤ 7 ∧ 7 < (L.padWindow 16).addr + (L.padWindow 16).len ∧ L.src.addr ≤ 7 ∧
      7 < L.src.addr + L.src.len) := by decide

/-- The last byte of SRC holds no value; and RG11. -/
theorem witness_UnwrittenByteStops :
    ((inFlight 0x00100002 (operands 2 0 0) [(0, 1)]).latch = some ⟨0x00100002, operands 2 0 0⟩ ∧
      validate (inFlight 0x00100002 (operands 2 0 0) [(0, 1)]).bufBytes (.pvalid 16) ⟨0x00100002, operands 2 0 0⟩ = none ∧
      (⟨0, 2⟩ : Region) ∈ readsOf (.pvalid 16) ⟨0x00100002, operands 2 0 0⟩ ∧
      Memory.get (inFlight 0x00100002 (operands 2 0 0) [(0, 1)]).buf 1 = none) ∧
    (hosted State.reset (.bufRead .w8 0)).busy = false ∧ 0 < (hosted State.reset (.bufRead .w8 0)).bufBytes ∧
    Memory.get (hosted State.reset (.bufRead .w8 0)).buf 0 = none ∧
    (let s := hosted { State.reset with buf := Memory.writeRange [] 0xFFFC [1, 2, 3] } (.bufRead .w32 0xFFFC)
     s.busy = false ∧ 0xFFFC % 4 = 0 ∧ 0xFFFC + 4 ≤ s.bufBytes ∧ Memory.get s.buf (0xFFFC + 3) = none ∧
      s.agenda = .host (.bufRead .w32 0xFFFC) :: []) := by decide

theorem written_of_readRange {s : State} {r : Region} {bs : List Byte} (h : Memory.readRange s.buf r.addr r.len = .ok bs) :
    s.written r := by
  obtain ⟨h1, h2⟩ := Memory.readRange_ok_iff.1 h
  intro a ha hb hn
  have := h2 (a - r.addr) (by omega)
  rw [show r.addr + (a - r.addr) = a by omega, hn] at this
  cases this

theorem witness_EveryCommandCompletes :
    hamdState.latch = some hamdLatch ∧ ∀ r ∈ readsOf .hamd hamdLatch, hamdState.written r := by
  refine ⟨rfl, fun r hr => ?_⟩
  simp only [readsOf, List.mem_cons, List.not_mem_nil, or_false] at hr
  rcases hr with rfl | rfl
  · exact written_of_readRange (bs := [0x61, 0x62]) rfl
  · exact written_of_readRange (bs := [0x61, 0x63]) rfl

/-- A 16-byte key under XPRIM, a primitive that faults, and a key of no bytes (ER10's form). -/
theorem witness_ModeCommandsForEveryKey :
    ((modeState 4 3).latch = some (modeLatch 4 3) ∧ (modeLatch 4 3).ops.keyLen = 16 ∧
      validate (modeState 4 3).bufBytes .ecbenc (modeLatch 4 3) = none ∧ PrimTotal xprim ∧ PrimInv xprim ∧
      (∃ t, execWith xprim .ecbenc (modeState 4 3) = .next t) ∧
      ∃ t, execWith faulty .ecbenc (modeState 4 3) = .next t ∧ t.err = .primFault) ∧
    (let s := inFlight 4 (operands 0 0 0) []
     s.latch = some ⟨4, operands 0 0 0⟩ ∧ validate s.bufBytes .ecbenc ⟨4, operands 0 0 0⟩ = none ∧
      ∃ t, execWith xprim .ecbenc s = .next t) :=
  ⟨⟨rfl, rfl, by decide, xprim_contract.1, xprim_contract.2, ⟨_, rfl⟩, ⟨_, rfl, rfl⟩⟩, ⟨rfl, by decide, ⟨_, rfl⟩⟩⟩

theorem witness_CompletionFrame : busyPad.latch = some padLatch ∧ ∃ t, exec (.pad 16) busyPad = .next t := ⟨rfl, ⟨_, rfl⟩⟩

theorem witness_ReadOnlyCommandsKeepMemory : hamdState.latch = some hamdLatch ∧ ∃ t, exec .hamd hamdState = .next t :=
  ⟨rfl, ⟨_, rfl⟩⟩

/-- A write that lands, and an error of R225 (BS = 0). -/
theorem witness_WritesStayInWindow :
    busyPad.latch = some padLatch ∧ windowOf (.pad 16) padLatch = some (padLatch.padWindow 16) ∧
    (∃ t, exec (.pad 16) busyPad = .next t ∧ Memory.get t.buf 0x1000 ≠ Memory.get busyPad.buf 0x1000) ∧
    ∃ t, exec (.pad 0) busyPad = .next t ∧ t.err = .invalidBlockSize :=
  ⟨rfl, rfl, ⟨_, rfl, by decide⟩, ⟨_, rfl, rfl⟩⟩

theorem witness_ResultRegistersByCommand :
    busyPad.latch = some padLatch ∧ (∃ t, exec (.pad 0) busyPad = .next t ∧ t.err ≠ .ok) ∧ ∃ t, exec (.pvalid 16) busyPad = .next t :=
  ⟨rfl, ⟨_, rfl, by decide⟩, ⟨_, rfl⟩⟩

/-- BUF_BYTES at the ends of its range. -/
theorem witness_ResetMeetsInvariant : bufBytesOk 16 ∧ bufBytesOk (2 ^ 24) := by decide

theorem witness_StepKeepsInvariant : State.reset.Inv ∧ ∃ t, step State.reset = .next t :=
  ⟨⟨by decide, rfl, by simp [State.reset], by simp [State.reset], by simp [State.reset], by decide, by decide, by decide, by decide⟩,
    ⟨_, rfl⟩⟩

theorem witness_StepKeepsParameter : ∃ t, step (hosted State.reset (.regRead .w32 0x008)) = .next t := ⟨_, rfl⟩

theorem witness_FaultOnlyForUnwrittenByte : step (hosted State.reset (.bufRead .w8 0)) = .fault (.unwrittenByte 0) := by rfl

/-- Two states that agree on the latch and the buffer only; the first completes, and its twin without SRC faults. -/
theorem witness_CommandsDependOnLatchAndBuffer :
    (let u : State := { busyPad with ops := Operands.zero, ovr := true, result := 7, cmdLast := 0 }
     u.latch = busyPad.latch ∧ u.buf = busyPad.buf ∧ u.bufBytes = busyPad.bufBytes ∧ u.draws = busyPad.draws ∧
      busyPad.latch ≠ none ∧ ∃ t, exec (.pvalid 16) busyPad = .next t) ∧
    exec (.pvalid 16) { busyPad with buf := [] } = .fault (.unwrittenByte 0) :=
  ⟨⟨rfl, rfl, rfl, rfl, by decide, ⟨_, rfl⟩⟩, rfl⟩

/-- HAMD: two latches that differ in the word, KEY, IV and DST. -/
theorem witness_UnlistedFieldsAreIrrelevant :
    (let M : Latch := ⟨0, { operands 2 2 9 with keyAddr := 5, ivAddr := 7, ivLen := 8, dstAddr := 6 }⟩
     hamdLatch.ops.srcAddr = M.ops.srcAddr ∧ hamdLatch.ops.srcLen = M.ops.srcLen ∧
      (hamdLatch.ops.src2Addr = M.ops.src2Addr ∧ hamdLatch.ops.src2Len = M.ops.src2Len) ∧ hamdLatch ≠ M) := by decide

theorem witness_PaddedLength : 1 ≤ 1 ∧ 1 ≤ 255 ∧ (zeros 7).length = 7 := by decide

/-- The three ways of R118 (d): a last byte 0, one over the length, and one that the bytes before it are not. -/
theorem witness_PaddingProperties :
    1 ≤ 16 ∧ 16 ≤ 255 ∧ ys.length % 16 = 0 ∧ (zeros 16).getLast? = some 0 ∧
    ([0x11#8].getLast? = some 0x11 ∧ [0x11#8].length < (0x11#8).toNat) ∧
    ((ice ++ [1, 2, 3, 4]).getLast? = some 4 ∧ ∃ b ∈ (ice ++ [1, 2, 3, 4]).drop (16 - 4), b ≠ (4 : Byte)) := by decide

theorem witness_PrimitiveContract : PrimTotal xprim ∧ PrimInv xprim ∧ xprim.enc zeroKey zeroKey = xprim.enc zeroKey zeroKey :=
  ⟨xprim_contract.1, xprim_contract.2, rfl⟩

/-- Two primitives; they agree on themselves, and differ under a key of 15 bytes without effect. -/
theorem witness_PrimitiveIsAParameter :
    (∀ k b, xprim.enc k b = xprim.enc k b) ∧ (∀ k b, xprim.dec k b = xprim.dec k b) ∧
    (inFlight 4 (operands 0 0 15) []).latch = some ⟨4, operands 0 0 15⟩ ∧ (operands 0 0 15).keyLen ≠ 16 :=
  ⟨fun _ _ => rfl, fun _ _ => rfl, rfl, by decide⟩

/-- What ECBDEC is given after the ECBENC of `modeState 4 3`. -/
def ecbdecLatch : Latch := ⟨5, { operands 16 0 16 with srcAddr := 0x1000, dstAddr := 0x2000 }⟩

theorem witness_EcbRoundTrip :
    PrimTotal xprim ∧ PrimInv xprim ∧ (modeState 4 3).latch = some (modeLatch 4 3) ∧ (modeLatch 4 3).ops.keyLen = 16 ∧
    validate (modeState 4 3).bufBytes .ecbenc (modeLatch 4 3) = none ∧
    Memory.readRange (modeState 4 3).buf (modeLatch 4 3).ops.srcAddr.toNat (modeLatch 4 3).ops.srcLen.toNat = .ok (zeros 3) ∧
    bufBytesOk (modeState 4 3).bufBytes ∧
    ∃ t u : State, execWith xprim .ecbenc (modeState 4 3) = .next t ∧ u.buf = t.buf ∧ u.bufBytes = (modeState 4 3).bufBytes ∧
      u.latch = some ecbdecLatch ∧ ecbdecLatch.ops.srcAddr = (modeLatch 4 3).ops.dstAddr ∧ ecbdecLatch.ops.srcLen = t.outLen ∧
      ecbdecLatch.ops.keyAddr = (modeLatch 4 3).ops.keyAddr ∧ ecbdecLatch.ops.keyLen = (modeLatch 4 3).ops.keyLen ∧
      validate u.bufBytes .ecbdec ecbdecLatch = none :=
  ⟨xprim_contract.1, xprim_contract.2, rfl, rfl, by decide, rfl, by decide, _,
    { State.reset with latch := some ecbdecLatch, buf := _ }, rfl, rfl, rfl, rfl, rfl, rfl,
    rfl, rfl, by decide⟩

/-- What CBCDEC is given after the CBCENC of `modeState 0x106 3`. -/
def cbcdecLatch : Latch := ⟨0x107, { operands 16 0 16 with srcAddr := 0x1000, dstAddr := 0x2000 }⟩

/-- Both values of IVP. -/
theorem witness_CbcRoundTrip :
    PrimTotal xprim ∧ PrimInv xprim ∧ (modeState 0x106 3).latch = some (modeLatch 0x106 3) ∧ (modeLatch 0x106 3).ops.keyLen = 16 ∧
    validate (modeState 0x106 3).bufBytes (.cbcenc true) (modeLatch 0x106 3) = none ∧
    Memory.readRange (modeState 0x106 3).buf (modeLatch 0x106 3).ops.srcAddr.toNat (modeLatch 0x106 3).ops.srcLen.toNat =
      .ok (zeros 3) ∧
    bufBytesOk (modeState 0x106 3).bufBytes ∧
    ∃ t u : State, execWith xprim (.cbcenc true) (modeState 0x106 3) = .next t ∧ u.buf = t.buf ∧ u.bufBytes = (modeState 0x106 3).bufBytes ∧
      u.latch = some cbcdecLatch ∧ cbcdecLatch.ops.srcAddr = (modeLatch 0x106 3).ops.dstAddr ∧ cbcdecLatch.ops.srcLen = t.outLen ∧
      cbcdecLatch.ops.keyAddr = (modeLatch 0x106 3).ops.keyAddr ∧ cbcdecLatch.ops.keyLen = (modeLatch 0x106 3).ops.keyLen ∧
      cbcdecLatch.ops.ivAddr = (modeLatch 0x106 3).ops.ivAddr ∧ cbcdecLatch.ops.ivLen = (modeLatch 0x106 3).ops.ivLen ∧
      validate u.bufBytes (.cbcdec true) cbcdecLatch = none ∧ validate u.bufBytes (.cbcdec false) cbcdecLatch = none ∧
      validate (modeState 0x106 3).bufBytes (.cbcenc false) (modeLatch 0x106 3) = none ∧
      ∃ t₀, execWith xprim (.cbcenc false) (modeState 0x106 3) = .next t₀ ∧ cbcdecLatch.ops.srcLen = t₀.outLen :=
  ⟨xprim_contract.1, xprim_contract.2, rfl, rfl, by decide, rfl, by decide, _,
    { State.reset with latch := some cbcdecLatch, buf := _ }, rfl, rfl, rfl, rfl, rfl, rfl,
    rfl, rfl, rfl, rfl, by decide, by decide, by decide, ⟨_, rfl, rfl⟩⟩

/-- Two plaintexts of two blocks that differ in block 0, and their ciphertexts under XPRIM. -/
theorem witness_EncryptionErrorPropagation :
    (PrimTotal xprim ∧ PrimInv xprim) ∧ (run16 0).length = 16 ∧ (zeros 16).length = 16 ∧
    (zeros 32).length % 16 = 0 ∧ (1 :: zeros 31).length = (zeros 32).length ∧ 0 < nblk (zeros 32) ∧
    blk (zeros 32) 0 ≠ blk (1 :: zeros 31) 0 ∧ (∀ j, j < 2 → j ≠ 0 → blk (zeros 32) j = blk (1 :: zeros 31) j) ∧
    (∃ c, ecbLoop (primEnc xprim 0 (run16 0)) 0 (blocksOf (zeros 32)) = some c) ∧
    (∃ c, ecbLoop (primEnc xprim 0 (run16 0)) 0 (blocksOf (1 :: zeros 31)) = some c) ∧
    (∃ c, cbcEncLoop (primEnc xprim 0 (run16 0)) 0 (zeros 16) (blocksOf (zeros 32)) = some c) ∧
    ∃ c, cbcEncLoop (primEnc xprim 0 (run16 0)) 0 (zeros 16) (blocksOf (1 :: zeros 31)) = some c :=
  ⟨xprim_contract, rfl, rfl, rfl, rfl, by decide, by decide, by decide, ⟨_, rfl⟩, ⟨_, rfl⟩, ⟨_, rfl⟩, ⟨_, rfl⟩⟩

/-- Two ciphertexts of two blocks that differ in block 0, and their plaintexts under XPRIM; two plaintexts with one last block. -/
theorem witness_CbcDecryptionLocality :
    (PrimTotal xprim ∧ PrimInv xprim) ∧ (run16 0).length = 16 ∧ (zeros 16).length = 16 ∧
    (zeros 32).length % 16 = 0 ∧ (1 :: zeros 31).length = (zeros 32).length ∧ 0 + 1 < nblk (zeros 32) ∧
    blk (zeros 32) 0 ≠ blk (1 :: zeros 31) 0 ∧ (∀ j, j < 2 → j ≠ 0 → blk (zeros 32) j = blk (1 :: zeros 31) j) ∧
    (∃ p, cbcDecLoop (primDec xprim 0 (run16 0)) 0 (zeros 16) (blocksOf (zeros 32)) = some p) ∧
    (∃ p, cbcDecLoop (primDec xprim 0 (run16 0)) 0 (zeros 16) (blocksOf (1 :: zeros 31)) = some p) ∧
    (0 < nblk (zeros 16) ∧ blk (zeros 16) (nblk (zeros 16) - 1) = blk (1 :: zeros 31) (nblk (1 :: zeros 31) - 1)) :=
  ⟨xprim_contract, rfl, rfl, rfl, rfl, by decide, by decide, by decide, ⟨_, rfl⟩, ⟨_, rfl⟩, by decide⟩

/-- YS twice, as in V5. -/
theorem witness_EcbFingerprint :
    (PrimTotal xprim ∧ PrimInv xprim) ∧ (run16 0).length = 16 ∧ (zeros 16).length = 16 ∧
    (ys ++ ys).length % 16 = 0 ∧ 2 ≤ nblk (ys ++ ys) ∧ blk (ys ++ ys) 0 = blk (ys ++ ys) 1 ∧
    (∃ c, ecbLoop (primEnc xprim 0 (run16 0)) 0 (blocksOf (ys ++ ys)) = some c) ∧
    ∃ c, cbcEncLoop (primEnc xprim 0 (run16 0)) 0 (zeros 16) (blocksOf (ys ++ ys)) = some c :=
  ⟨xprim_contract, rfl, rfl, rfl, by decide, by decide, ⟨_, rfl⟩, ⟨_, rfl⟩⟩

theorem witness_HammingDistanceLaws : thisTest.length = wokka.length ∧ hd thisTest wokka = 37 := by decide

theorem witness_HammingResultsFit :
    hamdState.latch = some hamdLatch ∧ bufBytesOk hamdState.bufBytes ∧ 0 < hamdLatch.ops.srcLen.toNat ∧
    (∃ t, exec .hamd hamdState = .next t) ∧ ∃ t, exec (.hpair 1) hamdState = .next t :=
  ⟨rfl, by decide, by decide, ⟨_, rfl⟩, ⟨_, rfl⟩⟩

theorem witness_AssemblerSpellsLegalWords : assemble "ecbdet" (some 255) none false = some (.ecbdet 255) := by decide

/-- The last byte of the buffer and the first one past its end. -/
theorem witness_WbsWritesAscending :
    1 < [1#8, 2#8].length ∧ (hosted State.reset (.bufWrite .w8 (0xFFFF + 1) (2#8 |>.setWidth 32))).busy = false ∧
    (hosted State.reset (.bufWrite .w8 (0xFFFF + 1) (2#8 |>.setWidth 32))).agenda =
      .host (.bufWrite .w8 (0xFFFF + 1) ([1#8, 2#8][1].setWidth 32)) :: [] := by decide

/-- The register space, the buffer and an address past both, at State.reset's bases. -/
theorem witness_BusPlacement :
    State.reset.regBase + 4096 ≤ State.reset.bufBase + 0 ∧ 0 < State.reset.bufBytes ∧
    (State.reset.regBase + 4096 ≤ 0x11000 ∧ State.reset.bufBase + State.reset.bufBytes ≤ 0x11000) := by decide

end Sys2Proof.Tests
end

/-! The scope family (00_scope.md): what no step changes, what a command depends on, the host bus, the primitive as a parameter. -/

namespace Sys2Proof.Machine

/-! The OPEN parameters and the record of answers (R5, R6) -/

/-- `t` has the OPEN parameters of `s` and at most one answer more on record. -/
structure KeepsParameters (s t : State) : Prop where
  bufBytes  : t.bufBytes = s.bufBytes
  regBase   : t.regBase = s.regBase
  bufBase   : t.bufBase = s.bufBase
  responses : ∃ l, t.responses = l ++ s.responses ∧ l.length ≤ 1

/-- An operation that returns nothing to the host leaves the record as it is. -/
theorem KeepsParameters.of_noResponse {s t : State} (h1 : t.bufBytes = s.bufBytes) (h2 : t.regBase = s.regBase)
    (h3 : t.bufBase = s.bufBase) (h4 : t.responses = s.responses) : KeepsParameters s t :=
  ⟨h1, h2, h3, [], by simpa using h4, by simp⟩

theorem KeepsParameters.refl (s : State) : KeepsParameters s s := .of_noResponse rfl rfl rfl rfl

/-- Using up a turn changes none of the fields in question. -/
theorem KeepsParameters.of_popTurn {s t : State} (h : KeepsParameters s.popTurn t) : KeepsParameters s t :=
  ⟨h.bufBytes, h.regBase, h.bufBase, h.responses⟩

theorem Completion.keepsParameters {i : Instr} {L : Latch} {s t : State} (h : Completion i L s t) : KeepsParameters s t := by
  cases h with
  | checked => exact .of_noResponse rfl rfl rfl rfl
  | reading => exact .of_noResponse rfl rfl rfl rfl
  | writing => exact .of_noResponse rfl rfl rfl rfl

theorem engineStep_keepsParameters {s t : State} (h : engineStep s = .next t) : KeepsParameters s t := by
  obtain ⟨-, rfl⟩ | ⟨L, -, rfl | ⟨i, -, hc⟩⟩ := engineStep_next h
  · exact .refl _
  · exact .of_noResponse rfl rfl rfl rfl
  · exact hc.keepsParameters

theorem regWrite_keepsParameters (s : State) (off : BitVec 12) (v : Word) : KeepsParameters s (regWrite s off v) := by
  obtain h | ⟨-, h⟩ | ⟨-, h⟩ | ⟨-, h⟩ | ⟨o, h⟩ := regWrite_cases s off v <;> rw [h]
  · exact .refl s
  · exact .of_noResponse rfl rfl rfl rfl
  · rw [writeStatus_eq]
    exact .of_noResponse rfl rfl rfl rfl
  · cases hb : s.busy with
    | false => rw [writeCmd_of_idle hb]; exact .of_noResponse rfl rfl rfl rfl
    | true => rw [writeCmd_of_busy hb]; exact .of_noResponse rfl rfl rfl rfl
  · exact .of_noResponse rfl rfl rfl rfl

theorem hostAccess_keepsParameters {op : HostOp} {s t : State} (h : hostAccess op s = .next t) : KeepsParameters s t := by
  obtain ⟨v, rfl⟩ | ⟨off, v, -, rfl⟩ | hw := hostAccess_next h
  · exact ⟨rfl, rfl, rfl, [v], rfl, le_rfl⟩
  · exact regWrite_keepsParameters s off v
  · cases hw with
    | outside => exact .refl s
    | inside => exact .of_noResponse rfl rfl rfl rfl

theorem step_keepsParameters {s t : State} (h : step s = .next t) : KeepsParameters s t := by
  obtain ⟨-, he⟩ | ⟨-, -, he⟩ | ⟨-, -, rfl⟩ | ⟨op, -, -, -, ho⟩ := step_next h
  · exact engineStep_keepsParameters he
  · exact (engineStep_keepsParameters he).of_popTurn
  · exact .of_noResponse rfl rfl rfl rfl
  · exact (hostAccess_keepsParameters ho).of_popTurn

/-- Settles O42: whichever agent has its turn, its operation keeps the parameters, and only a host read adds an answer. -/
theorem stepKeepsParameter : Obligations.StepKeepsParameter := by
  intro s t h
  obtain ⟨hn, hr, hb, hl⟩ := step_keepsParameters h
  exact ⟨hn, hr, hb, hl⟩

/-! What a command depends on (R12, R35, R38) -/

/-- The two states hold the same in every field that a command reads. -/
structure SameInputs (s u : State) : Prop where
  latch    : u.latch = s.latch
  buf      : u.buf = s.buf
  bufBytes : u.bufBytes = s.bufBytes
  draws    : u.draws = s.draws

/-- The two states show the same results of a command, and hold the same buffer. -/
structure SameResults (t v : State) : Prop where
  err     : v.err = t.err
  outLen  : v.outLen = t.outLen
  result  : v.result = t.result
  result2 : v.result2 = t.result2
  buf     : v.buf = t.buf

/-- Two outcomes of a command alike: completed with the same results, or the same fault. -/
inductive AlikeOutcomes : Result → Result → Prop
  | next {t v : State} (h : SameResults t v) : AlikeOutcomes (.next t) (.next v)
  | fault (f : Fault) : AlikeOutcomes (.fault f) (.fault f)

theorem AlikeOutcomes.next_left {x y : Result} {t : State} (h : AlikeOutcomes x y) (hx : x = .next t) :
    ∃ v, y = .next v ∧ SameResults t v := by
  cases h with
  | next hr => cases hx; exact ⟨_, rfl, hr⟩
  | fault => cases hx

theorem AlikeOutcomes.fault_left {x y : Result} {f : Fault} (h : AlikeOutcomes x y) (hx : x = .fault f) : y = .fault f := by
  cases h with
  | next => cases hx
  | fault => exact hx

section
variable {s u : State} (h : SameInputs s u)
include h

theorem SameInputs.finish (c : ErrCode) (o r r2 : Word) : SameResults (s.finish c o r r2) (u.finish c o r r2) :=
  ⟨rfl, rfl, rfl, rfl, h.buf⟩

theorem SameInputs.raise (e : ErrCode) : SameResults (s.raise e) (u.raise e) := h.finish e 0 0 0

theorem SameInputs.memWrite (a : Nat) (bs : List Byte) : SameInputs (s.memWrite a bs) (u.memWrite a bs) :=
  ⟨h.latch, by simp [h.buf], h.bufBytes, h.draws⟩

theorem SameInputs.memWriteAny (w : Region) : SameInputs (s.memWriteAny w) (u.memWriteAny w) := by
  unfold State.memWriteAny
  rw [h.draws]
  exact h.memWrite _ _

theorem SameInputs.withRegion (r : Region) {k k' : List Byte → Result} (hk : ∀ bs, AlikeOutcomes (k bs) (k' bs)) :
    AlikeOutcomes (withRegion s r k) (withRegion u r k') := by
  unfold Machine.withRegion
  rw [h.buf]
  cases Memory.readRange s.buf r.addr r.len with
  | ok bs => exact hk bs
  | error a => exact .fault _

theorem SameInputs.withIv (ivp : Bool) (L : Latch) {k k' : List Byte → Result} (hk : ∀ bs, AlikeOutcomes (k bs) (k' bs)) :
    AlikeOutcomes (withIv ivp s L k) (withIv ivp u L k') := by
  cases ivp with
  | false => exact hk _
  | true => exact h.withRegion L.iv hk

/-- With a latched command, the checks come out alike, and so does what follows them. -/
theorem SameInputs.runCommand (hl : s.latch ≠ none) (i : Instr) {p q : Latch → Result}
    (hp : ∀ L, AlikeOutcomes (p L) (q L)) : AlikeOutcomes (runCommand i s p) (runCommand i u q) := by
  obtain ⟨L, hs⟩ := Option.ne_none_iff_exists'.1 hl
  have hu : u.latch = some L := h.latch.trans hs
  cases hv : validate s.bufBytes i L with
  | none =>
    rw [runCommand_of_valid hs hv, runCommand_of_valid hu (h.bufBytes ▸ hv)]
    exact hp L
  | some e =>
    rw [runCommand_of_error hs hv, runCommand_of_error hu (h.bufBytes ▸ hv)]
    exact .next (h.raise e)

end

theorem SameResults.nextDraw {t v : State} (h : SameResults t v) : SameResults t.nextDraw v.nextDraw :=
  ⟨h.err, h.outLen, h.result, h.result2, h.buf⟩

theorem SameInputs.finishEncrypt {s u : State} (h : SameInputs s u) (w : Region) (out : Option (List Byte)) :
    SameResults (finishEncrypt s w out) (finishEncrypt u w out) := by
  cases out with
  | some c => exact ((h.memWrite w.addr c).finish _ _ _ _).nextDraw
  | none => exact ((h.memWriteAny w).raise _).nextDraw

theorem SameInputs.finishDecrypt {s u : State} (h : SameInputs s u) (w : Region) (pd : Option (List Byte)) :
    SameResults (finishDecrypt s w pd) (finishDecrypt u w pd) := by
  cases pd with
  | none => exact ((h.memWriteAny w).raise _).nextDraw
  | some p =>
    simp only [Machine.finishDecrypt]
    cases stripFn p Config.cipherBs with
    | some m => exact ((h.memWrite w.addr p).finish _ _ _ _).nextDraw
    | none => exact ((h.memWriteAny w).raise _).nextDraw

/-- The commands one by one: each reads its regions from the same buffer, takes the same draw, and ends alike. -/
theorem SameInputs.execWith {s u : State} (h : SameInputs s u) (hl : s.latch ≠ none) (P : Primitive) (i : Instr) :
    AlikeOutcomes (execWith P i s) (execWith P i u) := by
  cases i with
  | pad bs =>
    exact h.runCommand hl _ fun L => h.withRegion _ fun d => .next ((h.memWrite _ _).finish _ _ _ _)
  | pvalid bs => exact h.runCommand hl _ fun L => h.withRegion _ fun d => .next (h.finish _ _ _ _)
  | pstrip bs =>
    refine h.runCommand hl _ fun L => h.withRegion _ fun d => .next ?_
    cases stripFn d bs with
    | some m => exact h.finish _ _ _ _
    | none => exact h.raise _
  | ecbenc =>
    refine h.runCommand hl _ fun L => h.withRegion _ fun k => h.withRegion _ fun d => .next ?_
    rw [h.draws]
    exact h.finishEncrypt _ _
  | ecbdec =>
    refine h.runCommand hl _ fun L => h.withRegion _ fun k => h.withRegion _ fun c => .next ?_
    rw [h.draws]
    exact h.finishDecrypt _ _
  | cbcenc ivp =>
    refine h.runCommand hl _ fun L => h.withRegion _ fun k => h.withRegion _ fun d => h.withIv _ _ fun iv => .next ?_
    rw [h.draws]
    exact h.finishEncrypt _ _
  | cbcdec ivp =>
    refine h.runCommand hl _ fun L => h.withRegion _ fun k => h.withRegion _ fun c => h.withIv _ _ fun iv => .next ?_
    rw [h.draws]
    exact h.finishDecrypt _ _
  | hamd =>
    exact h.runCommand hl _ fun L => h.withRegion _ fun a => h.withRegion _ fun b => .next (h.finish _ _ _ _)
  | hpair k => exact h.runCommand hl _ fun L => h.withRegion _ fun d => .next (h.finish _ _ _ _)
  | ecbdet bs => exact h.runCommand hl _ fun L => h.withRegion _ fun d => .next (h.finish _ _ _ _)

/-- Settles O44, by running each command on the two states side by side. -/
theorem commandsDependOnLatchAndBuffer : Obligations.CommandsDependOnLatchAndBuffer := by
  intro s u i hlatch hbuf hbytes hdraws hl
  have alike : AlikeOutcomes (exec i s) (exec i u) := by
    rw [exec_eq, exec_eq]
    exact SameInputs.execWith ⟨hlatch, hbuf, hbytes, hdraws⟩ hl Config.primitive i
  refine ⟨fun t ht => ?_, fun f hf => alike.fault_left hf⟩
  obtain ⟨v, hv, hr⟩ := alike.next_left ht
  exact ⟨v, hv, hr.err, hr.outLen, hr.result, hr.result2, hr.buf⟩

/-! The host bus (R5, R22, R61, R66, R73) -/

theorem placeAt_register (s : State) (off : BitVec 12) : s.placeAt (s.regBase + off.toNat) = some (.register off) := by
  have hoff := off.isLt
  rw [State.placeAt, if_pos (by omega), Nat.add_sub_cancel_left, BitVec.ofNat_toNat, BitVec.setWidth_eq]

theorem placeAt_buffer {s : State} {a : Nat} (ha : a < s.bufBytes)
    (hr : s.bufBase + a < s.regBase ∨ s.regBase + 4096 ≤ s.bufBase + a) : s.placeAt (s.bufBase + a) = some (.buffer a) := by
  rw [State.placeAt, if_neg (by omega), if_pos (by omega), Nat.add_sub_cancel_left]

theorem placeAt_outside {s : State} {n : Nat} (hr : n < s.regBase ∨ s.regBase + 4096 ≤ n)
    (hb : n < s.bufBase ∨ s.bufBase + s.bufBytes ≤ n) : s.placeAt n = none := by
  rw [State.placeAt, if_neg (by omega), if_neg (by omega)]

/-- Bytes 0 to 3 of the register space are those of ID, bits 7:0 first (R22). -/
theorem regByte_id (s : State) {i : Nat} (hi : i < 4) :
    regByte s (BitVec.ofNat 12 i) = Config.idValue.extractLsb' (8 * i) 8 := by
  interval_cases i <;> rfl

/-- Settles O59: the two bases place the two spaces, and ID stands at REG_BASE. -/
theorem busPlacement : Obligations.BusPlacement :=
  ⟨placeAt_register, fun _ _ => placeAt_buffer, fun _ _ => placeAt_outside, fun s =>
    ⟨regByte_id s (i := 0) (by decide), regByte_id s (i := 1) (by decide), regByte_id s (i := 2) (by decide),
      regByte_id s (i := 3) (by decide)⟩⟩

/-! The primitive as a parameter (R5, R141, I2, I4) -/

/-- A key that is not 16 bytes long is answered by a free draw, whatever the primitive (I2, log 6). -/
theorem primCall_of_key_length {k : List Byte} (hk : k.length ≠ 16) (f : Block → Block → Option Block) (draw call : Nat)
    (b : List Byte) : primCall f draw call k b = (Config.freePrim draw call).map Subtype.val := by
  simp [primCall, toBlock, hk]

theorem primEnc_of_key_length {k : List Byte} (hk : k.length ≠ 16) (P Q : Primitive) (draw : Nat) :
    primEnc P draw k = primEnc Q draw k := by
  funext call b
  rw [primEnc, primEnc, primCall_of_key_length hk, primCall_of_key_length hk]

theorem primDec_of_key_length {k : List Byte} (hk : k.length ≠ 16) (P Q : Primitive) (draw : Nat) :
    primDec P draw k = primDec Q draw k := by
  funext call b
  rw [primDec, primDec, primCall_of_key_length hk, primCall_of_key_length hk]

/-- Two continuations that agree on the key's bytes, none of them 16 bytes long, make one command. -/
theorem runCommand_congr_key {s : State} {L : Latch} (hl : s.latch = some L) (hkey : L.ops.keyLen ≠ 16) (i : Instr)
    {p q : Latch → List Byte → Result} (h : ∀ k : List Byte, k.length ≠ 16 → p L k = q L k) :
    (runCommand i s fun L => withRegion s L.key (p L)) = runCommand i s fun L => withRegion s L.key (q L) := by
  have hlen : L.key.len ≠ 16 := fun h16 => hkey (BitVec.eq_of_toNat_eq h16)
  have hread : withRegion s L.key (p L) = withRegion s L.key (q L) := by
    unfold withRegion
    cases hr : Memory.readRange s.buf L.key.addr L.key.len with
    | ok k => exact h k (Memory.readRange_length hr ▸ hlen)
    | error a => rfl
  simp only [runCommand, hl, hread]

/-- Under a key of another length no command depends on the primitive: only the mode commands take it, and they pass it to the
port alone. -/
theorem execWith_of_key_length (P Q : Primitive) {s : State} {L : Latch} (hl : s.latch = some L) (hkey : L.ops.keyLen ≠ 16)
    (i : Instr) : execWith P i s = execWith Q i s := by
  cases i with
  | pad bs => rfl
  | pvalid bs => rfl
  | pstrip bs => rfl
  | ecbenc => exact runCommand_congr_key hl hkey _ fun k hk => by rw [primEnc_of_key_length hk P Q]
  | ecbdec => exact runCommand_congr_key hl hkey _ fun k hk => by rw [primDec_of_key_length hk P Q]
  | cbcenc ivp => exact runCommand_congr_key hl hkey _ fun k hk => by rw [primEnc_of_key_length hk P Q]
  | cbcdec ivp => exact runCommand_congr_key hl hkey _ fun k hk => by rw [primDec_of_key_length hk P Q]
  | hamd => rfl
  | hpair k => rfl
  | ecbdet bs => rfl

theorem step_eq_stepWith (s : State) : step s = stepWith Config.primitive s := by
  have h : exec = execWith Config.primitive := funext fun i => funext (exec_eq i)
  rw [step, agentStep, stepWith, h]

/-- A primitive is its two functions. -/
theorem primitive_eq {P Q : Primitive} (he : ∀ k b, P.enc k b = Q.enc k b) (hd : ∀ k b, P.dec k b = Q.dec k b) : P = Q := by
  obtain ⟨enc, dec⟩ := P
  obtain ⟨enc', dec'⟩ := Q
  obtain rfl : enc = enc' := funext fun k => funext (he k)
  obtain rfl : dec = dec' := funext fun k => funext (hd k)
  rfl

/-- Settles O49: `step` is `stepWith` at the connected primitive, and the primitive port asks it for 16-byte keys only. -/
theorem primitiveIsAParameter : Obligations.PrimitiveIsAParameter :=
  ⟨step_eq_stepWith, fun _ _ s he hd => congrArg (stepWith · s) (primitive_eq he hd), fun P Q _ _ hl hkey =>
    execWith_of_key_length P Q hl hkey⟩

end Sys2Proof.Machine

/-! The state family (10_state.md): the invariant at reset and over every step, the register map of the two ports, and what each
command leaves in the result registers. -/

namespace Sys2Proof.Machine

/-! The invariant at reset (R5, R40) -/

theorem State.resetWith_inv {n : Nat} (hn : bufBytesOk n) (r b : Nat) : (State.resetWith n r b).Inv where
  params     := hn
  busyLatch  := rfl
  cmdLatched := by simp
  busyQuiet  := by simp
  errZero    := by simp
  memWf      := .nil
  memInside  := by simp
  outBound   := Nat.zero_le _
  resBound   := ⟨Nat.zero_le _, Nat.zero_le _⟩

/-- Settles O40: R5 allows the default of BUF_BYTES too, and at reset every register is 0 and the memory empty. -/
theorem resetMeetsInvariant : Obligations.ResetMeetsInvariant :=
  ⟨State.resetWith_inv (by decide) _ _, fun _ r b hn => State.resetWith_inv hn r b⟩

/-! The invariant under each operation of the state -/

/-- The fields the invariant does not speak of may take any value. -/
theorem State.Inv.with_unwatched {s : State} (h : s.Inv) (ien ovr : Bool) (ops : Operands) (regBase bufBase draws : Nat)
    (agenda : List Event) (responses : List Word) :
    State.Inv { s with
      ien := ien, ovr := ovr, ops := ops, regBase := regBase, bufBase := bufBase, draws := draws, agenda := agenda,
      responses := responses } :=
  ⟨h.params, h.busyLatch, h.cmdLatched, h.busyQuiet, h.errZero, h.memWf, h.memInside, h.outBound, h.resBound⟩

section
variable {s t : State} (h : s.Inv)
include h

theorem State.Inv.popTurn : s.popTurn.Inv := h.with_unwatched ..

theorem State.Inv.respond (v : Word) : (s.respond v).Inv := h.with_unwatched ..

theorem State.Inv.writeCtrl (v : Word) : (s.writeCtrl v).Inv := h.with_unwatched ..

theorem State.Inv.afterReset : s.afterReset.Inv := (State.resetWith_inv h.params s.regBase s.bufBase).with_unwatched ..

/-- A STATUS write clears DONE or leaves it, so DONE is still 0 while BUSY = 1. -/
theorem State.Inv.writeStatus (v : Word) : (s.writeStatus v).Inv := by
  rw [writeStatus_eq]
  exact { h.with_unwatched s.ien (s.ovr && !v.getLsbD 2) s.ops s.regBase s.bufBase s.draws s.agenda s.responses with
    busyQuiet := fun hb => by
      obtain ⟨hdone, hrest⟩ := h.busyQuiet hb
      exact ⟨by simp [hdone], hrest⟩ }

theorem State.Inv.accept (w : Word) : (s.accept w).Inv where
  params     := h.params
  busyLatch  := rfl
  cmdLatched := by simp
  busyQuiet  := by simp
  errZero    := by simp
  memWf      := h.memWf
  memInside  := h.memInside
  outBound   := Nat.zero_le _
  resBound   := ⟨Nat.zero_le _, Nat.zero_le _⟩

theorem State.Inv.writeCmd (w : Word) : (s.writeCmd w).Inv := by
  cases hb : s.busy with
  | false => rw [writeCmd_of_idle hb]; exact h.accept w
  | true => rw [writeCmd_of_busy hb]; exact h.with_unwatched ..

theorem State.Inv.regWrite (off : BitVec 12) (v : Word) : (regWrite s off v).Inv := by
  obtain hw | ⟨-, hw⟩ | ⟨-, hw⟩ | ⟨-, hw⟩ | ⟨o, hw⟩ := regWrite_cases s off v <;> rw [hw]
  · exact h
  · exact h.writeCtrl v
  · exact h.writeStatus v
  · exact h.writeCmd v
  · exact h.with_unwatched ..

/-- A write inside BUF_BYTES lists no byte outside it (R60, R79). -/
theorem State.Inv.memWrite {a : Nat} {bs : List Byte} (ha : a + bs.length ≤ s.bufBytes) : (s.memWrite a bs).Inv :=
  { h with
    memWf := Memory.writeRange_wf h.memWf a bs
    memInside := fun c hc => by
      obtain ⟨-, hlt⟩ | hold := Memory.mem_writeRange hc
      · exact hlt.trans_le ha
      · exact h.memInside c hold }

/-- A completion within the bounds, with zero results after an error. -/
theorem State.Inv.finish {c : ErrCode} {o r r2 : Word} (hc : c ≠ .ok → o = 0 ∧ r = 0 ∧ r2 = 0) (ho : o.toNat ≤ s.bufBytes)
    (hr : r.toNat ≤ 8 * s.bufBytes) (hr2 : r2.toNat ≤ s.bufBytes) : (s.finish c o r r2).Inv where
  params     := h.params
  busyLatch  := rfl
  cmdLatched := by simp
  busyQuiet  := by simp
  errZero    := hc
  memWf      := h.memWf
  memInside  := h.memInside
  outBound   := ho
  resBound   := ⟨hr, hr2⟩

theorem State.Inv.raise (e : ErrCode) : (s.raise e).Inv :=
  h.finish (fun _ => ⟨rfl, rfl, rfl⟩) (Nat.zero_le _) (Nat.zero_le _) (Nat.zero_le _)

/-! The invariant under each agent's turn -/

theorem State.Inv.completion {i : Instr} {L : Latch} (hc : Completion i L s t) : t.Inv := by
  cases hc with
  | checked e => exact h.raise e
  | reading c o r r2 _ _ hcode ho hr hr2 =>
    obtain ⟨-, hbytes, -⟩ := h.params
    refine h.finish (fun hne => ?_) ho (by omega) hr2
    obtain hok | ⟨-, hzero⟩ := hcode
    · exact absurd hok hne
    · exact hzero
  | writing w bs c o n hw hv hb hcode ho =>
    obtain ⟨-, -, -, -, -, hwindow⟩ := validate_eq_none.1 hv
    have hwrite : (s.memWrite w.addr bs).Inv := h.memWrite (hb ▸ (hwindow w hw).1)
    have hfin : ((s.memWrite w.addr bs).finish c o 0 0).Inv := by
      refine hwrite.finish (fun hne => ?_) ho (Nat.zero_le _) (Nat.zero_le _)
      obtain hok | ⟨-, hzero⟩ := hcode
      · exact absurd hok hne
      · exact ⟨hzero, rfl, rfl⟩
    exact hfin.with_unwatched ..

theorem State.Inv.engineStep (he : engineStep s = .next t) : t.Inv := by
  obtain ⟨-, rfl⟩ | ⟨L, -, rfl | ⟨i, -, hc⟩⟩ := engineStep_next he
  · exact h
  · exact h.raise _
  · exact h.completion hc

theorem State.Inv.hostAccess {op : HostOp} (ho : hostAccess op s = .next t) : t.Inv := by
  obtain ⟨v, rfl⟩ | ⟨off, v, -, rfl⟩ | hw := hostAccess_next ho
  · exact h.respond v
  · exact h.regWrite off v
  · cases hw with
    | outside => exact h
    | inside a bs hin => exact h.memWrite hin

theorem State.Inv.step (hs : step s = .next t) : t.Inv := by
  obtain ⟨-, he⟩ | ⟨-, -, he⟩ | ⟨-, -, rfl⟩ | ⟨op, -, -, -, ho⟩ := step_next hs
  · exact h.engineStep he
  · exact h.popTurn.engineStep he
  · exact h.popTurn.afterReset
  · exact h.popTurn.hostAccess ho

end

/-- Settles O41: the engine's turn, a host access and a reset each keep the invariant. -/
theorem stepKeepsInvariant : Obligations.StepKeepsInvariant := fun _ _ h hs => h.step hs

/-! The register port (R20 to R34, R61) -/

/-- Settles O12: the register map offset by offset, then ERR code by code. -/
theorem registerReadMap : Obligations.RegisterReadMap := by
  intro s off rest h4 hs
  rw [step_of_regRead hs h4, regRead_eq_elim, regAt_eq]
  simp only [elim_ite, Option.elim_some, Option.elim_none, readReg, flagWord_eq, statusWord_eq]
  cases s.err <;> rfl

/-- The offsets of the read-only registers (R21). -/
def readOnlyOffsets : List (BitVec 12) := [0x000#12, 0x004#12, 0x008#12, 0x018#12, 0x01C#12, 0x020#12, 0x024#12]

/-- Settles O13: a read-only offset keeps the state; past those, CTRL, STATUS and CMD, the map has the operand registers left. -/
theorem registerWriteMap : Obligations.RegisterWriteMap := by
  intro s off v rest h4 hstatus hcmd hs
  rw [step_of_regWrite hs h4]
  by_cases hro : off ∈ readOnlyOffsets
  · simp only [readOnlyOffsets, List.mem_cons, List.not_mem_nil, or_false] at hro
    obtain rfl | rfl | rfl | rfl | rfl | rfl | rfl := hro <;> rfl
  · simp only [readOnlyOffsets, List.mem_cons, List.not_mem_nil, or_false, not_or] at hro
    rw [regWrite_eq_elim, regAt_eq]
    simp only [elim_ite, Option.elim_some, Option.elim_none, hro, hstatus, hcmd, if_false]
    rfl

/-- Settles O11: offset 0x010 is STATUS, whose write is `writeStatus`. -/
theorem statusWriteAcknowledges : Obligations.StatusWriteAcknowledges := by
  intro s v rest hs
  have hstatus : ∀ u : State, regWrite u 0x010#12 v = u.writeStatus v := fun _ => rfl
  rw [step_of_regWrite hs (by decide), hstatus, writeStatus_eq]

/-! What a command leaves in the result registers (R31 to R33, R222) -/

/-- The commands that report a length in OUT_LEN (R31); the others report in RESULT (R32). -/
def reportsLength : Instr → Bool
  | .pad _ => true
  | .pvalid _ => false
  | .pstrip _ => true
  | .ecbenc => true
  | .ecbdec => true
  | .cbcenc _ => true
  | .cbcdec _ => true
  | .hamd => false
  | .hpair _ => false
  | .ecbdet _ => false

/-- The result registers that command `i` has no result for are 0 in `t`. -/
structure UnusedResultsZero (i : Instr) (t : State) : Prop where
  outLen  : reportsLength i = false → t.outLen = 0
  result  : reportsLength i = true → t.result = 0
  result2 : (∀ k, i ≠ .hpair k) → t.result2 = 0

theorem UnusedResultsZero.raise (i : Instr) (s : State) (e : ErrCode) : UnusedResultsZero i (s.raise e) :=
  ⟨fun _ => rfl, fun _ => rfl, fun _ => rfl⟩

/-- A command that takes a next state with a latched word does it in one of the ways of `Completion`. -/
theorem completion_of_exec {i : Instr} {L : Latch} {s t : State} (hl : s.latch = some L) (h : exec i s = .next t) :
    Completion i L s t := by
  obtain ⟨hnone, -⟩ | ⟨L', hl', hc⟩ := exec_next h
  · exact absurd (hl.symm.trans hnone) (by simp)
  · obtain rfl : L = L' := Option.some.inj (hl.symm.trans hl')
    exact hc

/-- After an error no result register holds a result, and the word stays (R220, R222). -/
theorem Completion.results_zero_of_error {i : Instr} {L : Latch} {s t : State} (h : Completion i L s t) (he : t.err ≠ .ok) :
    t.outLen = 0 ∧ t.result = 0 ∧ t.result2 = 0 ∧ t.cmdLast = s.cmdLast := by
  cases h with
  | checked e => exact ⟨rfl, rfl, rfl, rfl⟩
  | reading c o r r2 _ _ hcode =>
    obtain hok | ⟨-, ho, hr, hr2⟩ := hcode
    · exact absurd hok he
    · exact ⟨ho, hr, hr2, rfl⟩
  | writing w bs c o n _ _ _ hcode =>
    obtain hok | ⟨-, ho⟩ := hcode
    · exact absurd hok he
    · exact ⟨ho, rfl, rfl, rfl⟩

/-- A writing command reports a length and nothing else. -/
theorem Completion.unusedResultsZero_of_window {i : Instr} {L : Latch} {s t : State} (h : Completion i L s t)
    (hw : windowOf i L ≠ none) (hi : reportsLength i = true) : UnusedResultsZero i t := by
  cases h with
  | checked e => exact .raise i s e
  | reading _ _ _ _ hnone => exact absurd hnone hw
  | writing => exact ⟨fun hf => absurd (hi.symm.trans hf) (by decide), fun _ => rfl, fun _ => rfl⟩

/-- A command leaves the zeros of an error, or what its own effect leaves. -/
theorem unusedResultsZero_of_runCommand {i : Instr} {s t : State} {L : Latch} {p : Latch → Result} (hl : s.latch = some L)
    (h : runCommand i s p = .next t) (hp : p L = .next t → UnusedResultsZero i t) : UnusedResultsZero i t := by
  cases hv : validate s.bufBytes i L with
  | none =>
    rw [runCommand_of_valid hl hv] at h
    exact hp h
  | some e =>
    rw [runCommand_of_error hl hv] at h
    cases h
    exact .raise i s e

/-- The commands one by one: those with a window by `Completion`, the others by the `finish` they end with. -/
theorem exec_unusedResultsZero {i : Instr} {s t : State} {L : Latch} (hl : s.latch = some L)
    (h : exec i s = .next t) : UnusedResultsZero i t := by
  have hc := completion_of_exec hl h
  cases i with
  | pad bs => exact hc.unusedResultsZero_of_window (by simp [windowOf]) rfl
  | ecbenc => exact hc.unusedResultsZero_of_window (by simp [windowOf]) rfl
  | ecbdec => exact hc.unusedResultsZero_of_window (by simp [windowOf]) rfl
  | cbcenc ivp => exact hc.unusedResultsZero_of_window (by simp [windowOf]) rfl
  | cbcdec ivp => exact hc.unusedResultsZero_of_window (by simp [windowOf]) rfl
  | pstrip bs =>
    refine unusedResultsZero_of_runCommand hl h fun hp => ?_
    obtain ⟨d, -, -, hp⟩ := withRegion_next hp
    cases hp
    cases stripFn d bs with
    | none => exact .raise _ s _
    | some m => exact ⟨nofun, fun _ => rfl, fun _ => rfl⟩
  | pvalid bs =>
    refine unusedResultsZero_of_runCommand hl h fun hp => ?_
    obtain ⟨d, -, -, hp⟩ := withRegion_next hp
    cases hp
    exact ⟨fun _ => rfl, nofun, fun _ => rfl⟩
  | hamd =>
    refine unusedResultsZero_of_runCommand hl h fun hp => ?_
    obtain ⟨a, -, -, hp⟩ := withRegion_next hp
    obtain ⟨b, -, -, hp⟩ := withRegion_next hp
    cases hp
    exact ⟨fun _ => rfl, nofun, fun _ => rfl⟩
  | hpair k =>
    refine unusedResultsZero_of_runCommand hl h fun hp => ?_
    obtain ⟨d, -, -, hp⟩ := withRegion_next hp
    cases hp
    exact ⟨fun _ => rfl, nofun, fun hk => absurd rfl (hk k)⟩
  | ecbdet bs =>
    refine unusedResultsZero_of_runCommand hl h fun hp => ?_
    obtain ⟨d, -, -, hp⟩ := withRegion_next hp
    cases hp
    exact ⟨fun _ => rfl, nofun, fun _ => rfl⟩

/-- Settles O39, from what a completion leaves after an error and what each command leaves unused. -/
theorem resultRegistersByCommand : Obligations.ResultRegistersByCommand := by
  intro s t L i hl h
  have hz := exec_unusedResultsZero hl h
  refine ⟨(completion_of_exec hl h).results_zero_of_error, hz.result2, fun n hi => hz.outLen ?_, fun n b hi => hz.result ?_⟩
  · simp only [List.mem_cons, List.not_mem_nil, or_false] at hi
    obtain rfl | rfl | rfl | rfl := hi <;> rfl
  · simp only [List.mem_cons, List.not_mem_nil, or_false] at hi
    obtain rfl | rfl | rfl | rfl | rfl | rfl := hi <;> rfl

/-! The reset values (R40) -/

/-- Settles O18: R40's table, row by row of `State.resetWith`. -/
theorem resetValues : Obligations.ResetValues :=
  ⟨fun n r b => ⟨State.resetWith n r b, rfl, by
    simp [ErrCode.bits, Operands.zero, State.irq, readReg, word, Config.idValue, Config.paramValue]⟩, rfl⟩

end Sys2Proof.Machine

/-! The memory family (20_memory.md): the four accesses of the buffer port, which accesses are refused and which wait, and what a
command leaves of the memory. -/

namespace Sys2Proof.Machine

/-! The buffer port (R66, R67) -/

theorem wordOfBytes_one (b : Byte) : wordOfBytes [b] = b.setWidth 32 := by simp [wordOfBytes]

/-- Four bytes as a word, the one at the lowest address in bits 7:0 (R66). -/
theorem wordOfBytes_four (b₀ b₁ b₂ b₃ : Byte) :
    wordOfBytes [b₀, b₁, b₂, b₃] =
      b₀.setWidth 32 ||| b₁.setWidth 32 <<< 8 ||| b₂.setWidth 32 <<< 16 ||| b₃.setWidth 32 <<< 24 := by
  simp [wordOfBytes, BitVec.shiftLeft_or_distrib, ← BitVec.shiftLeft_add, BitVec.or_assoc]

theorem bytesOfWord_getElem (v : Word) {i : Nat} (h : i < (bytesOfWord v).length) :
    (bytesOfWord v)[i] = v.extractLsb' (8 * i) 8 := by
  have hi : i < 4 := h
  interval_cases i <;> rfl

section
variable {s : State} {a n : Nat} {bs : List Byte}

theorem bufRead_of_inside (h : a + n ≤ s.bufBytes) (hr : Memory.readRange s.buf a n = .ok bs) :
    bufRead s a n = .next (s.respond (wordOfBytes bs)) := by
  rw [bufRead, if_pos h, withRegion_of_ok hr]

theorem bufRead_of_outside (h : s.bufBytes < a + n) : bufRead s a n = .next (s.respond 0) := by
  rw [bufRead, if_neg (by omega)]

theorem bufWrite_of_inside (h : a + bs.length ≤ s.bufBytes) : bufWrite s a bs = s.memWrite a bs := by
  rw [bufWrite, if_pos h]

theorem bufWrite_of_outside (h : s.bufBytes < a + bs.length) : bufWrite s a bs = s := by
  rw [bufWrite, if_neg (by omega)]

end

/-! The host's turn with BUSY = 0 (R66 to R69) -/

theorem stalls_of_idle {s : State} (h : s.busy = false) (op : HostOp) : stalls op s = false := by simp [stalls, h]

section
variable {s : State} {a : Nat} {v : Word} {rest : List Event} (hb : s.busy = false)
include hb

theorem step_of_bufRead8 (h : s.agenda = .host (.bufRead .w8 a) :: rest) :
    step s = bufRead { s with agenda := rest } a 1 := by
  rw [step_of_host h (stalls_of_idle hb _), hostAccess]

theorem step_of_bufRead32 (h : s.agenda = .host (.bufRead .w32 a) :: rest) (h4 : a % 4 = 0) :
    step s = bufRead { s with agenda := rest } a 4 := by
  rw [step_of_host h (stalls_of_idle hb _), hostAccess, if_pos h4]

theorem step_of_bufWrite8 (h : s.agenda = .host (.bufWrite .w8 a v) :: rest) :
    step s = .next (bufWrite { s with agenda := rest } a [v.extractLsb' 0 8]) := by
  rw [step_of_host h (stalls_of_idle hb _), hostAccess]

theorem step_of_bufWrite32 (h : s.agenda = .host (.bufWrite .w32 a v) :: rest) (h4 : a % 4 = 0) :
    step s = .next (bufWrite { s with agenda := rest } a (bytesOfWord v)) := by
  rw [step_of_host h (stalls_of_idle hb _), hostAccess, if_pos h4]

end

/-- Settles O14: each access is one read or one write of a range inside the buffer. -/
theorem hostBufferAccess : Obligations.HostBufferAccess := by
  refine ⟨fun s a b rest hb hs ha h => ?_, fun s a v rest hb hs ha => ?_,
    fun s a b₀ b₁ b₂ b₃ rest hb hs h4 ha h₀ h₁ h₂ h₃ => ?_, fun s a v rest hb hs h4 ha => ?_⟩
  · have hr : Memory.readRange s.buf a 1 = .ok [b] := by simp [Memory.readRange, h]
    rw [← wordOfBytes_one]
    exact (step_of_bufRead8 hb hs).trans (bufRead_of_inside ha hr)
  · exact ⟨_, (step_of_bufWrite8 hb hs).trans (congrArg _ (bufWrite_of_inside ha)), Memory.get_set_same ..,
      fun x hx => Memory.get_set_other _ _ hx⟩
  · have hr : Memory.readRange s.buf a 4 = .ok [b₀, b₁, b₂, b₃] := by simp [Memory.readRange, h₀, h₁, h₂, h₃]
    rw [← wordOfBytes_four]
    exact (step_of_bufRead32 hb hs h4).trans (bufRead_of_inside ha hr)
  · exact ⟨_, (step_of_bufWrite32 hb hs h4).trans (congrArg _ (bufWrite_of_inside ha)),
      fun i hi => (Memory.get_writeRange_inside _ _ _ hi).trans (congrArg some (bytesOfWord_getElem v hi)),
      fun x hx => Memory.get_writeRange_outside _ _ hx⟩

/-- BUF_BYTES is a multiple of 4 (R5), so no aligned word crosses the end of the buffer (R67). -/
theorem State.Inv.aligned_word_inside_or_outside {s : State} (h : s.Inv) {a : Nat} (h4 : a % 4 = 0) :
    a + 4 ≤ s.bufBytes ∨ s.bufBytes ≤ a := by
  obtain ⟨hmul, -, -⟩ := h.params
  omega

/-- Settles O15: both reads answer 0 and both writes keep the state. -/
theorem accessOutsideBuffer : Obligations.AccessOutsideBuffer := by
  refine ⟨fun s a rest hb ha hs => ?_, fun s a rest hb h4 ha hs => ?_, fun s a v rest hb ha hs => ?_,
    fun s a v rest hb h4 ha hs => ?_, fun s a h h4 => h.aligned_word_inside_or_outside h4⟩
  · exact (step_of_bufRead8 hb hs).trans (bufRead_of_outside (Nat.lt_succ_of_le ha))
  · exact (step_of_bufRead32 hb hs h4).trans (bufRead_of_outside ha)
  · exact (step_of_bufWrite8 hb hs).trans (congrArg _ (bufWrite_of_outside (Nat.lt_succ_of_le ha)))
  · exact (step_of_bufWrite32 hb hs h4).trans (congrArg _ (bufWrite_of_outside ha))

/-! The refusals (R68 (d), R223, I5) -/

/-- A register-port access that is not an aligned 32-bit one (R223 (a)). -/
def UnsupportedAtRegister (op : HostOp) : Prop :=
  ∃ w off, (op = .regRead w off ∨ ∃ v, op = .regWrite w off v) ∧ (w ≠ .w32 ∨ off.toNat % 4 ≠ 0)

/-- A buffer-port access that is 16-bit, or 32-bit and misaligned (R223 (b)). -/
def UnsupportedAtBuffer (op : HostOp) : Prop :=
  ∃ w a, (op = .bufRead w a ∨ ∃ v, op = .bufWrite w a v) ∧ (w = .w16 ∨ w = .w32 ∧ a % 4 ≠ 0)

theorem bufRead_not_refused (s : State) (a n : Nat) (r : Refusal) : bufRead s a n ≠ .refused r := by
  unfold bufRead
  split
  · obtain ⟨bs, -, h⟩ | ⟨x, -, h, -⟩ := withRegion_cases s ⟨a, n⟩ fun bs => .next (s.respond (wordOfBytes bs))
    · rw [h]; nofun
    · rw [h]; nofun
  · nofun

/-- A check that lets `x` through and refuses otherwise. -/
theorem ite_refused_iff {c : Prop} [Decidable c] {x : Result} {q r : Refusal} (hx : x ≠ .refused r) :
    (if c then x else .refused q) = .refused r ↔ r = q ∧ ¬ c := by
  by_cases hc : c
  · simp [hc, hx]
  · simp [hc, eq_comm]

/-- The accesses one by one: the width and the alignment decide, and a read or a write that goes through is not refused. -/
theorem hostAccess_refused_iff (op : HostOp) (s : State) (r : Refusal) :
    hostAccess op s = .refused r ↔
      (r = .unsupportedRegisterAccess ∧ UnsupportedAtRegister op) ∨
      (r = .unsupportedBufferAccess ∧ UnsupportedAtBuffer op) := by
  unfold UnsupportedAtRegister UnsupportedAtBuffer
  cases op with
  | regRead w off => cases w <;> simp [hostAccess, ite_refused_iff, eq_comm (b := r)]
  | regWrite w off v => cases w <;> simp [hostAccess, ite_refused_iff, eq_comm (b := r)]
  | bufRead w a => cases w <;> simp [hostAccess, ite_refused_iff, bufRead_not_refused, eq_comm (b := r)]
  | bufWrite w a v => cases w <;> simp [hostAccess, ite_refused_iff, eq_comm (b := r)]

theorem engineStep_not_refused (s : State) (r : Refusal) : engineStep s ≠ .refused r := by
  unfold engineStep engineStepWith
  split
  · nofun
  · split
    · nofun
    · exact exec_not_refused _ s r

/-- Only a host access that does not wait is refused. -/
theorem step_refused_iff (s : State) (r : Refusal) :
    step s = .refused r ↔ ∃ op rest, s.agenda = .host op :: rest ∧ stalls op s = false ∧
      hostAccess op { s with agenda := rest } = .refused r := by
  constructor
  · intro h
    match hs : s.agenda with
    | [] => exact absurd (step_of_idle hs ▸ h) (engineStep_not_refused _ r)
    | .engine :: rest => exact absurd (step_of_engine hs ▸ h) (engineStep_not_refused _ r)
    | .reset :: rest => rw [step_of_reset hs] at h; cases h
    | .host op :: rest =>
      cases hw : stalls op s with
      | true => exact absurd (step_of_stall hs hw ▸ h) (engineStep_not_refused _ r)
      | false => exact ⟨op, rest, rfl, hw, step_of_host hs hw ▸ h⟩
  · rintro ⟨op, rest, hs, hw, h⟩
    exact (step_of_host hs hw).trans h

/-- Settles O16, from which steps are refused and which host accesses are. -/
theorem unsupportedAccessesRefused : Obligations.UnsupportedAccessesRefused := by
  intro s r
  simp only [step_refused_iff, hostAccess_refused_iff]
  constructor
  · rintro ⟨op, rest, hs, hw, ⟨hr, w, off, rfl | ⟨v, rfl⟩, hu⟩ | ⟨hr, w, a, rfl | ⟨v, rfl⟩, hu⟩⟩
    · exact .inl ⟨hr, w, off, rest, .inl hs, hu⟩
    · exact .inl ⟨hr, w, off, rest, .inr ⟨v, hs⟩, hu⟩
    · exact .inr ⟨hr, hw, w, a, rest, .inl hs, hu⟩
    · exact .inr ⟨hr, hw, w, a, rest, .inr ⟨v, hs⟩, hu⟩
  · rintro (⟨hr, w, off, rest, hs | ⟨v, hs⟩, hu⟩ | ⟨hr, hb, w, a, rest, hs | ⟨v, hs⟩, hu⟩)
    · exact ⟨_, rest, hs, rfl, .inl ⟨hr, w, off, .inl rfl, hu⟩⟩
    · exact ⟨_, rest, hs, rfl, .inl ⟨hr, w, off, .inr ⟨v, rfl⟩, hu⟩⟩
    · exact ⟨_, rest, hs, stalls_of_idle hb _, .inr ⟨hr, w, a, .inl rfl, hu⟩⟩
    · exact ⟨_, rest, hs, stalls_of_idle hb _, .inr ⟨hr, w, a, .inr ⟨v, rfl⟩, hu⟩⟩

/-! The wait (R69) -/

/-- A completion clears BUSY, uses up no turn and returns nothing to the host. -/
theorem Completion.keepsTurns {i : Instr} {L : Latch} {s t : State} (h : Completion i L s t) :
    t.busy = false ∧ t.agenda = s.agenda ∧ t.responses = s.responses := by
  cases h with
  | checked => exact ⟨rfl, rfl, rfl⟩
  | reading => exact ⟨rfl, rfl, rfl⟩
  | writing => exact ⟨rfl, rfl, rfl⟩

/-- With a latched word the engine's turn is a completion (R240). -/
theorem engineStep_keepsTurns {s t : State} {L : Latch} (hl : s.latch = some L) (h : engineStep s = .next t) :
    t.busy = false ∧ t.agenda = s.agenda ∧ t.responses = s.responses := by
  obtain ⟨hnone, -⟩ | ⟨L', -, rfl | ⟨i, -, hc⟩⟩ := engineStep_next h
  · exact absurd (hl.symm.trans hnone) nofun
  · exact ⟨rfl, rfl, rfl⟩
  · exact hc.keepsTurns

/-- Settles O17: the engine moves in place of the waiting access, and clears BUSY as a reset does. -/
theorem bufferAccessWaits : Obligations.BufferAccessWaits := by
  refine ⟨fun s L op rest hb hl hu hs => ?_, fun s op rest _ hs => ?_, fun s op rest hu hs => ?_⟩
  · have hw : step s = engineStep s := step_of_stall hs (by simp [stalls, hu, hb])
    refine ⟨fun t ht => ?_, ?_⟩
    · obtain ⟨hbt, hat, hrt⟩ := engineStep_keepsTurns hl (hw ▸ ht)
      exact ⟨hbt, hat.trans hs, hrt, step_of_host (hat.trans hs) (stalls_of_idle hbt op)⟩
    · have hturn : step { s with agenda := .engine :: s.agenda } = engineStep s := step_of_engine rfl
      rw [hw, ← hs]
      exact hturn.symm
  · have hs' : s.popTurn.afterReset.agenda = .host op :: rest := by simp [hs]
    exact ⟨_, step_of_reset hs, rfl, fun _ => rfl, step_of_host hs' (stalls_of_idle rfl op)⟩
  · exact step_of_host hs (by simp [stalls, hu])

/-! What a command leaves of the memory (R79) -/

/-- A command without a window writes nothing and draws nothing. -/
theorem Completion.keepsMemory_of_noWindow {i : Instr} {L : Latch} {s t : State} (h : Completion i L s t)
    (hw : windowOf i L = none) : t.buf = s.buf ∧ t.draws = s.draws := by
  cases h with
  | checked => exact ⟨rfl, rfl⟩
  | reading => exact ⟨rfl, rfl⟩
  | writing w _ _ _ _ hsome => exact absurd (hw.symm.trans hsome) nofun

/-- Settles O37: none of the five commands has a window. -/
theorem readOnlyCommandsKeepMemory : Obligations.ReadOnlyCommandsKeepMemory := by
  intro s t L n i hi hl h
  have hw : windowOf i L = none := by
    simp only [List.mem_cons, List.not_mem_nil, or_false] at hi
    obtain rfl | rfl | rfl | rfl | rfl := hi <;> rfl
  obtain ⟨hbuf, hdraws⟩ := (completion_of_exec hl h).keepsMemory_of_noWindow hw
  exact ⟨fun a => by rw [hbuf], hbuf, hdraws⟩

/-- What a command with window `w` leaves of the memory: all of it, after a failed check, or all but the window, which it fills. -/
theorem Completion.buf_of_window {i : Instr} {L : Latch} {s t : State} {w : Region} (h : Completion i L s t)
    (hw : windowOf i L = some w) :
    t.buf = s.buf ∨
    (t.err = .ok ∨ t.err = .primFault ∨ t.err = .paddingInvalid) ∧
      ∃ bs, bs.length = w.len ∧ t.buf = Memory.writeRange s.buf w.addr bs := by
  cases h with
  | checked => exact .inl rfl
  | reading _ _ _ _ hnone => exact absurd (hnone.symm.trans hw) nofun
  | writing w' bs c o n hw' _ hbs hcode =>
    obtain rfl : w' = w := Option.some.inj (hw'.symm.trans hw)
    exact .inr ⟨hcode.imp id And.left, bs, hbs, rfl⟩

/-- Settles O38: outside the written range a byte stays, and inside it holds what was written. -/
theorem writesStayInWindow : Obligations.WritesStayInWindow := by
  intro s t L i w hl hw h
  obtain hbuf | ⟨herr, bs, hbs, hbuf⟩ := (completion_of_exec hl h).buf_of_window hw
  · exact ⟨fun _ _ => by rw [hbuf], fun _ _ _ => hbuf, fun hne => absurd hbuf hne⟩
  · rw [hbuf]
    refine ⟨fun a ha => Memory.get_writeRange_outside _ _ (hbs ▸ ha), fun hok hprim hpad => ?_, fun _ a hlo hhi => ?_⟩
    · exact absurd herr (by simp [hok, hprim, hpad])
    · obtain ⟨j, rfl⟩ := Nat.exists_eq_add_of_le hlo
      rw [Memory.get_writeRange_inside _ _ _ (by omega)]
      nofun

end Sys2Proof.Machine

/-! The encoding family (30_encoding.md): the opcode map, the decoder and the encoder, illegal words, the fields a command reads, and
the assembler and `wbs` of command scripts. -/

namespace Sys2Proof

/-! The rows of the opcode map (R96, R98) -/

theorem Row.accepts_iff {r : Row} {w : Word} : r.accepts w = true ↔ w &&& r.mask = r.pattern := beq_iff_eq

theorem opcField_eq_and (w : Word) : opcField w = (w &&& 0x0000001F#32).toNat := by
  rw [opcField, BitVec.extractLsb'_toNat, Nat.shiftRight_zero, BitVec.toNat_and]
  exact (Nat.and_two_pow_sub_one_eq_mod w.toNat 5).symm

theorem mask_covers_opc : ∀ r ∈ opcodeRows, r.mask &&& 0x0000001F#32 = 0x0000001F#32 := by decide

theorem pattern_and_mask : ∀ r ∈ opcodeRows, r.pattern &&& r.mask = r.pattern := by decide

/-- The rows differ in their OPC. -/
theorem row_eq_of_opcField : ∀ r ∈ opcodeRows, ∀ q ∈ opcodeRows, opcField r.pattern = opcField q.pattern → r = q := by decide

theorem opcField_pattern_bounds : ∀ r ∈ opcodeRows, 0 < opcField r.pattern ∧ opcField r.pattern < 0x0B := by decide

/-- Every assigned OPC value has a row. -/
theorem exists_row_of_opc : ∀ n < 0x0B, 0 < n → ∃ r ∈ opcodeRows, opcField r.pattern = n := by decide

/-- A word has the OPC of a row that accepts it. -/
theorem opcField_of_accepts {r : Row} {w : Word} (hr : r ∈ opcodeRows) (h : w &&& r.mask = r.pattern) :
    opcField w = opcField r.pattern := by
  rw [opcField_eq_and, opcField_eq_and, ← h, BitVec.and_assoc, mask_covers_opc r hr]

theorem row_eq_of_accepts {r q : Row} {w : Word} (hr : r ∈ opcodeRows) (hq : q ∈ opcodeRows) (h : w &&& r.mask = r.pattern)
    (h' : w &&& q.mask = q.pattern) : r = q :=
  row_eq_of_opcField r hr q hq ((opcField_of_accepts hr h).symm.trans (opcField_of_accepts hq h'))

/-- Settles O3: a row that matches a word has the word's OPC, in which the rows differ. -/
theorem atMostOneRowMatches : Obligations.AtMostOneRowMatches :=
  ⟨fun _ _ hr _ hq h h' => row_eq_of_accepts hr hq h h', mask_covers_opc⟩

/-! What `decode` answers -/

/-- A row that accepts the word is the first one that does, so it is the one `decode` takes. -/
theorem decode_of_accepts {r : Row} {w : Word} (hr : r ∈ opcodeRows) (h : w &&& r.mask = r.pattern) :
    decode w = .ok (buildInstr r.op (bsFieldOf w) (ivpFieldOf w)) := by
  unfold decode
  cases hf : opcodeRows.find? (fun r => r.accepts w) with
  | some q =>
    have hq : q.accepts w = true := List.find?_some (p := fun q : Row => q.accepts w) hf
    obtain rfl : q = r := row_eq_of_accepts (List.mem_of_find?_eq_some hf) hr (Row.accepts_iff.1 hq) h
    rfl
  | none => exact absurd (Row.accepts_iff.2 h) (List.find?_eq_none.1 hf r hr)

theorem decode_of_not_accepted {w : Word} (h : ∀ r ∈ opcodeRows, w &&& r.mask ≠ r.pattern) : ∃ e, decode w = .error e := by
  have hf : opcodeRows.find? (fun r => r.accepts w) = none :=
    List.find?_eq_none.2 fun r hr => mt Row.accepts_iff.1 (h r hr)
  unfold decode
  rw [hf]
  cases opcAssigned (opcField w) with
  | true => exact ⟨_, rfl⟩
  | false => exact ⟨_, rfl⟩

theorem decode_eq_ok_iff {w : Word} {i : Instr} :
    decode w = .ok i ↔ ∃ r ∈ opcodeRows, w &&& r.mask = r.pattern ∧ i = buildInstr r.op (bsFieldOf w) (ivpFieldOf w) := by
  constructor
  · intro hi
    by_contra hno
    obtain ⟨e, he⟩ := decode_of_not_accepted fun r hr h =>
      hno ⟨r, hr, h, Except.ok.inj (hi.symm.trans (decode_of_accepts hr h))⟩
    cases hi.symm.trans he
  · rintro ⟨r, hr, h, rfl⟩
    exact decode_of_accepts hr h

theorem decode_eq_error_iff {w : Word} : (∃ e, decode w = .error e) ↔ ∀ r ∈ opcodeRows, w &&& r.mask ≠ r.pattern := by
  refine ⟨?_, decode_of_not_accepted⟩
  rintro ⟨e, he⟩ r hr h
  cases he.symm.trans (decode_of_accepts hr h)

/-! The encoder against the rows: a word is what its row fixes, and its IVP and BS fields elsewhere (R91, R95) -/

/-- IVP at bit 8, as `encode` places it. -/
def ivpBits (ivp : Bool) : Word := if ivp then 0x00000100#32 else 0#32

/-- BS at bits 23:16, as `encode` places it. -/
def bsBits (n : Nat) : Word := BitVec.ofNat 32 (n % 256) <<< 16

theorem encode_eq (i : Instr) : encode i = BitVec.ofNat 32 (opcodeOf i) ||| ivpBits (ivpOf i) ||| bsBits i.bsField := rfl

theorem bsBits_getLsbD (n j : Nat) : (bsBits n).getLsbD j = (decide (16 ≤ j ∧ j < 24) && n.testBit (j - 16)) := by
  have h256 : (n % 256).testBit (j - 16) = (decide (j - 16 < 8) && n.testBit (j - 16)) := Nat.testBit_mod_two_pow n 8 _
  rw [bsBits, BitVec.getLsbD_shiftLeft, BitVec.getLsbD_ofNat, h256]
  grind

theorem bsMask_getLsbD : ∀ j < 32, (0x00FF0000#32).getLsbD j = decide (16 ≤ j ∧ j < 24) := by decide

theorem bsBits_and_bsMask (n : Nat) : bsBits n &&& 0x00FF0000#32 = bsBits n := by
  apply BitVec.eq_of_getLsbD_eq
  intro j hj
  rw [BitVec.getLsbD_and, bsBits_getLsbD, bsMask_getLsbD j hj]
  grind

/-- The BS field put back in its place. -/
theorem bsBits_bsFieldOf (w : Word) : bsBits (bsFieldOf w) = w &&& 0x00FF0000#32 := by
  apply BitVec.eq_of_getLsbD_eq
  intro j hj
  rw [BitVec.getLsbD_and, bsBits_getLsbD, bsMask_getLsbD j hj, bsFieldOf, BitVec.testBit_toNat, BitVec.getLsbD_extractLsb']
  grind

/-- The IVP bit put back in its place. -/
theorem ivpBits_ivpFieldOf (w : Word) : ivpBits (ivpFieldOf w) = w &&& 0x00000100#32 :=
  (BitVec.and_twoPow w 8).symm

/-- BS and IVP share no bit. -/
theorem bsBits_and_ivpMask (n : Nat) : bsBits n &&& 0x00000100#32 = 0 := by
  rw [← bsBits_and_bsMask, BitVec.and_assoc]
  exact BitVec.and_zero

theorem ivpBits_and_bsMask (ivp : Bool) : ivpBits ivp &&& 0x00FF0000#32 = 0 := by cases ivp <;> rfl

theorem ivpBits_and_ivpMask (ivp : Bool) : ivpBits ivp &&& 0x00000100#32 = ivpBits ivp := by cases ivp <;> rfl

theorem opcodeOf_buildInstr :
    ∀ r ∈ opcodeRows, ∀ n ivp, BitVec.ofNat 32 (opcodeOf (buildInstr r.op n ivp)) = r.pattern := by
  simp [opcodeRows, buildInstr, opcodeOf]

/-- A row leaves free the BS field, or IVP, or no bit, and its command carries that field alone (R95). -/
theorem free_field_of_row : ∀ r ∈ opcodeRows, ∀ n ivp,
    (~~~r.mask = 0x00FF0000#32 ∧ (buildInstr r.op n ivp).bsField = n ∧ ivpOf (buildInstr r.op n ivp) = false) ∨
    (~~~r.mask = 0x00000100#32 ∧ (buildInstr r.op n ivp).bsField = 0 ∧ ivpOf (buildInstr r.op n ivp) = ivp) ∨
    (~~~r.mask = 0#32 ∧ (buildInstr r.op n ivp).bsField = 0 ∧ ivpOf (buildInstr r.op n ivp) = false) := by
  simp [opcodeRows, buildInstr, Instr.bsField, ivpOf]

/-- The command of a row is encoded as what the row fixes, with BS and IVP where the row leaves bits free. -/
theorem encode_buildInstr {r : Row} (hr : r ∈ opcodeRows) (n : Nat) (ivp : Bool) :
    encode (buildInstr r.op n ivp) = r.pattern ||| ((ivpBits ivp ||| bsBits n) &&& ~~~r.mask) := by
  rw [encode_eq, opcodeOf_buildInstr r hr, BitVec.or_assoc, BitVec.and_or_distrib_right]
  obtain ⟨hm, hn, hi⟩ | ⟨hm, hn, hi⟩ | ⟨hm, hn, hi⟩ := free_field_of_row r hr n ivp
  · rw [hm, hn, hi, ivpBits_and_bsMask, bsBits_and_bsMask]
    rfl
  · rw [hm, hn, hi, ivpBits_and_ivpMask, bsBits_and_ivpMask]
    rfl
  · rw [hm, hn, hi, BitVec.and_zero, BitVec.and_zero]
    rfl

theorem encode_buildInstr_and_mask {r : Row} (hr : r ∈ opcodeRows) (n : Nat) (ivp : Bool) :
    encode (buildInstr r.op n ivp) &&& r.mask = r.pattern := by
  rw [encode_buildInstr hr, BitVec.and_or_distrib_right, pattern_and_mask r hr, BitVec.and_assoc, BitVec.and_comm (~~~r.mask),
    BitVec.and_not_self, BitVec.ofNat_eq_ofNat, BitVec.and_zero, BitVec.or_zero]

/-- BS and IVP taken from a word are that word's bits wherever a row leaves bits free. -/
theorem fields_and_not_mask {r : Row} (hr : r ∈ opcodeRows) (w : Word) :
    (ivpBits (ivpFieldOf w) ||| bsBits (bsFieldOf w)) &&& ~~~r.mask = w &&& ~~~r.mask := by
  have hfree : ∀ q ∈ opcodeRows, (0x00000100#32 ||| 0x00FF0000#32) &&& ~~~q.mask = ~~~q.mask := by decide
  rw [ivpBits_ivpFieldOf, bsBits_bsFieldOf, ← BitVec.and_or_distrib_left, BitVec.and_assoc, hfree r hr]

/-- A word that a row accepts is the encoding of the command with the word's fields. -/
theorem encode_of_accepts {r : Row} {w : Word} (hr : r ∈ opcodeRows) (h : w &&& r.mask = r.pattern) :
    encode (buildInstr r.op (bsFieldOf w) (ivpFieldOf w)) = w := by
  rw [encode_buildInstr hr, fields_and_not_mask hr, ← h, ← BitVec.and_or_distrib_left, BitVec.or_not_self, BitVec.and_allOnes]

theorem bsField_buildInstr_le (op : Op) (n : Nat) (ivp : Bool) : (buildInstr op n ivp).bsField ≤ n := by
  cases op <;> simp [buildInstr, Instr.bsField]

/-- An 8-bit BS field gives a well-formed command (R94). -/
theorem wellFormed_of_fields (op : Op) (w : Word) (ivp : Bool) : (buildInstr op (bsFieldOf w) ivp).WellFormed :=
  (bsField_buildInstr_le op _ ivp).trans (Nat.le_of_lt_succ (w.extractLsb' 16 8).isLt)

/-- Settles O2, from the row that accepts the word. -/
theorem encodeOfDecode : Obligations.EncodeOfDecode := by
  intro w i hi
  obtain ⟨r, hr, h, rfl⟩ := decode_eq_ok_iff.1 hi
  exact ⟨wellFormed_of_fields r.op w _, encode_of_accepts hr h⟩

/-- Every command is the one its row selects, with the fields it carries (R96). -/
theorem exists_row_of_instr (i : Instr) : ∃ r ∈ opcodeRows, buildInstr r.op i.bsField (ivpOf i) = i := by
  cases i <;> simp [opcodeRows, buildInstr, Instr.bsField, ivpOf]

theorem opcodeOf_lt (i : Instr) : opcodeOf i < 32 := by cases i <;> simp [opcodeOf]

/-- Settles O1: the row of a command accepts its word, whose BS and IVP fields are the command's. -/
theorem decodeOfEncode : Obligations.DecodeOfEncode := by
  intro i hwf
  obtain ⟨r, hr, hi⟩ := exists_row_of_instr i
  obtain ⟨-, hivp, hbs, -⟩ := Laws.encodeFields_of_opcode (opcodeOf_lt i) hwf
  have haccepts : encode i &&& r.mask = r.pattern := hi ▸ encode_buildInstr_and_mask hr i.bsField (ivpOf i)
  rw [decode_of_accepts hr haccepts, hbs, hivp, hi]

end Sys2Proof

namespace Sys2Proof.Machine

/-! Illegal words (R99) -/

/-- Which words `decode` rejects, by OPC: an unassigned one, or one whose row fixes a bit otherwise. -/
theorem decode_eq_error_iff_opcField {w : Word} :
    (∃ e, decode w = .error e) ↔
      (opcField w = 0x00 ∨ 0x0B ≤ opcField w ∨
        ∃ r ∈ opcodeRows, opcField r.pattern = opcField w ∧ w &&& r.mask ≠ r.pattern) := by
  rw [decode_eq_error_iff]
  constructor
  · intro hno
    by_cases hassigned : 0 < opcField w ∧ opcField w < 0x0B
    · obtain ⟨r, hr, hopc⟩ := exists_row_of_opc _ hassigned.2 hassigned.1
      exact .inr (.inr ⟨r, hr, hopc, hno r hr⟩)
    · omega
  · intro hillegal r hr h
    have hopc := opcField_of_accepts hr h
    obtain ⟨hpos, hlt⟩ := opcField_pattern_bounds r hr
    obtain hzero | hhigh | ⟨q, hq, hqw, hne⟩ := hillegal
    · omega
    · omega
    · obtain rfl : q = r := row_eq_of_opcField q hq r hr (hqw.trans hopc)
      exact hne h

theorem popTurn_of_nil {s : State} (h : s.agenda = []) : s.popTurn = s := by
  cases s
  cases h
  rfl

/-- The engine's turn with an illegal latched word, with an empty agenda or at an engine turn (R99, R228). -/
theorem step_of_illegal {s : State} {L : Latch} (hl : s.latch = some L) (hd : ∃ e, decode L.cmd = .error e)
    (hs : s.agenda = [] ∨ ∃ later, s.agenda = .engine :: later) :
    step s = .next (s.popTurn.raise .illegalCommand) := by
  obtain ⟨e, hd⟩ := hd
  obtain hs | ⟨later, hs⟩ := hs
  · rw [step_of_idle hs, engineStep_of_illegal hl hd, popTurn_of_nil hs]
  · have hpop : s.popTurn = { s with agenda := later } := by simp [State.popTurn, hs]
    rw [step_of_engine hs, ← hpop]
    exact engineStep_of_illegal (s := s.popTurn) hl hd

/-- A CMD write while BUSY = 0 is accepted, whatever the word (R227). -/
theorem step_of_cmdWrite {s : State} {w : Word} {rest : List Event} (hb : s.busy = false)
    (hs : s.agenda = .host (.regWrite .w32 0x014#12 w) :: rest) :
    step s = .next (State.accept { s with agenda := rest } w) := by
  have hcmd : ∀ u : State, regWrite u 0x014#12 w = u.writeCmd w := fun _ => rfl
  rw [step_of_regWrite hs (by decide), hcmd, writeCmd_of_idle]
  exact hb

/-- Settles O4: `decode` row by row, then the CMD write and the engine's turn. -/
theorem illegalWordsComplete : Obligations.IllegalWordsComplete := by
  refine ⟨fun _ => decode_eq_error_iff_opcField, ⟨_, rfl⟩, rfl, fun s L hl hd hs => step_of_illegal hl hd hs,
    fun s w rest hd hb hs => ?_⟩
  exact ⟨_, step_of_cmdWrite hb hs, rfl, rfl, rfl, fun hrest => step_of_illegal (L := ⟨w, s.ops⟩) rfl hd hrest⟩

/-! The worked encodings (R103) -/

/-- Settles O5: the legal words are encodings of the table's commands, and the illegal ones match no row. -/
theorem workedEncodings : Obligations.WorkedEncodings :=
  ⟨decodeOfEncode (.pad 16) (by decide), decodeOfEncode (.pvalid 16) (by decide), decodeOfEncode (.pstrip 8) (by decide),
    decodeOfEncode .ecbenc (by decide), decodeOfEncode .ecbdec (by decide), decodeOfEncode (.cbcenc false) (by decide),
    decodeOfEncode (.cbcenc true) (by decide), decodeOfEncode (.cbcdec true) (by decide), decodeOfEncode .hamd (by decide),
    decodeOfEncode (.hpair 5) (by decide), decodeOfEncode (.ecbdet 16) (by decide), decodeOfEncode (.pad 0) (by decide),
    decode_of_not_accepted (by decide), decode_of_not_accepted (by decide), decode_of_not_accepted (by decide)⟩

/-! The latch fields a command reads (R97) -/

/-- The operand registers with every one that command `i` does not read at 0 (R97's table). -/
def Operands.listed (o : Operands) : Instr → Operands
  | .pad _ => { Operands.zero with srcAddr := o.srcAddr, srcLen := o.srcLen, dstAddr := o.dstAddr }
  | .pvalid _ | .pstrip _ | .hpair _ | .ecbdet _ => { Operands.zero with srcAddr := o.srcAddr, srcLen := o.srcLen }
  | .hamd =>
    { Operands.zero with srcAddr := o.srcAddr, srcLen := o.srcLen, src2Addr := o.src2Addr, src2Len := o.src2Len }
  | .ecbenc | .ecbdec | .cbcenc false | .cbcdec false =>
    { Operands.zero with
      srcAddr := o.srcAddr, srcLen := o.srcLen, keyAddr := o.keyAddr, keyLen := o.keyLen, dstAddr := o.dstAddr }
  | .cbcenc true | .cbcdec true => { o with src2Addr := 0, src2Len := 0 }

/-- A command reads no latch field that R97 does not list for it, and not the latched word: each of its checks, regions and
windows is the same with those fields at 0. -/
theorem exec_listed (s : State) (L : Latch) (i : Instr) :
    exec i { s with latch := some L } = exec i { s with latch := some ⟨0, L.ops.listed i⟩ } := by
  cases i with
  | pad bs => rfl
  | pvalid bs => rfl
  | pstrip bs => rfl
  | ecbenc => rfl
  | ecbdec => rfl
  | cbcenc ivp => cases ivp <;> rfl
  | cbcdec ivp => cases ivp <;> rfl
  | hamd => rfl
  | hpair k => rfl
  | ecbdet bs => rfl

/-- Settles O45: two latches with the same listed fields run as one. -/
theorem unlistedFieldsAreIrrelevant : Obligations.UnlistedFieldsAreIrrelevant := by
  intro s L M i hsrc hsrcLen hsrc2 hkey hiv hdst
  have hlisted : L.ops.listed i = M.ops.listed i := by
    cases i with
    | pad bs => simp [Operands.listed, hsrc, hsrcLen, hdst bs]
    | pvalid bs => simp [Operands.listed, hsrc, hsrcLen]
    | pstrip bs => simp [Operands.listed, hsrc, hsrcLen]
    | ecbenc => simp [Operands.listed, hsrc, hsrcLen, hkey, hdst 0]
    | ecbdec => simp [Operands.listed, hsrc, hsrcLen, hkey, hdst 0]
    | cbcenc ivp => cases ivp <;> simp [Operands.listed, hsrc, hsrcLen, hkey, hiv, hdst 0]
    | cbcdec ivp => cases ivp <;> simp [Operands.listed, hsrc, hsrcLen, hkey, hiv, hdst 0]
    | hamd => simp [Operands.listed, hsrc, hsrcLen, hsrc2]
    | hpair k => simp [Operands.listed, hsrc, hsrcLen]
    | ecbdet bs => simp [Operands.listed, hsrc, hsrcLen]
  rw [exec_listed, hlisted, ← exec_listed]

/-! `wbs` (R106) -/

@[simp] theorem opsWbs_length (a : Nat) (bytes : List Byte) : (opsWbs a bytes).length = bytes.length := by
  induction bytes generalizing a with
  | nil => rfl
  | cons b bs ih => simp [opsWbs, ih]

theorem opsWbs_getElem? (a : Nat) (bytes : List Byte) {i : Nat} (h : i < bytes.length) :
    (opsWbs a bytes)[i]? = some (.bufWrite .w8 (a + i) (bytes[i].setWidth 32)) := by
  induction bytes generalizing a i with
  | nil => exact absurd h (Nat.not_lt_zero i)
  | cons b bs ih =>
    cases i with
    | zero => rfl
    | succ i =>
      rw [opsWbs, List.getElem?_cons_succ, ih (a + 1) (Nat.lt_of_succ_lt_succ h), Nat.add_right_comm a 1 i, Nat.add_assoc]
      rfl

/-- A byte that the host carries in a word is that byte again at the port. -/
theorem extractLsb'_setWidth_byte (b : Byte) : (b.setWidth 32).extractLsb' 0 8 = b := by
  apply BitVec.eq_of_toNat_eq
  have hb := b.isLt
  rw [BitVec.extractLsb'_toNat, BitVec.toNat_setWidth, Nat.shiftRight_zero]
  omega

/-- A write of one byte changes that byte, if it lies inside BUF_BYTES (R66, R67). -/
theorem get_bufWrite_one (s : State) (a x : Nat) (b : Byte) :
    Memory.get (bufWrite s a [b]).buf x = if x = a ∧ x < s.bufBytes then some b else Memory.get s.buf x := by
  by_cases hin : a + [b].length ≤ s.bufBytes
  · have hlt : a < s.bufBytes := hin
    rw [bufWrite_of_inside hin]
    by_cases hx : x = a
    · subst hx
      simp [hlt, Memory.writeRange]
    · simpa [hx, Memory.writeRange] using Memory.get_set_other s.buf b hx
  · have hle : s.bufBytes ≤ a := by simpa using hin
    rw [bufWrite_of_outside (by omega), if_neg (by omega)]

/-- A buffer write changes nothing but the buffer. -/
theorem bufWrite_eq (s : State) (a : Nat) (bs : List Byte) : bufWrite s a bs = { s with buf := (bufWrite s a bs).buf } := by
  unfold bufWrite
  split <;> rfl

/-- Settles O58: `wbs` byte by byte, and what each write does. -/
theorem wbsWritesAscending : Obligations.WbsWritesAscending := by
  intro a bytes i h
  refine ⟨opsWbs_length a bytes, opsWbs_getElem? a bytes h, fun s rest hb hs => ?_⟩
  refine ⟨_, (step_of_bufWrite8 hb hs).trans (congrArg _ ?_), fun x => get_bufWrite_one { s with agenda := rest } _ x _⟩
  rw [extractLsb'_setWidth_byte]
  exact bufWrite_eq _ _ _

/-! The assembler (R105) -/

theorem withImmediate_eq_some {n : Nat} {make : Nat → Instr} {i : Instr} :
    withImmediate n make = some i ↔ n ≤ 255 ∧ i = make n := by
  unfold withImmediate
  split <;> simp [*, eq_comm]

/-- Which texts with `bs=` alone the assembler accepts. -/
theorem assemble_bs {m : String} {n : Nat} {i : Instr} :
    assemble m (some n) none false = some i ↔ n ≤ 255 ∧
      (m = "pad" ∧ i = .pad n ∨ m = "pvalid" ∧ i = .pvalid n ∨ m = "pstrip" ∧ i = .pstrip n ∨
        m = "ecbdet" ∧ i = .ecbdet n) := by
  simp only [assemble]
  split_ifs with h1 h2 h3 h4
  · simp [h1, withImmediate_eq_some]
  · simp [h2, withImmediate_eq_some]
  · simp [h3, withImmediate_eq_some]
  · simp [h4, withImmediate_eq_some]
  · simp [h1, h2, h3, h4]

/-- Which texts with `k=` alone the assembler accepts. -/
theorem assemble_k {m : String} {n : Nat} {i : Instr} :
    assemble m none (some n) false = some i ↔ n ≤ 255 ∧ m = "hpair" ∧ i = .hpair n := by
  simp only [assemble]
  split_ifs with h1
  · simp [h1, withImmediate_eq_some]
  · simp [h1]

/-- Which texts without an immediate the assembler accepts. -/
theorem assemble_plain {m : String} {iv : Bool} {i : Instr} :
    assemble m none none iv = some i ↔
      (iv = false ∧ (m = "ecbenc" ∧ i = .ecbenc ∨ m = "ecbdec" ∧ i = .ecbdec ∨ m = "hamd" ∧ i = .hamd)) ∨
      (m = "cbcenc" ∧ i = .cbcenc iv ∨ m = "cbcdec" ∧ i = .cbcdec iv) := by
  simp only [assemble]
  split_ifs with h1 h2 h3 h4 h5 h6
  · simp [h1, eq_comm]
  · simp [h2, eq_comm]
  · simp [h1, h2, h3]
  · simp [h3, h4, eq_comm]
  · simp [h3, h5, eq_comm]
  · simp [h3, h6, eq_comm]
  · simp [h1, h2, h4, h5, h6]

/-- What the assembler accepts is well-formed: its immediate is at most 255, or it has none. -/
theorem wellFormed_of_assemble {m : String} {bs k : Option Nat} {iv : Bool} {i : Instr} (h : assemble m bs k iv = some i) :
    i.WellFormed := by
  match bs, k, iv with
  | some n, none, false =>
    obtain ⟨hn, ⟨-, rfl⟩ | ⟨-, rfl⟩ | ⟨-, rfl⟩ | ⟨-, rfl⟩⟩ := assemble_bs.1 h
    all_goals exact hn
  | none, some n, false =>
    obtain ⟨hn, -, rfl⟩ := assemble_k.1 h
    exact hn
  | none, none, iv =>
    obtain ⟨-, ⟨-, rfl⟩ | ⟨-, rfl⟩ | ⟨-, rfl⟩⟩ | ⟨-, rfl⟩ | ⟨-, rfl⟩ := assemble_plain.1 h
    all_goals exact Nat.zero_le 255
  | some _, none, true | none, some _, true | some _, some _, _ => simp [assemble] at h

/-- Every well-formed command has a text. -/
theorem exists_text_of_wellFormed {i : Instr} (h : i.WellFormed) : ∃ m bs k iv, assemble m bs k iv = some i := by
  cases i with
  | pad n => exact ⟨"pad", some n, none, false, assemble_bs.2 ⟨h, by simp⟩⟩
  | pvalid n => exact ⟨"pvalid", some n, none, false, assemble_bs.2 ⟨h, by simp⟩⟩
  | pstrip n => exact ⟨"pstrip", some n, none, false, assemble_bs.2 ⟨h, by simp⟩⟩
  | ecbdet n => exact ⟨"ecbdet", some n, none, false, assemble_bs.2 ⟨h, by simp⟩⟩
  | hpair n => exact ⟨"hpair", none, some n, false, assemble_k.2 ⟨h, rfl, rfl⟩⟩
  | ecbenc => exact ⟨"ecbenc", none, none, false, rfl⟩
  | ecbdec => exact ⟨"ecbdec", none, none, false, rfl⟩
  | cbcenc iv => exact ⟨"cbcenc", none, none, iv, rfl⟩
  | cbcdec iv => exact ⟨"cbcdec", none, none, iv, rfl⟩
  | hamd => exact ⟨"hamd", none, none, false, rfl⟩

/-- Settles O57: the texts by which of `bs=`, `k=` and `iv` they have; and what is accepted is well-formed, so its word decodes. -/
theorem assemblerSpellsLegalWords : Obligations.AssemblerSpellsLegalWords := by
  refine ⟨fun m bs k iv i => ?_, fun i => exists_text_of_wellFormed,
    fun m bs k iv i h => decodeOfEncode i (wellFormed_of_assemble h), fun i => rfl⟩
  match bs, k, iv with
  | some n, none, false => simp [assemble_bs]
  | none, some n, false => simp [assemble_k]
  | none, none, iv => simp [assemble_plain]
  | some _, none, true | none, some _, true | some _, some _, _ => simp [assemble]

end Sys2Proof.Machine

/-! The padding family (40_padding.md): the padded length, what a valid padding is and what stripping keeps of it, and where PAD,
PVALID and PSTRIP complete. -/

namespace Sys2Proof.Machine

/-! The padded length (R113) -/

/-- Settles O46: the three readings agree, and the pad length is at least 1. -/
theorem paddedLength : Obligations.PaddedLength := by
  intro n bs hbs
  have hp : 1 ≤ padp n bs := padp_pos hbs
  have hlen : paddedLen n bs = n + padp n bs := rfl
  exact ⟨fun x hx => hx ▸ padFn_length x bs, hlen, paddedLen_eq_mul hbs, by omega, paddedLen_mod hbs, by omega⟩

/-! Valid paddings and what stripping keeps (R112, R117) -/

/-- The last byte of a valid padding counts bytes that the sequence has, each equal to it: as many as a block holds at most, and
the sequence is a positive multiple of a block. -/
theorem last_byte_of_isValidFn {d : List Byte} {bs : Nat} {p : Byte} (hv : isValidFn d bs = true)
    (hlast : d.getLast? = some p) :
    1 ≤ p.toNat ∧ p.toNat ≤ bs ∧ p.toNat ≤ d.length ∧ d.length % bs = 0 ∧
      d.drop (d.length - p.toNat) = List.replicate p.toNat p := by
  obtain ⟨q, hq, hmod, hpos, hle, hall⟩ := isValidFn_iff.1 hv
  obtain rfl : p = q := Option.some.inj (hlast.symm.trans hq)
  have hd : 0 < d.length := List.length_pos_of_mem (List.mem_of_getLast? hlast)
  have hbs : bs ≤ d.length := Nat.le_of_dvd hd (Nat.dvd_of_mod_eq_zero hmod)
  have hpd : p.toNat ≤ d.length := hle.trans hbs
  exact ⟨hpos, hle, hpd, hmod, List.eq_replicate_iff.2 ⟨by rw [List.length_drop]; omega, hall⟩⟩

section
variable {c : List Byte} {p bs : Nat} (hpos : 1 ≤ p) (hle : p ≤ bs) (hbyte : p ≤ 255)
  (hmod : (c ++ List.replicate p (BitVec.ofNat 8 p)).length % bs = 0)
include hpos

theorem getLast?_append_padding : (c ++ List.replicate p (BitVec.ofNat 8 p)).getLast? = some (BitVec.ofNat 8 p) := by
  simp [List.getLast?_replicate, show p ≠ 0 by omega]

include hle hbyte hmod

/-- Whole blocks that end in p bytes p are a valid padding. -/
theorem isValidFn_append_padding : isValidFn (c ++ List.replicate p (BitVec.ofNat 8 p)) bs = true := by
  have hp : (BitVec.ofNat 8 p).toNat = p := Nat.mod_eq_of_lt (by omega)
  refine isValidFn_iff.2 ⟨_, getLast?_append_padding hpos, hmod, by rwa [hp], by rwa [hp], fun b hb => ?_⟩
  rw [hp, List.length_append, List.length_replicate, Nat.add_sub_cancel, List.drop_left] at hb
  exact List.eq_of_mem_replicate hb

/-- Stripping keeps what stands before the padding. -/
theorem stripFn_append_padding : stripFn (c ++ List.replicate p (BitVec.ofNat 8 p)) bs = some c.length := by
  have hp : (BitVec.ofNat 8 p).toNat = p := Nat.mod_eq_of_lt (by omega)
  refine stripFn_eq_some.2 ⟨isValidFn_append_padding hpos hle hbyte hmod, _, getLast?_append_padding hpos, ?_⟩
  rw [hp, List.length_append, List.length_replicate, Nat.add_sub_cancel]

end

/-- A valid padding, spelled out: whole blocks that end in p bytes p, for some p from 1 to the block size (R112). -/
theorem isValidFn_iff_append_padding {d : List Byte} {bs : Nat} :
    isValidFn d bs = true ↔ ∃ (c : List Byte) (p : Nat), 1 ≤ p ∧ p ≤ bs ∧ p ≤ 255 ∧
      d = c ++ List.replicate p (BitVec.ofNat 8 p) ∧ d.length % bs = 0 := by
  constructor
  · intro hv
    obtain ⟨p, hlast, -⟩ := isValidFn_iff.1 hv
    obtain ⟨hpos, hle, -, hmod, hdrop⟩ := last_byte_of_isValidFn hv hlast
    refine ⟨d.take (d.length - p.toNat), p.toNat, hpos, hle, Nat.le_of_lt_succ p.isLt, ?_, hmod⟩
    rw [BitVec.ofNat_toNat, BitVec.setWidth_eq, ← hdrop, List.take_append_drop]
  · rintro ⟨c, p, hpos, hle, hbyte, rfl, hmod⟩
    exact isValidFn_append_padding hpos hle hbyte hmod

/-- Settles O47: `pad_fn` appends a padding, and the last byte of a valid padding is none of those that (d) lists. -/
theorem paddingProperties : Obligations.PaddingProperties := by
  intro x bs hbs hbs'
  have hpos : 1 ≤ padp x.length bs := padp_pos hbs
  have hle : padp x.length bs ≤ bs := padp_le x.length bs
  have hmod : (padFn x bs).length % bs = 0 := by rw [padFn_length, paddedLen_mod hbs]
  refine ⟨isValidFn_append_padding hpos hle (by omega) hmod,
    ⟨stripFn_append_padding hpos hle (by omega) hmod, List.take_left⟩, fun hx => ?_, fun p hlast hbad => ?_⟩
  · rw [padFn_length, paddedLen, padp, hx]
    omega
  · refine stripFn_eq_none.2 (Bool.eq_false_iff.2 fun hv => ?_)
    obtain ⟨hone, -, hlen, -, hdrop⟩ := last_byte_of_isValidFn hv hlast
    obtain rfl | hlong | ⟨b, hb, hne⟩ := hbad
    · exact absurd hone (by decide)
    · omega
    · rw [hdrop] at hb
      exact hne (List.eq_of_mem_replicate hb)

/-! The three commands (R114 to R116) -/

/-- The checks of a command whose only operands are SRC and a block size or keysize of at least 1: SRC is in range. -/
theorem validate_of_src {N n : Nat} {i : Instr} {L : Latch} (hi : i ∈ [.pvalid n, .pstrip n, .hpair n, .ecbdet n])
    (hn : 1 ≤ n) (hin : inRange N L.src) : validate N i L = none := by
  have hz : (n == 0) = false := beq_eq_false_iff_ne.2 (by omega)
  have hreads : ∀ r ∈ [L.src], inRange N r := by simpa using hin
  simp only [List.mem_cons, List.not_mem_nil, or_false] at hi
  obtain rfl | rfl | rfl | rfl := hi <;> exact validate_eq_none.2 ⟨hz, rfl, rfl, rfl, hreads, nofun⟩

/-- The checks of PAD: SRC and the window are in range, and they do not overlap. -/
theorem validate_pad {N bs : Nat} {L : Latch} (hbs : 1 ≤ bs) (hin : inRange N L.src) (hwin : inRange N (L.padWindow bs))
    (hdisj : ¬ overlap (L.padWindow bs) L.src) : validate N (.pad bs) L = none := by
  refine validate_eq_none.2 ⟨beq_eq_false_iff_ne.2 (by omega), rfl, rfl, rfl, ?_, ?_⟩
  · simpa [readsOf] using hin
  · rintro w ⟨⟩
    exact ⟨hwin, by simpa [readsOf] using hdisj⟩

section
variable {s : State} {L : Latch} {bs : Nat} {d : List Byte} (hl : s.latch = some L)
  (hr : Memory.readRange s.buf L.src.addr L.src.len = .ok d)
include hl hr

theorem exec_pad_of_valid (hv : validate s.bufBytes (.pad bs) L = none) :
    exec (.pad bs) s =
      .next ((s.memWrite L.ops.dstAddr.toNat (padFn d bs)).finish .ok (word (paddedLen d.length bs)) 0 0) := by
  have hlen : d.length = L.ops.srcLen.toNat := Memory.readRange_length hr
  rw [exec, execPad, runCommand_of_valid hl hv, withRegion_of_ok hr, hlen]

theorem exec_pvalid_of_valid (hv : validate s.bufBytes (.pvalid bs) L = none) :
    exec (.pvalid bs) s = .next (s.finish .ok 0 (if isValidFn d bs then 1 else 0) 0) := by
  rw [exec, execPvalid, runCommand_of_valid hl hv, withRegion_of_ok hr]

theorem exec_pstrip_of_strip (hv : validate s.bufBytes (.pstrip bs) L = none) {m : Nat} (hm : stripFn d bs = some m) :
    exec (.pstrip bs) s = .next (s.finish .ok (word m) 0 0) := by
  rw [exec, execPstrip, runCommand_of_valid hl hv, withRegion_of_ok hr, hm]

theorem exec_pstrip_of_invalid (hv : validate s.bufBytes (.pstrip bs) L = none) (hm : isValidFn d bs = false) :
    exec (.pstrip bs) s = .next (s.raise .paddingInvalid) := by
  rw [exec, execPstrip, runCommand_of_valid hl hv, withRegion_of_ok hr, stripFn_eq_none.2 hm]

end

/-- Settles O21: the checks pass, and the padded bytes are SRC and p bytes p. -/
theorem padCompletes : Obligations.PadCompletes := by
  intro s L bs p d hl hbs hr hp hin hwin hdisj
  subst hp
  have hlen : d.length = L.ops.srcLen.toNat := Memory.readRange_length hr
  have hw : L.padWindow bs = ⟨L.ops.dstAddr.toNat, d.length + (bs - d.length % bs)⟩ := by
    rw [hlen]
    rfl
  exact exec_pad_of_valid hl hr (validate_pad hbs hin (hw ▸ hwin) (hw ▸ hdisj))

/-- Settles O22: RESULT is 1 if SRC is a valid padding, and a valid padding is spelled out. -/
theorem pvalidCompletes : Obligations.PvalidCompletes := by
  intro s L bs d hl hbs hin hr
  refine ⟨_, exec_pvalid_of_valid hl hr (validate_of_src (by simp) hbs hin), ?_, ?_⟩
  · exact (ite_eq_or_eq _ _ _).symm
  · rw [← isValidFn_iff_append_padding]
    cases isValidFn d bs <;> decide

/-- Settles O23: stripping a padded SRC keeps what stands before the padding, and stripping any other is invalid. -/
theorem pstripCompletes : Obligations.PstripCompletes := by
  intro s L bs d hl hbs hin hr
  have hv : validate s.bufBytes (.pstrip bs) L = none := validate_of_src (by simp) hbs hin
  refine ⟨fun c p hpos hle hbyte hd hmod => ?_, fun hinvalid => exec_pstrip_of_invalid hl hr hv hinvalid⟩
  subst hd
  exact exec_pstrip_of_strip hl hr hv (stripFn_append_padding hpos hle hbyte hmod)

end Sys2Proof.Machine

/-! The cipher mode family (41_cipher_modes.md): the primitive and its port, the mode loops block by block, what a changed block
changes, where the four commands complete, and the round trips. -/

namespace Sys2Proof.Machine

/-! The primitive and its port (R140, R141) -/

theorem block_finite : Finite Block := (List.finite_length_eq Byte 16).to_subtype

section
variable {P : Primitive} (ht : PrimTotal P) (hinv : PrimInv P) (k : Block)
include ht hinv

theorem enc_injective {b c : Block} (h : P.enc k b = P.enc k c) : b = c := by
  obtain ⟨x, hx⟩ := Option.ne_none_iff_exists'.1 (ht k b)
  exact Option.some.inj ((hinv k b x hx).symm.trans (hinv k c x (h ▸ hx)))

/-- An injective function of the finitely many blocks reaches each of them. -/
theorem exists_enc_eq (c : Block) : ∃ b, P.enc k b = some c := by
  choose f hf using fun b => Option.ne_none_iff_exists'.1 (ht k b)
  have hinj : Function.Injective f := fun a b hab => enc_injective ht hinv k (by rw [hf, hf, hab])
  have := block_finite
  obtain ⟨b, rfl⟩ := Finite.surjective_of_injective hinj c
  exact ⟨b, hf b⟩

theorem exists_dec_eq (c : Block) : ∃ b, P.dec k c = some b ∧ P.enc k b = some c := by
  obtain ⟨b, hb⟩ := exists_enc_eq ht hinv k c
  exact ⟨b, hinv k b c hb, hb⟩

end

theorem map_val_eq_some_iff {o : Option Block} {c : Block} : o.map Subtype.val = some c.val ↔ o = some c :=
  (Option.map_injective Subtype.val_injective).eq_iff (b := some c)

/-- Settles O48: `PrimEnc` is injective on finitely many blocks, and the port passes 16-byte keys and blocks on. -/
theorem primitiveContract : Obligations.PrimitiveContract :=
  ⟨fun _ ht hinv k => ⟨fun _ _ => enc_injective ht hinv k, exists_enc_eq ht hinv k, exists_dec_eq ht hinv k⟩,
    fun P d i k b c => by
      rw [primEnc_block, primDec_block]
      exact ⟨map_val_eq_some_iff, Option.map_eq_none_iff, map_val_eq_some_iff, Option.map_eq_none_iff⟩⟩

theorem primCall_block (f : Block → Block → Option Block) (d i : Nat) (k b : Block) :
    primCall f d i k.val b.val = (f k b).map Subtype.val := by
  simp [primCall, toBlock, k.2, b.2]

section
variable {f : Block → Block → Option Block} {d i : Nat} {k : Block} {x : List Byte} (hx : x.length = 16)
include hx

/-- When a call with a 16-byte key and a block answers. -/
theorem primCall_eq_some_iff {y : List Byte} :
    primCall f d i k.val x = some y ↔ ∃ b c : Block, b.val = x ∧ f k b = some c ∧ y = c.val := by
  obtain ⟨b, rfl⟩ : ∃ b : Block, b.val = x := ⟨⟨x, hx⟩, rfl⟩
  rw [primCall_block, Option.map_eq_some_iff]
  constructor
  · rintro ⟨c, hc, rfl⟩
    exact ⟨b, c, rfl, hc, rfl⟩
  · rintro ⟨b', c, hb, hc, rfl⟩
    exact ⟨c, Subtype.ext hb ▸ hc, rfl⟩

/-- When a call with a 16-byte key and a block faults. -/
theorem primCall_eq_none_iff : primCall f d i k.val x = none ↔ ∃ b : Block, b.val = x ∧ f k b = none := by
  obtain ⟨b, rfl⟩ : ∃ b : Block, b.val = x := ⟨⟨x, hx⟩, rfl⟩
  rw [primCall_block, Option.map_eq_none_iff]
  exact ⟨fun h => ⟨b, rfl, h⟩, fun ⟨b', hb, h⟩ => Subtype.ext hb ▸ h⟩

end

section
variable {P : Primitive} {d i j : Nat} {k a b x y : List Byte} (hk : k.length = 16)
include hk

/-- A call with a 16-byte key does not depend on its number. -/
theorem primEnc_call_congr (ha : a.length = 16) : primEnc P d k i a = primEnc P d k j a :=
  (primEnc_block P d i ⟨k, hk⟩ ⟨a, ha⟩).trans (primEnc_block P d j ⟨k, hk⟩ ⟨a, ha⟩).symm

/-- Ciphertext blocks under one key are equal exactly when their plaintext blocks are. -/
theorem primEnc_eq_iff (hinv : PrimInv P) (ha : a.length = 16) (hb : b.length = 16) (hx : primEnc P d k i a = some x)
    (hy : primEnc P d k j b = some y) : x = y ↔ a = b := by
  constructor
  · rintro rfl
    have hdec := primDec_of_primEnc hinv d 0 hk ha hx
    exact Option.some.inj (hdec.symm.trans (primDec_of_primEnc hinv d 0 hk hb hy))
  · rintro rfl
    exact Option.some.inj (hx.symm.trans ((primEnc_call_congr hk ha).trans hy))

/-- Under PRIM_TOTAL and PRIM_INV an encryption call undoes a decryption call. -/
theorem primEnc_of_primDec (ht : PrimTotal P) (hinv : PrimInv P) (j : Nat) (hx : x.length = 16)
    (ha : primDec P d k i x = some a) : primEnc P d k j a = some x := by
  obtain ⟨b, hdec, henc⟩ := exists_dec_eq ht hinv ⟨k, hk⟩ ⟨x, hx⟩
  rw [primDec_block P d i ⟨k, hk⟩ ⟨x, hx⟩, hdec] at ha
  obtain rfl : b.val = a := Option.some.inj ha
  rw [primEnc_block P d j ⟨k, hk⟩ b, henc]
  rfl

/-- Deciphered blocks under one key are equal exactly when their ciphertext blocks are. -/
theorem primDec_eq_iff (ht : PrimTotal P) (hinv : PrimInv P) (hx : x.length = 16) (hy : y.length = 16)
    (ha : primDec P d k i x = some a) (hb : primDec P d k j y = some b) : a = b ↔ x = y :=
  (primEnc_eq_iff hk hinv (primDec_blockValued P d k _ _ _ ha) (primDec_blockValued P d k _ _ _ hb)
    (primEnc_of_primDec hk ht hinv i hx ha) (primEnc_of_primDec hk ht hinv j hy hb)).symm

/-- Under PRIM_TOTAL and PRIM_INV a decryption call with a 16-byte key answers a block. -/
theorem primDec_blockTotal (ht : PrimTotal P) (hinv : PrimInv P) : BlockTotal (primDec P d k) := fun i x hx => by
  obtain ⟨b, hdec, -⟩ := exists_dec_eq ht hinv ⟨k, hk⟩ ⟨x, hx⟩
  exact ⟨b.val, by rw [primDec_block P d i ⟨k, hk⟩ ⟨x, hx⟩, hdec]; rfl, b.2⟩

end

/-! The mode loops block by block (R145 to R148) -/

theorem nblk_congr {s r : List Byte} (h : r.length = s.length) : nblk r = nblk s := by rw [nblk, h, nblk]

/-- Sequences of whole blocks with the same blocks are equal. -/
theorem eq_of_blk_eq {s r : List Byte} (hs : s.length % 16 = 0) (hlen : r.length = s.length)
    (h : ∀ j, j < nblk s → blk r j = blk s j) : r = s := by
  have hblocks : blocksOf r = blocksOf s := by
    rw [blocksOf, blocksOf, nblk_congr hlen]
    exact List.map_congr_left fun j hj => h j (List.mem_range.1 hj)
  rw [← flatten_blocksOf hs, ← flatten_blocksOf (s := r) (by rw [hlen, hs]), hblocks]

/-- What block j is chained with: the IV for j = 0, else the ciphertext block before it (R147, R148). -/
def chainValue (iv c : List Byte) (j : Nat) : List Byte := if j = 0 then iv else blk c (j - 1)

@[simp] theorem chainValue_zero (iv c : List Byte) : chainValue iv c 0 = iv := rfl

@[simp] theorem chainValue_succ (iv c : List Byte) (j : Nat) : chainValue iv c (j + 1) = blk c j := rfl

theorem chainValue_length {iv c : List Byte} (hiv : iv.length = 16) {j : Nat} (hj : j ≤ nblk c) :
    (chainValue iv c j).length = 16 := by
  cases j with
  | zero => exact hiv
  | succ j => exact blk_length hj

theorem cons_blocksOf_getElem {iv c : List Byte} {j : Nat} (h : j < (iv :: blocksOf c).length) :
    (iv :: blocksOf c)[j] = chainValue iv c j := by
  cases j with
  | zero => rfl
  | succ j => simp [blocksOf_getElem]

theorem nblk_of_length {s : List Byte} {n : Nat} (h : s.length = 16 * n) : nblk s = n := by
  rw [nblk, h, Config.cipherBs, Nat.mul_div_cancel_left n (by decide)]

section
variable {prim : Nat → List Byte → Option (List Byte)} (hp : BlockValued prim) {iv s out : List Byte}
include hp

/-- Answers of the primitive are blocks, so they are the blocks of their concatenation. -/
theorem blocksOf_answers {cs : List (List Byte)} (h : ∀ j, (hj : j < cs.length) → ∃ i b, prim i b = some cs[j]) :
    blocksOf cs.flatten = cs := by
  refine blocksOf_flatten fun c hc => ?_
  obtain ⟨j, hj, rfl⟩ := List.mem_iff_getElem.1 hc
  obtain ⟨i, b, hb⟩ := h j hj
  exact hp i b _ hb

theorem ecbLoop_blk (h : ecbLoop prim 0 (blocksOf s) = some out) {j : Nat} (hj : j < nblk s) :
    prim j (blk s j) = some (blk out j) := by
  obtain ⟨cs, hout, hlen, hcs⟩ := ecbLoop_some.1 h
  obtain rfl : cs = blocksOf out := by
    rw [hout, blocksOf_answers hp fun j hj => ⟨_, _, hcs j (hlen ▸ hj) hj⟩]
  have hj' : j < (blocksOf s).length := by simpa using hj
  simpa [blocksOf_getElem] using hcs j hj' (hlen ▸ hj')

theorem cbcEncLoop_blk (h : cbcEncLoop prim 0 iv (blocksOf s) = some out) {j : Nat} (hj : j < nblk s) :
    prim j (xorBytes (blk s j) (chainValue iv out j)) = some (blk out j) := by
  obtain ⟨cs, hout, hlen, hcs⟩ := cbcEncLoop_some.1 h
  obtain rfl : cs = blocksOf out := by
    rw [hout, blocksOf_answers hp fun j hj => ⟨_, _, hcs j (hlen ▸ hj) hj⟩]
  have hj' : j < (blocksOf s).length := by simpa using hj
  simpa [blocksOf_getElem, cons_blocksOf_getElem] using hcs j hj' (hlen ▸ hj')

theorem cbcDecLoop_blk (hiv : iv.length = 16) (h : cbcDecLoop prim 0 iv (blocksOf s) = some out) {j : Nat}
    (hj : j < nblk s) : ∃ x, prim j (blk s j) = some x ∧ blk out j = xorBytes x (chainValue iv s j) := by
  obtain ⟨ds, hlen, hds, rfl⟩ := cbcDecLoop_some.1 h
  have hj' : j < ds.length := by simpa [hlen] using hj
  have h16 : ∀ b ∈ List.zipWith xorBytes ds (iv :: blocksOf s), b.length = 16 := by
    intro b hb
    obtain ⟨m, hm, rfl⟩ := List.mem_iff_getElem.1 hb
    have hm' : m < ds.length := by rw [List.length_zipWith] at hm; omega
    have hx := hp _ _ _ (hds m (hlen ▸ hm') hm')
    have hms : m ≤ nblk s := by rw [hlen, blocksOf_length] at hm'; omega
    rw [List.getElem_zipWith, cons_blocksOf_getElem, xorBytes_length, hx, chainValue_length hiv hms, Nat.min_self]
  refine ⟨ds[j], by simpa [blocksOf_getElem] using hds j (hlen ▸ hj') hj', ?_⟩
  rw [blk_flatten h16 (by simp; omega), List.getElem_zipWith, cons_blocksOf_getElem]

theorem nblk_ecbLoop (h : ecbLoop prim 0 (blocksOf s) = some out) : nblk out = nblk s :=
  nblk_of_length (by rw [ecbLoop_length hp h, blocksOf_length])

theorem nblk_cbcEncLoop (h : cbcEncLoop prim 0 iv (blocksOf s) = some out) : nblk out = nblk s :=
  nblk_of_length (by rw [cbcEncLoop_length hp h, blocksOf_length])

end

/-! What a changed block changes (R151) -/

/-- XOR with a fixed sequence on the left is injective. -/
theorem xorBytes_left_inj {a b c : List Byte} (ha : a.length = c.length) (hb : b.length = c.length) :
    xorBytes c a = xorBytes c b ↔ a = b := by
  rw [xorBytes_comm c a, xorBytes_comm c b, xorBytes_right_inj ha hb]

theorem xorBytes_assoc (a b c : List Byte) : xorBytes (xorBytes a b) c = xorBytes a (xorBytes b c) := by
  induction a generalizing b c with
  | nil => simp [xorBytes]
  | cons x a ih =>
    cases b with
    | nil => simp [xorBytes]
    | cons y b =>
      cases c with
      | nil => simp [xorBytes]
      | cons z c =>
        have := ih b c
        simp only [xorBytes, List.zipWith_cons_cons] at this ⊢
        rw [this, BitVec.xor_assoc]

/-- Inputs of the primitive that differ in their block alone, or in their chaining value alone, differ. -/
theorem xorBytes_eq_iff {a b x y : List Byte} (ha : a.length = 16) (hb : b.length = 16) (hx : x.length = 16)
    (hy : y.length = 16) (h : a = b ∨ x = y) : xorBytes a x = xorBytes b y ↔ a = b ∧ x = y := by
  obtain rfl | rfl := h
  · rw [xorBytes_left_inj (hx.trans ha.symm) (hy.trans ha.symm), and_iff_right rfl]
  · rw [xorBytes_right_inj (ha.trans hx.symm) (hb.trans hx.symm), and_iff_left rfl]

section
variable {P : Primitive} {d i : Nat} {k iv p q c e : List Byte} (hk : k.length = 16) (hinv : PrimInv P)
  (hlen : q.length = p.length)
include hk hinv hlen

theorem blk_eq_iff_of_ecbLoop (hc : ecbLoop (primEnc P d k) 0 (blocksOf p) = some c)
    (he : ecbLoop (primEnc P d k) 0 (blocksOf q) = some e) {j : Nat} (hj : j < nblk p) :
    blk c j = blk e j ↔ blk p j = blk q j := by
  have hjq : j < nblk q := nblk_congr hlen ▸ hj
  have hp := primEnc_blockValued P d k
  exact primEnc_eq_iff hk hinv (blk_length hj) (blk_length hjq) (ecbLoop_blk hp hc hj) (ecbLoop_blk hp he hjq)

/-- In CBC a ciphertext block is decided by its plaintext block and what it is chained with, once one of the two is the same. -/
theorem blk_eq_iff_of_cbcEncLoop (hiv : iv.length = 16) (hc : cbcEncLoop (primEnc P d k) 0 iv (blocksOf p) = some c)
    (he : cbcEncLoop (primEnc P d k) 0 iv (blocksOf q) = some e) {j : Nat} (hj : j < nblk p)
    (h : blk p j = blk q j ∨ chainValue iv c j = chainValue iv e j) :
    blk c j = blk e j ↔ blk p j = blk q j ∧ chainValue iv c j = chainValue iv e j := by
  have hp := primEnc_blockValued P d k
  have hq : nblk q = nblk p := nblk_congr hlen
  have hpj := blk_length hj
  have hqj := blk_length (hq ▸ hj)
  have hcj : (chainValue iv c j).length = 16 := chainValue_length hiv (nblk_cbcEncLoop hp hc ▸ hj.le)
  have hej : (chainValue iv e j).length = 16 := chainValue_length hiv (nblk_cbcEncLoop hp he ▸ hq ▸ hj.le)
  rw [← xorBytes_eq_iff hpj hqj hcj hej h]
  exact primEnc_eq_iff hk hinv (by simp [hpj, hcj]) (by simp [hqj, hej]) (cbcEncLoop_blk hp hc hj)
    (cbcEncLoop_blk hp he (hq ▸ hj))

/-- A change of plaintext block i is carried to every later ciphertext block, by induction along the chain. -/
theorem blk_eq_iff_lt_of_cbcEncLoop (hiv : iv.length = 16) (hne : blk p i ≠ blk q i)
    (hother : ∀ j, j < nblk p → j ≠ i → blk p j = blk q j)
    (hc : cbcEncLoop (primEnc P d k) 0 iv (blocksOf p) = some c)
    (he : cbcEncLoop (primEnc P d k) 0 iv (blocksOf q) = some e) {j : Nat} (hj : j < nblk p) :
    blk c j = blk e j ↔ j < i := by
  induction j using Nat.strong_induction_on with
  | _ j ih =>
    have hchain : chainValue iv c j = chainValue iv e j ↔ j ≤ i := by
      cases j with
      | zero => simp
      | succ j => exact ih j (by omega) (by omega)
    by_cases hi : j = i
    · rw [blk_eq_iff_of_cbcEncLoop hk hinv hlen hiv hc he hj (.inr (hchain.2 hi.le))]
      exact iff_of_false (fun h => hne (hi ▸ h.1)) (by omega)
    · have hsame := hother j hj hi
      rw [blk_eq_iff_of_cbcEncLoop hk hinv hlen hiv hc he hj (.inl hsame), and_iff_right hsame, hchain]
      omega

end

/-- Settles O52: in ECB a ciphertext block tells its plaintext block, in CBC also the ciphertext block before it. -/
theorem encryptionErrorPropagation : Obligations.EncryptionErrorPropagation := by
  intro P d k iv p q i _ hinv hk hiv _ hlen _ hne hother
  refine ⟨fun c e hc he j hj => ?_, fun c e hc he j hj => ?_⟩
  · rw [blk_eq_iff_of_ecbLoop hk hinv hlen hc he hj]
    exact ⟨fun h hi => hne (hi ▸ h), hother j hj⟩
  · exact blk_eq_iff_lt_of_cbcEncLoop hk hinv hlen hiv hne hother hc he hj

/-! Bit-flipping locality of CBC decryption (R151 (c), (d)) -/

/-- Ciphertexts that differ in block i alone chain alike everywhere but at block i + 1. -/
theorem chainValue_eq_of_blk_eq {iv c e : List Byte} {i : Nat} (h : ∀ j, j < nblk c → j ≠ i → blk c j = blk e j) (j : Nat)
    (hj : j ≤ nblk c) (hji : j ≠ i + 1) : chainValue iv c j = chainValue iv e j := by
  cases j with
  | zero => rfl
  | succ j => exact h j hj (by omega)

section
variable {P : Primitive} {d : Nat} {k iv c e pc pe : List Byte} (hiv : iv.length = 16) (hlen : e.length = c.length)
  (hpc : cbcDecLoop (primDec P d k) 0 iv (blocksOf c) = some pc)
  (hpe : cbcDecLoop (primDec P d k) 0 iv (blocksOf e) = some pe) {j : Nat} (hj : j < nblk c)
include hiv hlen hpc hpe hj

/-- A deciphered block is the answer x of the primitive chained; the same ciphertext block has the same answer. -/
theorem blk_of_cbcDecLoop_of_eq (h : blk c j = blk e j) :
    ∃ x, x.length = 16 ∧ blk pc j = xorBytes x (chainValue iv c j) ∧ blk pe j = xorBytes x (chainValue iv e j) := by
  have hp := primDec_blockValued P d k
  have hje : j < nblk e := nblk_congr hlen ▸ hj
  obtain ⟨x, hx, hpcj⟩ := cbcDecLoop_blk hp hiv hpc hj
  obtain ⟨y, hy, hpej⟩ := cbcDecLoop_blk hp hiv hpe hje
  obtain rfl : x = y := Option.some.inj (hx.symm.trans (h ▸ hy))
  exact ⟨x, hp _ _ _ hx, hpcj, hpej⟩

/-- Different ciphertext blocks, chained with the same, are deciphered to different blocks. -/
theorem blk_ne_of_cbcDecLoop_of_ne (hk : k.length = 16) (ht : PrimTotal P) (hinv : PrimInv P) (h : blk c j ≠ blk e j)
    (hchain : chainValue iv c j = chainValue iv e j) : blk pc j ≠ blk pe j := by
  have hp := primDec_blockValued P d k
  have hje : j < nblk e := nblk_congr hlen ▸ hj
  have hcj := chainValue_length (c := c) hiv hj.le
  obtain ⟨x, hx, hpcj⟩ := cbcDecLoop_blk hp hiv hpc hj
  obtain ⟨y, hy, hpej⟩ := cbcDecLoop_blk hp hiv hpe hje
  rw [hpcj, hpej, ← hchain, Ne, xorBytes_right_inj ((hp _ _ _ hx).trans hcj.symm) ((hp _ _ _ hy).trans hcj.symm),
    primDec_eq_iff hk ht hinv (blk_length hj) (blk_length hje) hx hy]
  exact h

end

/-- Whether whole blocks end in a valid padding is decided by the last of them, since a pad length is at most 16. -/
theorem isValidFn_append_block {front last : List Byte} (hfront : front.length % 16 = 0) (hlast : last.length = 16) :
    isValidFn (front ++ last) 16 = isValidFn last 16 := by
  have hne : last ≠ [] := List.ne_nil_of_length_pos (by omega)
  rw [Bool.eq_iff_iff, isValidFn_iff, isValidFn_iff, List.getLast?_append_of_ne_nil _ hne]
  refine exists_congr fun p => and_congr_right fun _ => and_congr (by simp; omega) (and_congr_right fun _ =>
    and_congr_right fun hle => ?_)
  rw [List.length_append, Nat.add_sub_assoc (by omega), List.drop_length_add_append]

/-- The last block of a sequence of whole blocks, and what stands before it. -/
theorem append_last_blk {s : List Byte} (h16 : s.length % 16 = 0) (hn : 0 < nblk s) :
    ∃ front, front.length % 16 = 0 ∧ s = front ++ blk s (nblk s - 1) := by
  simp only [nblk, Config.cipherBs] at hn
  have hend : 16 * (nblk s - 1) + 16 = s.length := by simp only [nblk, Config.cipherBs]; omega
  refine ⟨s.take (16 * (nblk s - 1)), by rw [List.length_take]; omega, ?_⟩
  rw [blk, slice, Config.cipherBs, hend, List.take_length, List.take_append_drop]

theorem isValidFn_eq_last_blk {s : List Byte} (h16 : s.length % 16 = 0) (hn : 0 < nblk s) :
    isValidFn s 16 = isValidFn (blk s (nblk s - 1)) 16 := by
  obtain ⟨front, hfront, hs⟩ := append_last_blk h16 hn
  conv_lhs => rw [hs]
  exact isValidFn_append_block hfront (blk_length (by omega))

/-- Settles O53: a deciphered block is chained with the ciphertext block before it, and a pad length is at most 16. -/
theorem cbcDecryptionLocality : Obligations.CbcDecryptionLocality := by
  refine ⟨fun P d k iv c e pc pe i ht hinv hk hiv _ hlen hi hne hother hpc hpe => ?_, fun p q hp hq hnp hnq hlast => ?_⟩
  · have hchain := chainValue_eq_of_blk_eq (iv := iv) hother
    refine ⟨?_, fun hi' => ?_, fun j hj hji hji' => ?_⟩
    · exact blk_ne_of_cbcDecLoop_of_ne hiv hlen hpc hpe hi hk ht hinv hne (hchain i hi.le (by omega))
    · obtain ⟨x, hx, hxc, hxe⟩ := blk_of_cbcDecLoop_of_eq hiv hlen hpc hpe hi' (hother _ hi' (by omega))
      rw [hxc, hxe, chainValue_succ, chainValue_succ, ← xorBytes_assoc, xorBytes_cancel (hx.trans (blk_length hi).symm)]
    · obtain ⟨x, -, hxc, hxe⟩ := blk_of_cbcDecLoop_of_eq hiv hlen hpc hpe hj (hother j hj hji)
      rw [hxc, hxe, hchain j hj.le hji']
  · rw [stripFn_eq_none, stripFn_eq_none, isValidFn_eq_last_blk hp hnp, isValidFn_eq_last_blk hq hnq, hlast]

/-! Equal plaintext blocks (R152) -/

/-- Up to the last whole block, the detector's chunks at 16 are the blocks (R142, R200). -/
theorem achunk_eq_blk {s : List Byte} {j : Nat} (hj : j < nblk s) : achunk s 16 j = blk s j := by
  simp only [nblk, Config.cipherBs] at hj
  rw [achunk, blk, Config.cipherBs, Nat.min_eq_left (by omega)]

theorem hasRepeat_of_blk_eq {s : List Byte} {i j : Nat} (hij : i < j) (hj : j < nblk s) (h : blk s i = blk s j) :
    hasRepeat s 16 = true := by
  have hall : j < nall s 16 := by simp only [nblk, Config.cipherBs, nall] at hj ⊢; omega
  simp only [hasRepeat, List.any_eq_true, List.mem_range, beq_iff_eq]
  exact ⟨j, hall, i, hij, by rw [achunk_eq_blk hj, achunk_eq_blk (hij.trans hj), h]⟩

/-- Settles O54: the port answers equal inputs alike, and CBC chains block 1 with c_0 and block 0 with the IV. -/
theorem ecbFingerprint : Obligations.EcbFingerprint := by
  intro P d k iv p _ hinv hk hiv _ hn hp01
  have hp := primEnc_blockValued P d k
  have h0 : (blk p 0).length = 16 := blk_length (by omega)
  have h1 : (blk p 1).length = 16 := blk_length (by omega)
  refine ⟨fun c hc => ?_, fun c hc => ?_⟩
  · have heq : blk c 0 = blk c 1 :=
      (primEnc_eq_iff hk hinv h0 h1 (ecbLoop_blk hp hc (by omega)) (ecbLoop_blk hp hc (by omega))).2 hp01
    exact ⟨heq, hasRepeat_of_blk_eq (by decide) (by rw [nblk_ecbLoop hp hc]; omega) heq⟩
  · have hc0 : (blk c 0).length = 16 := blk_length (by rw [nblk_cbcEncLoop hp hc]; omega)
    have henc0 := cbcEncLoop_blk hp hc (j := 0) (by omega)
    have henc1 := cbcEncLoop_blk hp hc (j := 1) (by omega)
    rw [chainValue_zero] at henc0
    rw [chainValue_succ, ← hp01] at henc1
    rw [primEnc_eq_iff hk hinv (by simp [h0, hc0]) (by simp [h0, hiv]) henc1 henc0,
      xorBytes_left_inj (hc0.trans h0.symm) (hiv.trans h0.symm)]

/-! Where the mode loops fault (R145 to R148) -/

section
variable (prim : Nat → List Byte → Option (List Byte)) (i : Nat) (prev b : List Byte) (bl : List (List Byte))

theorem ecbLoop_cons : ecbLoop prim i (b :: bl) = (prim i b).bind fun c => (ecbLoop prim (i + 1) bl).map (c ++ ·) := by
  rw [ecbLoop]
  cases prim i b with
  | none => rfl
  | some c => cases ecbLoop prim (i + 1) bl <;> rfl

theorem cbcEncLoop_cons : cbcEncLoop prim i prev (b :: bl) =
    (prim i (xorBytes b prev)).bind fun c => (cbcEncLoop prim (i + 1) c bl).map (c ++ ·) := by
  rw [cbcEncLoop]
  cases prim i (xorBytes b prev) with
  | none => rfl
  | some c => cases h : cbcEncLoop prim (i + 1) c bl <;> simp [h]

theorem cbcDecLoop_cons : cbcDecLoop prim i prev (b :: bl) =
    (prim i b).bind fun d => (cbcDecLoop prim (i + 1) b bl).map (xorBytes d prev ++ ·) := by
  rw [cbcDecLoop]
  cases prim i b with
  | none => rfl
  | some d => cases cbcDecLoop prim (i + 1) b bl <;> rfl

end

theorem ecbLoop_eq_none_iff {prim : Nat → List Byte → Option (List Byte)} {i : Nat} {bl : List (List Byte)} :
    ecbLoop prim i bl = none ↔ ∃ j, ∃ h : j < bl.length, prim (i + j) bl[j] = none := by
  induction bl generalizing i with
  | nil => simp [ecbLoop]
  | cons b bl ih =>
    rw [ecbLoop_cons]
    cases hb : prim i b with
    | none => exact iff_of_true rfl ⟨0, by simp, hb⟩
    | some c =>
      have hrest : (∃ j, ∃ h : j < bl.length, prim (i + 1 + j) bl[j] = none) ↔
          ∃ j, ∃ h : j < (b :: bl).length, prim (i + j) (b :: bl)[j] = none := by
        rw [← Nat.or_exists_add_one (p := fun j => ∃ h : j < (b :: bl).length, prim (i + j) (b :: bl)[j] = none)]
        simp [hb, Nat.add_assoc, Nat.add_comm 1]
      rw [← hrest, ← ih, Option.bind_some, Option.map_eq_none_iff]

/-- CBC decryption calls the primitive on the blocks that ECB decryption calls it on. -/
theorem cbcDecLoop_eq_none_iff {prim : Nat → List Byte → Option (List Byte)} {i : Nat} {prev : List Byte}
    {bl : List (List Byte)} : cbcDecLoop prim i prev bl = none ↔ ecbLoop prim i bl = none := by
  induction bl generalizing i prev with
  | nil => simp [cbcDecLoop, ecbLoop]
  | cons b bl ih =>
    rw [cbcDecLoop_cons, ecbLoop_cons]
    cases prim i b with
    | none => rfl
    | some d => simpa using ih

/-- A CBC encryption that faults has answers up to the block it faults on. -/
theorem cbcEncLoop_eq_none {prim : Nat → List Byte → Option (List Byte)} {i : Nat} {prev : List Byte}
    {bl : List (List Byte)} (h : cbcEncLoop prim i prev bl = none) :
    ∃ cs : List (List Byte), ∃ hlt : cs.length < bl.length,
      (∀ j, (hj : j < cs.length) → prim (i + j) (xorBytes bl[j] ((prev :: cs)[j]'(by simp; omega))) = some cs[j]) ∧
      prim (i + cs.length) (xorBytes bl[cs.length] (prev :: cs)[cs.length]) = none := by
  induction bl generalizing i prev with
  | nil => simp [cbcEncLoop] at h
  | cons b bl ih =>
    rw [cbcEncLoop_cons] at h
    cases hb : prim i (xorBytes b prev) with
    | none => exact ⟨[], by simp, by simp, hb⟩
    | some c =>
      rw [hb, Option.bind_some, Option.map_eq_none_iff] at h
      obtain ⟨cs, hlt, hcs, hnone⟩ := ih h
      refine ⟨c :: cs, by simpa using hlt, fun j hj => ?_, by simpa [Nat.add_assoc, Nat.add_comm 1] using hnone⟩
      cases j with
      | zero => exact hb
      | succ j => simpa [Nat.add_assoc, Nat.add_comm 1] using hcs j (by simpa using hj)

theorem ecbLoop_blocksOf_eq_none_iff {prim : Nat → List Byte → Option (List Byte)} {s : List Byte} :
    ecbLoop prim 0 (blocksOf s) = none ↔ ∃ j, j < nblk s ∧ prim j (blk s j) = none := by
  simp [ecbLoop_eq_none_iff, blocksOf_getElem]

/-- `c` is the ciphertext of the first blocks of `s`, each chained with the one before it (R147). -/
def CbcEnciphers (prim : Nat → List Byte → Option (List Byte)) (iv s c : List Byte) : Prop :=
  ∀ j, j < nblk c → prim j (xorBytes (blk s j) (chainValue iv c j)) = some (blk c j)

theorem cbcEncLoop_enciphers {prim : Nat → List Byte → Option (List Byte)} (hp : BlockValued prim) {iv s c : List Byte}
    (h : cbcEncLoop prim 0 iv (blocksOf s) = some c) : CbcEnciphers prim iv s c :=
  fun _ hj => cbcEncLoop_blk hp h (nblk_cbcEncLoop hp h ▸ hj)

theorem exists_enciphers_of_fault {prim : Nat → List Byte → Option (List Byte)} (hp : BlockValued prim) {iv s : List Byte}
    (h : cbcEncLoop prim 0 iv (blocksOf s) = none) :
    ∃ c, CbcEnciphers prim iv s c ∧ nblk c < nblk s ∧
      prim (nblk c) (xorBytes (blk s (nblk c)) (chainValue iv c (nblk c))) = none := by
  obtain ⟨cs, hlt, hcs, hnone⟩ := cbcEncLoop_eq_none h
  have hblocks : blocksOf cs.flatten = cs := blocksOf_answers hp fun j hj => ⟨_, _, hcs j hj⟩
  obtain ⟨c, rfl⟩ : ∃ c, cs = blocksOf c := ⟨_, hblocks.symm⟩
  refine ⟨c, fun j hj => ?_, by simpa using hlt, ?_⟩
  · have hj' : j < (blocksOf c).length := by simpa using hj
    simpa [blocksOf_getElem, cons_blocksOf_getElem] using hcs j hj'
  · simpa [blocksOf_getElem, cons_blocksOf_getElem] using hnone

/-- The ECB loop on the port under a 16-byte key faults exactly when the primitive answers none for one of the blocks. -/
theorem ecbLoop_primCall_eq_none_iff {f : Block → Block → Option Block} {d : Nat} {k : Block} {s : List Byte} :
    ecbLoop (fun i b => primCall f d i k.val b) 0 (blocksOf s) = none ↔
      ∃ (j : Nat) (b : Block), j < nblk s ∧ b.val = blk s j ∧ f k b = none := by
  rw [ecbLoop_blocksOf_eq_none_iff]
  refine exists_congr fun j => ?_
  rw [exists_and_left]
  exact and_congr_right fun hj => primCall_eq_none_iff (blk_length hj)

theorem chained_input_length {iv s c : List Byte} (hiv : iv.length = 16) {j : Nat} (hjc : j ≤ nblk c) (hj : j < nblk s) :
    (xorBytes (blk s j) (chainValue iv c j)).length = 16 := by
  rw [xorBytes_length, blk_length hj, chainValue_length hiv hjc, Nat.min_self]

/-- The enciphered blocks as answers of the primitive. -/
theorem CbcEnciphers.answers {P : Primitive} {d : Nat} {k : Block} {iv s c : List Byte}
    (h : CbcEnciphers (primEnc P d k.val) iv s c) (hiv : iv.length = 16) (hle : nblk c ≤ nblk s) (j : Nat) (hj : j < nblk c) :
    ∃ b y : Block, b.val = xorBytes (blk s j) (chainValue iv c j) ∧ P.enc k b = some y ∧ blk c j = y.val :=
  (primCall_eq_some_iff (chained_input_length hiv hj.le (hj.trans_le hle))).1 (h j hj)

/-! What the four commands do (R145 to R148) -/

theorem withRegion_eq_next_iff {s t : State} {r : Region} {k : List Byte → Result} :
    withRegion s r k = .next t ↔ ∃ bs, Memory.readRange s.buf r.addr r.len = .ok bs ∧ k bs = .next t := by
  constructor
  · intro h
    obtain ⟨bs, hr, -, hk⟩ := withRegion_next h
    exact ⟨bs, hr, hk⟩
  · rintro ⟨bs, hr, hk⟩
    rw [withRegion_of_ok hr, hk]

/-- `iv` is the IV of a CBC command: the IV region's bytes if IVP = 1, else sixteen zeros (R144). -/
def ReadsIv (ivp : Bool) (m : Memory) (L : Latch) (iv : List Byte) : Prop :=
  if ivp then Memory.readRange m L.iv.addr L.iv.len = .ok iv else iv = zeros 16

theorem ReadsIv.length {ivp : Bool} {m : Memory} {L : Latch} {iv : List Byte} (h : ReadsIv ivp m L iv) : iv.length = 16 := by
  cases ivp with
  | false => rw [show iv = zeros 16 from h, zeros_length]
  | true => exact Memory.readRange_length h

theorem withIv_eq_next_iff {ivp : Bool} {s t : State} {L : Latch} {k : List Byte → Result} :
    withIv ivp s L k = .next t ↔ ∃ iv, ReadsIv ivp s.buf L iv ∧ k iv = .next t := by
  cases ivp with
  | false => exact (exists_eq_left (p := fun iv => k iv = .next t)).symm
  | true => exact withRegion_eq_next_iff

section
variable {P : Primitive} {s t : State} {L : Latch} (hl : s.latch = some L)
include hl

theorem ecbenc_eq_next_iff (hv : validate s.bufBytes .ecbenc L = none) :
    execWith P .ecbenc s = .next t ↔
      ∃ k, Memory.readRange s.buf L.key.addr L.key.len = .ok k ∧
      ∃ x, Memory.readRange s.buf L.src.addr L.src.len = .ok x ∧
      finishEncrypt s (L.padWindow 16) (ecbLoop (primEnc P s.draws k) 0 (blocksOf (padFn x 16))) = t := by
  simp only [execWith, ecbencWith, runCommand_of_valid hl hv, withRegion_eq_next_iff, Host.Outcome.next.injEq]
  rfl

theorem ecbdec_eq_next_iff (hv : validate s.bufBytes .ecbdec L = none) :
    execWith P .ecbdec s = .next t ↔
      ∃ k, Memory.readRange s.buf L.key.addr L.key.len = .ok k ∧
      ∃ c, Memory.readRange s.buf L.src.addr L.src.len = .ok c ∧
      finishDecrypt s L.decWindow (ecbLoop (primDec P s.draws k) 0 (blocksOf c)) = t := by
  simp only [execWith, ecbdecWith, runCommand_of_valid hl hv, withRegion_eq_next_iff, Host.Outcome.next.injEq]

theorem cbcenc_eq_next_iff {ivp : Bool} (hv : validate s.bufBytes (.cbcenc ivp) L = none) :
    execWith P (.cbcenc ivp) s = .next t ↔
      ∃ k, Memory.readRange s.buf L.key.addr L.key.len = .ok k ∧
      ∃ x, Memory.readRange s.buf L.src.addr L.src.len = .ok x ∧
      ∃ iv, ReadsIv ivp s.buf L iv ∧
      finishEncrypt s (L.padWindow 16) (cbcEncLoop (primEnc P s.draws k) 0 iv (blocksOf (padFn x 16))) = t := by
  simp only [execWith, cbcencWith, runCommand_of_valid hl hv, withRegion_eq_next_iff, withIv_eq_next_iff,
    Host.Outcome.next.injEq]
  rfl

theorem cbcdec_eq_next_iff {ivp : Bool} (hv : validate s.bufBytes (.cbcdec ivp) L = none) :
    execWith P (.cbcdec ivp) s = .next t ↔
      ∃ k, Memory.readRange s.buf L.key.addr L.key.len = .ok k ∧
      ∃ c, Memory.readRange s.buf L.src.addr L.src.len = .ok c ∧
      ∃ iv, ReadsIv ivp s.buf L iv ∧
      finishDecrypt s L.decWindow (cbcDecLoop (primDec P s.draws k) 0 iv (blocksOf c)) = t := by
  simp only [execWith, cbcdecWith, runCommand_of_valid hl hv, withRegion_eq_next_iff, withIv_eq_next_iff,
    Host.Outcome.next.injEq]

end

/-- The checks of a mode command: the regions it reads and its window w are in range, w is clear of the regions, and with IVP = 1
the IV has 16 bytes (R144, R225). -/
structure ModeRegions (N : Nat) (ivp : Bool) (L : Latch) (w : Region) : Prop where
  window : inRange N w
  src    : inRange N L.src ∧ ¬ overlap w L.src
  key    : inRange N L.key ∧ ¬ overlap w L.key
  iv     : ivp = true → L.ops.ivLen.toNat = 16 ∧ inRange N L.iv ∧ ¬ overlap w L.iv

theorem forall_modeReads_iff {ivp : Bool} {L : Latch} {p : Region → Prop} :
    (∀ r ∈ [L.src, L.key] ++ ivReads ivp L, p r) ↔ p L.src ∧ p L.key ∧ (ivp = true → p L.iv) := by
  cases ivp <;> simp [ivReads]

theorem badIvLength_cbcenc {ivp : Bool} {L : Latch} :
    badIvLength (.cbcenc ivp) L = false ↔ (ivp = true → L.ops.ivLen.toNat = 16) := by
  simp [badIvLength, Config.cipherBs]

theorem validate_mode_iff {N : Nat} {i : Instr} {ivp : Bool} {L : Latch} {w : Region} (hw : windowOf i L = some w)
    (hr : readsOf i L = [L.src, L.key] ++ ivReads ivp L) (hz : zeroBlockSize i = false)
    (hb : badIvLength i L = badIvLength (.cbcenc ivp) L) (hm : lengthMismatch i L = false) :
    validate N i L = none ↔ badLength i L = false ∧ ModeRegions N ivp L w := by
  rw [validate_eq_none, hb, badIvLength_cbcenc, hr, hw, forall_modeReads_iff]
  constructor
  · rintro ⟨-, hiv, hlen, -, ⟨hsrc, hkey, hin⟩, hwin⟩
    obtain ⟨hwin, hclear⟩ := hwin w rfl
    obtain ⟨hsrc', hkey', hclear⟩ := forall_modeReads_iff.1 hclear
    exact ⟨hlen, hwin, ⟨hsrc, hsrc'⟩, ⟨hkey, hkey'⟩, fun h => ⟨hiv h, hin h, hclear h⟩⟩
  · rintro ⟨hlen, hwin, ⟨hsrc, hsrc'⟩, ⟨hkey, hkey'⟩, hiv⟩
    refine ⟨hz, fun h => (hiv h).1, hlen, hm, ⟨hsrc, hkey, fun h => (hiv h).2.1⟩, ?_⟩
    rintro _ ⟨⟩
    exact ⟨hwin, forall_modeReads_iff.2 ⟨hsrc', hkey', fun h => (hiv h).2.2⟩⟩

theorem validate_cbcenc_iff {N : Nat} {ivp : Bool} {L : Latch} :
    validate N (.cbcenc ivp) L = none ↔ ModeRegions N ivp L (L.padWindow 16) :=
  (validate_mode_iff rfl rfl rfl rfl rfl).trans (and_iff_right rfl)

theorem validate_cbcdec_iff {N : Nat} {ivp : Bool} {L : Latch} :
    validate N (.cbcdec ivp) L = none ↔ L.ops.srcLen.toNat % 16 = 0 ∧ ModeRegions N ivp L L.decWindow := by
  rw [validate_mode_iff (i := .cbcdec ivp) rfl rfl rfl rfl rfl]
  simp [badLength, Config.cipherBs]

/-- ECB commands are checked as CBC commands without an IV. -/
theorem validate_ecbenc_iff {N : Nat} {L : Latch} :
    validate N .ecbenc L = none ↔ ModeRegions N false L (L.padWindow 16) := validate_cbcenc_iff (ivp := false)

theorem validate_ecbdec_iff {N : Nat} {L : Latch} :
    validate N .ecbdec L = none ↔ L.ops.srcLen.toNat % 16 = 0 ∧ ModeRegions N false L L.decWindow :=
  validate_cbcdec_iff (ivp := false)

/-! Where the four commands complete (R145 to R148, R79) -/

/-- The end of an encryption: the window takes the ciphertext, or free bytes after a fault. -/
theorem exists_finishEncrypt_eq {s : State} {w : Region} {o : Option (List Byte)}
    (hlen : ∀ c, o = some c → c.length = w.len) :
    ∃ (fault : Bool) (out : List Byte), out.length = w.len ∧ (fault = true ↔ o = none) ∧ (fault = false → o = some out) ∧
      finishEncrypt s w o =
        { s with
          buf := Memory.writeRange s.buf w.addr out, err := if fault then .primFault else .ok,
          outLen := if fault then 0 else word w.len, result := 0, result2 := 0,
          busy := false, done := true, latch := none, draws := s.draws + 1 } := by
  cases o with
  | none => exact ⟨true, drawnBytes s.draws w.len, drawnBytes_length _ _, by simp, by simp, rfl⟩
  | some c => exact ⟨false, c, hlen c rfl, by simp, by simp, rfl⟩

/-- The end of a decryption: the window takes the plaintext if its padding is valid, or free bytes after an error. -/
theorem exists_finishDecrypt_eq {s : State} {w : Region} {o : Option (List Byte)}
    (hlen : ∀ p, o = some p → p.length = w.len) :
    ∃ (fault : Bool) (pd free : List Byte), pd.length = w.len ∧ free.length = w.len ∧ (fault = true ↔ o = none) ∧
      (fault = false → o = some pd) ∧
      finishDecrypt s w o =
        { s with
          buf := Memory.writeRange s.buf w.addr (if fault = false ∧ isValidFn pd 16 = true then pd else free)
          err := if fault then .primFault else if isValidFn pd 16 then .ok else .paddingInvalid
          outLen := if fault then 0 else word ((stripFn pd 16).getD 0), result := 0, result2 := 0,
          busy := false, done := true, latch := none, draws := s.draws + 1 } := by
  have hfree := drawnBytes_length s.draws w.len
  cases o with
  | none => exact ⟨true, drawnBytes s.draws w.len, drawnBytes s.draws w.len, hfree, hfree, by simp, by simp, rfl⟩
  | some p =>
    refine ⟨false, p, drawnBytes s.draws w.len, hlen p rfl, hfree, by simp, by simp, ?_⟩
    rw [finishDecrypt, Config.cipherBs]
    cases hm : stripFn p 16 with
    | none =>
      rw [stripFn_eq_none.1 hm]
      rfl
    | some m =>
      rw [(stripFn_eq_some.1 hm).1]
      rfl

/-- The window of an encryption has the padded length of what SRC holds (R79, R113). -/
theorem padWindow_len_of_read {m : Memory} {L : Latch} {x : List Byte}
    (h : Memory.readRange m L.src.addr L.src.len = .ok x) : (L.padWindow 16).len = (padFn x 16).length := by
  rw [padFn_length, Memory.readRange_length h]
  rfl

/-- What a statement asks of the IV of a CBC command with window w. -/
theorem readsIv_of_operands {ivp : Bool} {s : State} {L : Latch} {w : Region} {iv : List Byte}
    (h : if ivp then L.ops.ivLen.toNat = 16 ∧ Memory.readRange s.buf L.ops.ivAddr.toNat 16 = .ok iv ∧
        L.ops.ivAddr.toNat + 16 ≤ s.bufBytes ∧ ¬ overlap w ⟨L.ops.ivAddr.toNat, 16⟩
      else iv = zeros 16) :
    ReadsIv ivp s.buf L iv ∧ (ivp = true → L.ops.ivLen.toNat = 16 ∧ inRange s.bufBytes L.iv ∧ ¬ overlap w L.iv) := by
  cases ivp with
  | false => exact ⟨h, nofun⟩
  | true =>
    obtain ⟨hlen, hread, hregion⟩ := h
    exact ⟨hread, fun _ => ⟨hlen, hregion⟩⟩

/-- Settles O24: the loop faults exactly when the primitive answers none for a block, and else its block j is the answer. -/
theorem ecbencCompletes : Obligations.EcbencCompletes := by
  intro s L k x n hl hkey hsrc hn hins hink hwin hds hdk
  obtain rfl : n = (L.padWindow 16).len := by rw [hn, padWindow_len_of_read hsrc, padFn_length]; rfl
  have hreg : ModeRegions s.bufBytes false L (L.padWindow 16) :=
    ⟨hwin, ⟨hins, hds⟩, ⟨hink, hdk⟩, nofun⟩
  have hp := primEnc_blockValued Config.primitive s.draws k.val
  have hblocks : nblk (padFn x 16) = (L.padWindow 16).len / 16 := by rw [padWindow_len_of_read hsrc]; rfl
  obtain ⟨fault, out, hlen, hfault, hout, hend⟩ := exists_finishEncrypt_eq (s := s) (w := L.padWindow 16)
    (o := ecbLoop (primEnc Config.primitive s.draws k.val) 0 (blocksOf (padFn x 16))) fun c hc =>
      (ecbLoop_length hp hc).trans (padded_blocks_length (Memory.readRange_length hsrc))
  refine ⟨fault, out, hlen, hblocks ▸ hfault.trans ecbLoop_primCall_eq_none_iff, fun hf j hj => ?_, ?_⟩
  · have hj' : j < nblk (padFn x 16) := hblocks ▸ hj
    exact (primCall_eq_some_iff (blk_length hj')).1 (ecbLoop_blk hp (hout hf) hj')
  · rw [exec_eq]
    exact (ecbenc_eq_next_iff hl (validate_ecbenc_iff.2 hreg)).2 ⟨k.val, hkey, x, hsrc, hend⟩

/-- Settles O25: the ciphertext goes as far as the primitive answers the chained blocks. -/
theorem cbcencCompletes : Obligations.CbcencCompletes := by
  intro s L ivp k x iv n hl hkey hsrc hiv hn hins hink hwin hds hdk
  obtain rfl : n = (L.padWindow 16).len := by rw [hn, padWindow_len_of_read hsrc, padFn_length]; rfl
  obtain ⟨hreads, hregion⟩ := readsIv_of_operands hiv
  have hreg : ModeRegions s.bufBytes ivp L (L.padWindow 16) := ⟨hwin, ⟨hins, hds⟩, ⟨hink, hdk⟩, hregion⟩
  have hp := primEnc_blockValued Config.primitive s.draws k.val
  have hblocks : nblk (padFn x 16) = (L.padWindow 16).len / 16 := by rw [padWindow_len_of_read hsrc]; rfl
  obtain ⟨fault, out, hlen, hfault, hout, hend⟩ := exists_finishEncrypt_eq (s := s) (w := L.padWindow 16)
    (o := cbcEncLoop (primEnc Config.primitive s.draws k.val) 0 iv (blocksOf (padFn x 16))) fun c hc =>
      (cbcEncLoop_length hp hc).trans (padded_blocks_length (Memory.readRange_length hsrc))
  have hexec := (cbcenc_eq_next_iff hl (validate_cbcenc_iff.2 hreg)).2 ⟨k.val, hkey, x, hsrc, iv, hreads, hend⟩
  rw [← exec_eq] at hexec
  cases fault with
  | false =>
    have hc := hout rfl
    have hn := nblk_cbcEncLoop hp hc
    exact ⟨false, nblk out, out, out, hlen, fun _ => ⟨hn.trans hblocks, rfl⟩,
      (cbcEncLoop_enciphers hp hc).answers hreads.length hn.le, nofun, hexec⟩
  | true =>
    obtain ⟨c, hc, hlt, hnone⟩ := exists_enciphers_of_fault hp (hfault.1 rfl)
    exact ⟨true, nblk c, c, out, hlen, nofun, hc.answers hreads.length hlt.le,
      fun _ => ⟨hblocks ▸ hlt, (primCall_eq_none_iff (chained_input_length hreads.length le_rfl hlt)).1 hnone⟩, hexec⟩

/-- Settles O26: the loop faults exactly when the primitive answers none for a block, and its end checks the padding. -/
theorem ecbdecCompletes : Obligations.EcbdecCompletes := by
  intro s L k c hl hkey hsrc h16 hins hink hwin hds hdk
  have hlenc : c.length = L.src.len := Memory.readRange_length hsrc
  have h16' : L.ops.srcLen.toNat % 16 = 0 := by rw [← h16, hlenc]; rfl
  have hp := primDec_blockValued Config.primitive s.draws k.val
  obtain ⟨fault, pd, free, hpd, hfree, hfault, hout, hend⟩ := exists_finishDecrypt_eq (s := s) (w := L.decWindow)
    (o := ecbLoop (primDec Config.primitive s.draws k.val) 0 (blocksOf c)) fun p hpd =>
      (ecbLoop_length hp hpd).trans (whole_blocks_length hlenc h16')
  refine ⟨fault, pd, free, hpd.trans hlenc.symm, hfree.trans hlenc.symm, hfault.trans ecbLoop_primCall_eq_none_iff,
    fun hf j hj => (primCall_eq_some_iff (blk_length hj)).1 (ecbLoop_blk hp (hout hf) hj), ?_⟩
  rw [exec_eq]
  exact (ecbdec_eq_next_iff hl (validate_ecbdec_iff.2 ⟨h16', hwin, ⟨hins, hds⟩, ⟨hink, hdk⟩, nofun⟩)).2
    ⟨k.val, hkey, c, hsrc, hend⟩

/-- Settles O27: as ECBDEC, each answer chained with the ciphertext block before it. -/
theorem cbcdecCompletes : Obligations.CbcdecCompletes := by
  intro s L ivp k c iv hl hkey hsrc h16 hiv hins hink hwin hds hdk
  obtain ⟨hreads, hregion⟩ := readsIv_of_operands hiv
  have hlenc : c.length = L.src.len := Memory.readRange_length hsrc
  have h16' : L.ops.srcLen.toNat % 16 = 0 := by rw [← h16, hlenc]; rfl
  have hp := primDec_blockValued Config.primitive s.draws k.val
  obtain ⟨fault, pd, free, hpd, hfree, hfault, hout, hend⟩ := exists_finishDecrypt_eq (s := s) (w := L.decWindow)
    (o := cbcDecLoop (primDec Config.primitive s.draws k.val) 0 iv (blocksOf c)) fun p hpd =>
      (cbcDecLoop_length hp hreads.length (fun _ => length_of_mem_blocksOf) hpd).trans (whole_blocks_length hlenc h16')
  refine ⟨fault, pd, free, hpd.trans hlenc.symm, hfree.trans hlenc.symm,
    hfault.trans (cbcDecLoop_eq_none_iff.trans ecbLoop_primCall_eq_none_iff), fun hf j hj => ?_, ?_⟩
  · obtain ⟨y, hy, hpdj⟩ := cbcDecLoop_blk hp hreads.length (hout hf) hj
    obtain ⟨b, z, hb, hz, rfl⟩ := (primCall_eq_some_iff (blk_length hj)).1 hy
    exact ⟨b, z, hb, hz, hpdj⟩
  · rw [exec_eq]
    exact (cbcdec_eq_next_iff hl (validate_cbcdec_iff.2 ⟨h16', hwin, ⟨hins, hds⟩, ⟨hink, hdk⟩, hregion⟩)).2
      ⟨k.val, hkey, c, hsrc, iv, hreads, hend⟩

/-! How the mode commands end, for a key of any length (R141, R143) -/

section
variable {P : Primitive} {s t : State} {L : Latch} {i : Instr} (hl : s.latch = some L)
  (hv : validate s.bufBytes i L = none) (h : execWith P i s = .next t)
include hl hv h

/-- An encryption ends in the way that its loop's answer decides; PRIM_TOTAL answers it under a 16-byte key. -/
theorem exists_finishEncrypt_of_next (hi : i ∈ [.ecbenc, .cbcenc false, .cbcenc true]) :
    ∃ w out, t = finishEncrypt s w out ∧ (PrimTotal P → L.key.len = 16 → out ≠ none) := by
  have hcbc : ∀ ivp, i = .cbcenc ivp →
      ∃ w out, t = finishEncrypt s w out ∧ (PrimTotal P → L.key.len = 16 → out ≠ none) := by
    rintro ivp rfl
    obtain ⟨k, hk, x, -, iv, hiv, rfl⟩ := (cbcenc_eq_next_iff hl hv).1 h
    refine ⟨_, _, rfl, fun ht hlen => Option.ne_none_iff_exists'.2 ?_⟩
    exact cbcEncLoop_total (primEnc_blockTotal ht s.draws ((Memory.readRange_length hk).trans hlen)) 0 hiv.length
      fun _ => length_of_mem_blocksOf
  simp only [List.mem_cons, List.not_mem_nil, or_false] at hi
  obtain rfl | hi | hi := hi
  · obtain ⟨k, hk, x, -, rfl⟩ := (ecbenc_eq_next_iff hl hv).1 h
    refine ⟨_, _, rfl, fun ht hlen => Option.ne_none_iff_exists'.2 ?_⟩
    exact ecbLoop_total (primEnc_blockTotal ht s.draws ((Memory.readRange_length hk).trans hlen)) 0
      fun _ => length_of_mem_blocksOf
  · exact hcbc _ hi
  · exact hcbc _ hi

/-- A decryption ends in the way that its loop's answer decides; PRIM_TOTAL and PRIM_INV answer it under a 16-byte key. -/
theorem exists_finishDecrypt_of_next (hi : i ∈ [.ecbdec, .cbcdec false, .cbcdec true]) :
    ∃ w out, t = finishDecrypt s w out ∧ (PrimTotal P → PrimInv P → L.key.len = 16 → out ≠ none) := by
  have hcbc : ∀ ivp, i = .cbcdec ivp →
      ∃ w out, t = finishDecrypt s w out ∧ (PrimTotal P → PrimInv P → L.key.len = 16 → out ≠ none) := by
    rintro ivp rfl
    obtain ⟨k, hk, c, -, iv, -, rfl⟩ := (cbcdec_eq_next_iff hl hv).1 h
    refine ⟨_, _, rfl, fun ht hinv hlen => Option.ne_none_iff_exists'.2 ?_⟩
    exact cbcDecLoop_total (primDec_blockTotal ((Memory.readRange_length hk).trans hlen) ht hinv) 0 iv
      fun _ => length_of_mem_blocksOf
  simp only [List.mem_cons, List.not_mem_nil, or_false] at hi
  obtain rfl | hi | hi := hi
  · obtain ⟨k, hk, c, -, rfl⟩ := (ecbdec_eq_next_iff hl hv).1 h
    refine ⟨_, _, rfl, fun ht hinv hlen => Option.ne_none_iff_exists'.2 ?_⟩
    exact ecbLoop_total (primDec_blockTotal ((Memory.readRange_length hk).trans hlen) ht hinv) 0
      fun _ => length_of_mem_blocksOf
  · exact hcbc _ hi
  · exact hcbc _ hi

end

theorem finishEncrypt_err_cases (s : State) (w : Region) (out : Option (List Byte)) :
    (finishEncrypt s w out).err = .ok ∨ (finishEncrypt s w out).err = .primFault ∧ out = none := by
  cases out with
  | none => exact .inr ⟨rfl, rfl⟩
  | some c => exact .inl rfl

theorem finishDecrypt_err_cases (s : State) (w : Region) (out : Option (List Byte)) :
    (finishDecrypt s w out).err = .ok ∨ (finishDecrypt s w out).err = .paddingInvalid ∨
      (finishDecrypt s w out).err = .primFault ∧ out = none := by
  cases out with
  | none => exact .inr (.inr ⟨rfl, rfl⟩)
  | some p =>
    rw [finishDecrypt]
    cases stripFn p Config.cipherBs with
    | some m => exact .inl rfl
    | none => exact .inr (.inl rfl)

/-- Settles O35: the loop's answer decides how the command ends, and under the two assumptions there is one. -/
theorem modeCommandsForEveryKey : Obligations.ModeCommandsForEveryKey := by
  intro P s t L i hi hl hv h
  have hkey : L.ops.keyLen = 16 → L.key.len = 16 := fun h16 => congrArg BitVec.toNat h16
  have hzero : t.err ≠ .ok → t.outLen = 0 := by
    obtain ⟨hnone, -⟩ | ⟨M, -, hc⟩ := execWith_next h
    · exact absurd (hl.symm.trans hnone) nofun
    · exact fun he => (hc.results_zero_of_error he).1
  have hkind : i ∈ [.ecbenc, .cbcenc false, .cbcenc true] ∨
      i ∈ [.ecbdec, .cbcdec false, .cbcdec true] ∧ i ∉ [.ecbenc, .cbcenc false, .cbcenc true] := by
    simp only [List.mem_cons, List.not_mem_nil, or_false] at hi
    obtain rfl | rfl | rfl | rfl | rfl | rfl := hi <;> decide
  obtain henc | ⟨hdec, hnotEnc⟩ := hkind
  · obtain ⟨w, out, rfl, htotal⟩ := exists_finishEncrypt_of_next hl hv h henc
    obtain he | ⟨he, hnone⟩ := finishEncrypt_err_cases s w out
    · exact ⟨.inl he, fun _ => he ▸ nofun, hzero, fun _ _ _ => he ▸ nofun⟩
    · exact ⟨.inr (.inl he), fun _ => he ▸ nofun, hzero, fun ht _ h16 => absurd hnone (htotal ht (hkey h16))⟩
  · obtain ⟨w, out, rfl, htotal⟩ := exists_finishDecrypt_of_next hl hv h hdec
    obtain he | he | ⟨he, hnone⟩ := finishDecrypt_err_cases s w out
    · exact ⟨.inl he, fun henc => absurd henc hnotEnc, hzero, fun _ _ _ => he ▸ nofun⟩
    · exact ⟨.inr (.inr he), fun henc => absurd henc hnotEnc, hzero, fun _ _ _ => he ▸ nofun⟩
    · exact ⟨.inr (.inl he), fun henc => absurd henc hnotEnc, hzero,
        fun ht hinv h16 => absurd hnone (htotal ht hinv (hkey h16))⟩

/-! The round trips (R150) -/

section
variable {P : Primitive} (ht : PrimTotal P) (hinv : PrimInv P) {d : Nat} (d' : Nat) {k iv s c : List Byte}
  (hk : k.length = 16) (hs : s.length % 16 = 0)
include ht hinv hk hs

/-- ECB decryption undoes ECB encryption, block by block. -/
theorem ecbLoop_primDec_of_primEnc (h : ecbLoop (primEnc P d k) 0 (blocksOf s) = some c) :
    ecbLoop (primDec P d' k) 0 (blocksOf c) = some s := by
  have hn := nblk_ecbLoop (primEnc_blockValued P d k) h
  obtain ⟨out, hout⟩ := ecbLoop_total (primDec_blockTotal (d := d') hk ht hinv) 0 fun _ => length_of_mem_blocksOf (s := c)
  have hlen : out.length = s.length := by
    rw [ecbLoop_length (primDec_blockValued P d' k) hout, blocksOf_length, hn, nblk, Config.cipherBs]
    omega
  rw [hout, eq_of_blk_eq hs hlen fun j hj => ?_]
  have hdec := primDec_of_primEnc hinv d' j hk (blk_length hj) (ecbLoop_blk (primEnc_blockValued P d k) h hj)
  exact Option.some.inj ((ecbLoop_blk (primDec_blockValued P d' k) hout (hn ▸ hj)).symm.trans hdec)

/-- CBC decryption undoes CBC encryption: both chain block j with the same. -/
theorem cbcDecLoop_of_cbcEncLoop (hiv : iv.length = 16) (h : cbcEncLoop (primEnc P d k) 0 iv (blocksOf s) = some c) :
    cbcDecLoop (primDec P d' k) 0 iv (blocksOf c) = some s := by
  have hn := nblk_cbcEncLoop (primEnc_blockValued P d k) h
  obtain ⟨out, hout⟩ := cbcDecLoop_total (primDec_blockTotal (d := d') hk ht hinv) 0 iv
    fun _ => length_of_mem_blocksOf (s := c)
  have hlen : out.length = s.length := by
    rw [cbcDecLoop_length (primDec_blockValued P d' k) hiv (fun _ => length_of_mem_blocksOf) hout, blocksOf_length, hn, nblk,
      Config.cipherBs]
    omega
  rw [hout, eq_of_blk_eq hs hlen fun j hj => ?_]
  have hjc : j < nblk c := hn ▸ hj
  have hdec := primDec_of_primEnc hinv d' j hk (chained_input_length hiv hjc.le hj)
    (cbcEncLoop_blk (primEnc_blockValued P d k) h hj)
  obtain ⟨x, hx, hblk⟩ := cbcDecLoop_blk (primDec_blockValued P d' k) hiv hout hjc
  rw [hblk, Option.some.inj (hx.symm.trans hdec), xorBytes_cancel]
  rw [blk_length hj, chainValue_length hiv hjc.le]

end

theorem padFn_whole_blocks (x : List Byte) : (padFn x 16).length % 16 = 0 := by
  rw [padFn_length, paddedLen_mod (by decide)]

/-- A decryption that gives back a padded plaintext ends in OK with the plaintext at the start of its window. -/
theorem finishDecrypt_padFn (u : State) (w : Region) (x : List Byte) :
    let v := finishDecrypt u w (some (padFn x 16))
    v.err = .ok ∧ v.outLen = word x.length ∧ Memory.readRange v.buf w.addr x.length = .ok x := by
  obtain ⟨-, ⟨hstrip, htake⟩, -⟩ := paddingProperties x 16 (by decide) (by decide)
  have hle : x.length ≤ (padFn x 16).length := by rw [padFn_length, paddedLen]; omega
  have hread := Memory.readRange_take (Memory.readRange_writeRange u.buf w.addr (padFn x 16)) hle
  rw [htake] at hread
  simp only [finishDecrypt, Config.cipherBs, hstrip]
  exact ⟨rfl, rfl, hread⟩

/-- `M` is the latch of a decryption of what the encryption with latch L left in its window, under the same key: `m` is the
memory after that encryption, which wrote the ciphertext c. -/
structure DeciphersWindow (s : State) (L : Latch) (c : List Byte) (m : Memory) (M : Latch) : Prop where
  length : c.length = (L.padWindow 16).len
  buf    : m = Memory.writeRange s.buf (L.padWindow 16).addr c
  src    : M.src = L.padWindow 16
  key    : M.key = L.key

section
variable {s : State} {L M : Latch} {c : List Byte} {m : Memory} (h : DeciphersWindow s L c m M)
include h

theorem DeciphersWindow.read_src : Memory.readRange m M.src.addr M.src.len = .ok c := by
  rw [h.src, h.buf, ← h.length]
  exact Memory.readRange_writeRange _ _ _

/-- A region clear of the window reads as it did before the encryption. -/
theorem DeciphersWindow.read_clear {r : Region} (hr : ¬ overlap (L.padWindow 16) r) :
    Memory.readRange m r.addr r.len = Memory.readRange s.buf r.addr r.len := by
  rw [h.buf]
  exact Memory.readRange_writeRange_disjoint _ _ (by rw [h.length]; exact hr)

variable {N : Nat} {ivp : Bool} (hreg : ModeRegions N ivp L (L.padWindow 16))
include hreg

theorem DeciphersWindow.read_key {k : List Byte} (hk : Memory.readRange s.buf L.key.addr L.key.len = .ok k) :
    Memory.readRange m M.key.addr M.key.len = .ok k := by
  rw [h.key, h.read_clear hreg.key.2, hk]

theorem DeciphersWindow.readsIv (hM : M.iv = L.iv) {iv : List Byte} (hiv : ReadsIv ivp s.buf L iv) : ReadsIv ivp m M iv := by
  cases ivp with
  | false => exact hiv
  | true =>
    obtain ⟨-, -, hclear⟩ := hreg.iv rfl
    show Memory.readRange m M.iv.addr M.iv.len = .ok iv
    rw [hM, h.read_clear hclear]
    exact hiv

end

/-- OUT_LEN of an encryption holds the length of its window, since BUF_BYTES is at most 2^24 (R5, R63). -/
theorem word_window_len {N : Nat} {w : Region} (hN : bufBytesOk N) (hw : inRange N w) : (word w.len).toNat = w.len := by
  obtain ⟨-, -, hmax⟩ := hN
  exact word_toNat (by simp only [inRange] at hw; omega)

/-- The operands that R150 gives the decryption, after an encryption that ended in OK. -/
theorem deciphersWindow_of_operands {s t : State} {L M : Latch} {c : List Byte} {m : Memory} (hN : bufBytesOk s.bufBytes)
    (hwin : inRange s.bufBytes (L.padWindow 16)) (hc : c.length = (L.padWindow 16).len)
    (ht : finishEncrypt s (L.padWindow 16) (some c) = t) (hm : m = t.buf) (hsrcAddr : M.ops.srcAddr = L.ops.dstAddr)
    (hsrcLen : M.ops.srcLen = t.outLen) (hkeyAddr : M.ops.keyAddr = L.ops.keyAddr)
    (hkeyLen : M.ops.keyLen = L.ops.keyLen) : DeciphersWindow s L c m M := by
  subst ht
  refine ⟨hc, hm, ?_, by rw [Latch.key, hkeyAddr, hkeyLen, Latch.key]⟩
  rw [Latch.src, hsrcAddr, hsrcLen]
  exact congrArg (Region.mk _) (word_window_len hN hwin)

/-- Settles O50: ECBDEC reads the ciphertext and the key that ECBENC left, and its loop undoes the other. -/
theorem ecbRoundTrip : Obligations.EcbRoundTrip := by
  intro P s t u L M x ht hinv hl hkeyLen hv hx hexec hbuf _ hlu hsa hsl hka hkl hvu hN
  have hreg := validate_ecbenc_iff.1 hv
  obtain ⟨k, hk, x', hx', hend⟩ := (ecbenc_eq_next_iff hl hv).1 hexec
  obtain rfl : x = x' := Except.ok.inj (hx.symm.trans hx')
  have hk16 : k.length = 16 := (Memory.readRange_length hk).trans (congrArg BitVec.toNat hkeyLen)
  obtain ⟨c, hc⟩ := ecbLoop_total (primEnc_blockTotal ht s.draws hk16) 0 fun _ => length_of_mem_blocksOf (s := padFn x 16)
  have hlen := (ecbLoop_length (primEnc_blockValued _ _ _) hc).trans (padded_blocks_length (Memory.readRange_length hx))
  have hdec := deciphersWindow_of_operands hN hreg.window hlen (hc ▸ hend) hbuf hsa hsl hka hkl
  have hloop := ecbLoop_primDec_of_primEnc ht hinv u.draws hk16 (padFn_whole_blocks x) hc
  exact ⟨_, (ecbdec_eq_next_iff hlu hvu).2 ⟨k, hdec.read_key hreg hk, c, hdec.read_src, congrArg _ hloop⟩,
    finishDecrypt_padFn u M.decWindow x⟩

/-- Settles O51: CBCDEC reads also the IV that CBCENC read, and its loop undoes the other. -/
theorem cbcRoundTrip : Obligations.CbcRoundTrip := by
  intro P s t u L M ivp x ht hinv hl hkeyLen hv hx hexec hbuf _ hlu hsa hsl hka hkl hia _ hvu hN
  have hreg := validate_cbcenc_iff.1 hv
  obtain ⟨k, hk, x', hx', iv, hiv, hend⟩ := (cbcenc_eq_next_iff hl hv).1 hexec
  obtain rfl : x = x' := Except.ok.inj (hx.symm.trans hx')
  have hk16 : k.length = 16 := (Memory.readRange_length hk).trans (congrArg BitVec.toNat hkeyLen)
  obtain ⟨c, hc⟩ := cbcEncLoop_total (primEnc_blockTotal ht s.draws hk16) 0 hiv.length
    fun _ => length_of_mem_blocksOf (s := padFn x 16)
  have hlen := (cbcEncLoop_length (primEnc_blockValued _ _ _) hc).trans (padded_blocks_length (Memory.readRange_length hx))
  have hdec := deciphersWindow_of_operands hN hreg.window hlen (hc ▸ hend) hbuf hsa hsl hka hkl
  have hloop := cbcDecLoop_of_cbcEncLoop ht hinv u.draws hk16 (padFn_whole_blocks x) hiv.length hc
  have hiv' := hdec.readsIv hreg (by rw [Latch.iv, hia, Latch.iv]) hiv
  exact ⟨_, (cbcdec_eq_next_iff hlu hvu).2 ⟨k, hdec.read_key hreg hk, c, hdec.read_src, iv, hiv', congrArg _ hloop⟩,
    finishDecrypt_padFn u M.decWindow x⟩

end Sys2Proof.Machine

/-! The Hamming family (42_hamming.md): popcounts and distances bit by bit, the pairs of full chunks, where HAMD and HPAIR complete,
and the bounds of their results. -/

namespace Sys2Proof.Machine

/-! The popcount (R180) -/

theorem popcount8_eq_countP (b : Byte) : popcount8 b = (List.range 8).countP fun i => b.getLsbD i :=
  List.countP_eq_length_filter.symm

/-- The popcount of an exclusive or counts the bits that differ. -/
theorem popcount8_xor (x y : Byte) :
    popcount8 (x ^^^ y) = (List.range 8).countP fun j => x.getLsbD j != y.getLsbD j := by
  simp [popcount8_eq_countP]

theorem popcount8_eq_zero_iff {b : Byte} : popcount8 b = 0 ↔ b = 0 := by
  constructor
  · intro h
    rw [popcount8_eq_countP, List.countP_eq_zero] at h
    exact BitVec.eq_of_getLsbD_eq fun i hi => by simpa using h i (List.mem_range.2 hi)
  · rintro rfl
    rfl

/-- A byte and its complement differ in all eight bits. -/
theorem popcount8_xor_not (x : Byte) : popcount8 (x ^^^ ~~~x) = 8 := by
  rw [popcount8_xor, List.countP_eq_length.2, List.length_range]
  intro i hi
  simp [List.mem_range.1 hi]

/-! The distance (R181, R183) -/

@[simp] theorem hd_nil : hd [] [] = 0 := rfl

@[simp] theorem hd_cons (x y : Byte) (a b : List Byte) : hd (x :: a) (y :: b) = popcount8 (x ^^^ y) + hd a b := by
  simp [hd]

theorem hd_comm (a b : List Byte) : hd a b = hd b a := by
  rw [hd, hd, List.zipWith_comm_of_comm fun x y => by rw [BitVec.xor_comm]]

/-- The distance, counted position by position. -/
theorem hd_eq_sum_bits {a b : List Byte} (h : a.length = b.length) :
    hd a b = ((List.range a.length).map fun i =>
      (List.range 8).countP fun j => (a.getD i 0).getLsbD j != (b.getD i 0).getLsbD j).sum := by
  induction a generalizing b with
  | nil => rw [List.length_eq_zero_iff.1 h.symm]; rfl
  | cons x a ih =>
    obtain ⟨y, b, rfl⟩ := List.exists_cons_of_length_eq_add_one h.symm
    rw [hd_cons, popcount8_xor, ih (Nat.succ.inj h), List.length_cons, List.range_succ_eq_map (n := a.length), List.map_cons,
      List.sum_cons, List.map_map]
    rfl

theorem hd_eq_zero_iff {a b : List Byte} (h : a.length = b.length) : hd a b = 0 ↔ a = b := by
  induction a generalizing b with
  | nil => simp [List.length_eq_zero_iff.1 h.symm]
  | cons x a ih =>
    obtain ⟨y, b, rfl⟩ := List.exists_cons_of_length_eq_add_one h.symm
    rw [hd_cons, Nat.add_eq_zero_iff, ih (Nat.succ.inj h), popcount8_eq_zero_iff, List.cons.injEq]
    exact and_congr_left' BitVec.xor_eq_zero_iff

@[simp] theorem hd_self (a : List Byte) : hd a a = 0 := (hd_eq_zero_iff rfl).2 rfl

theorem hd_map_not (a : List Byte) : hd a (a.map fun x => ~~~x) = 8 * a.length := by
  induction a with
  | nil => rfl
  | cons x a ih => rw [List.map_cons, hd_cons, popcount8_xor_not, ih, List.length_cons]; omega

/-- Settles O55: the popcount byte by byte, and the laws of the distance. -/
theorem hammingDistanceLaws : Obligations.HammingDistanceLaws :=
  ⟨popcount8_eq_countP, rfl, rfl, rfl, fun a b h =>
    ⟨hd_eq_sum_bits h, hd_comm a b, hd_self a, hd_nil, hd_eq_zero_iff h, hd_map_not a⟩⟩

/-! The pairs of full chunks (R182, R184) -/

/-- The last full chunk begins no pair, so the chunks that begin one are shorter than the whole sequence. -/
theorem mul_pairCount_lt {d : List Byte} {k : Nat} (hk : 1 ≤ k) (hpos : 0 < d.length) : k * pairCount d k < d.length := by
  have hfull : k * (d.length / k) ≤ d.length := Nat.mul_div_le _ _
  rw [pairCount_eq, Nat.mul_sub_one]
  omega

theorem pairCount_le (d : List Byte) (k : Nat) : pairCount d k ≤ d.length := by
  rw [pairCount_eq]
  exact (Nat.sub_le _ _).trans (Nat.div_le_self _ _)

theorem pairCount_lt {d : List Byte} {k : Nat} (hk : 1 ≤ k) (hpos : 0 < d.length) : pairCount d k < d.length :=
  (Nat.le_mul_of_pos_left _ hk).trans_lt (mul_pairCount_lt hk hpos)

theorem pairSum_lt {d : List Byte} {k : Nat} (hk : 1 ≤ k) (hpos : 0 < d.length) : pairSum d k < 8 * d.length := by
  have hsum := pairSum_le_mul d k
  have hpairs := mul_pairCount_lt hk hpos
  rw [Nat.mul_assoc] at hsum
  omega

/-! The two commands (R183, R184) -/

/-- The checks of HAMD: the lengths are equal, and both regions are in range. -/
theorem validate_hamd_iff {N : Nat} {L : Latch} :
    validate N .hamd L = none ↔ L.ops.srcLen = L.ops.src2Len ∧ inRange N L.src ∧ inRange N L.src2 := by
  simp [validate_eq_none, zeroBlockSize, badIvLength, badLength, lengthMismatch, readsOf, windowOf]

/-- The checks of HPAIR: the keysize is at least 1, and SRC is in range. -/
theorem validate_hpair_iff {N k : Nat} {L : Latch} : validate N (.hpair k) L = none ↔ 1 ≤ k ∧ inRange N L.src := by
  simp [validate_eq_none, zeroBlockSize, badIvLength, badLength, lengthMismatch, readsOf, windowOf, Nat.one_le_iff_ne_zero]

section
variable {s : State} {L : Latch} (hl : s.latch = some L)
include hl

theorem exec_hamd_eq_next_iff (hv : validate s.bufBytes .hamd L = none) {t : State} :
    exec .hamd s = .next t ↔
      ∃ a, Memory.readRange s.buf L.src.addr L.src.len = .ok a ∧
      ∃ b, Memory.readRange s.buf L.src2.addr L.src2.len = .ok b ∧ s.finish .ok 0 (word (hd a b)) 0 = t := by
  simp only [exec, execHamd, runCommand_of_valid hl hv, withRegion_eq_next_iff, Host.Outcome.next.injEq]

theorem exec_hpair_eq_next_iff {k : Nat} (hv : validate s.bufBytes (.hpair k) L = none) {t : State} :
    exec (.hpair k) s = .next t ↔
      ∃ d, Memory.readRange s.buf L.src.addr L.src.len = .ok d ∧
        s.finish .ok 0 (word (pairSum d k)) (word (pairCount d k)) = t := by
  simp only [exec, execHpair, runCommand_of_valid hl hv, withRegion_eq_next_iff, Host.Outcome.next.injEq]

/-- A command whose checks fail leaves no result. -/
theorem results_zero_of_validate {i : Instr} {t : State} {e : ErrCode} (h : exec i s = .next t)
    (he : validate s.bufBytes i L = some e) : t.result = 0 ∧ t.result2 = 0 := by
  cases completion_of_exec hl h with
  | checked => exact ⟨rfl, rfl⟩
  | reading _ _ _ _ _ hv | writing _ _ _ _ _ _ hv => exact nomatch hv.symm.trans he

end

/-- Settles O28: the checks pass, and the distance is counted bit by bit. -/
theorem hamdCompletes : Obligations.HamdCompletes := by
  intro s L a b hl hlen hsrc hsrc2 ha hb
  have hab : a.length = b.length := by rw [Memory.readRange_length ha, Memory.readRange_length hb, hlen]
  refine (exec_hamd_eq_next_iff hl (validate_hamd_iff.2 ⟨hlen, hsrc, hsrc2⟩)).2 ⟨a, ha, b, hb, ?_⟩
  rw [hd_eq_sum_bits hab]
  rfl

/-- Settles O29: the checks pass, and the slices are the full chunks. -/
theorem hpairCompletes : Obligations.HpairCompletes := by
  intro s L k d hl hk hin hr
  refine (exec_hpair_eq_next_iff hl (validate_hpair_iff.2 ⟨hk, hin⟩)).2 ⟨d, hr, ?_⟩
  rw [pairSum, pairCount_eq]
  rfl

/-! The bounds of the results (R186) -/

/-- Two regions in range that are as long as the buffer are the whole buffer. -/
theorem region_eq_of_full {N : Nat} {q r : Region} (hlen : q.len = r.len) (hq : inRange N q) (hr : inRange N r)
    (hfull : N ≤ q.len) : q = r := by
  obtain ⟨qa, n⟩ := q
  obtain ⟨ra, m⟩ := r
  simp only [inRange] at hlen hq hr hfull
  exact congrArg₂ Region.mk (by omega) hlen

section
variable {s t : State} {L : Latch} (hl : s.latch = some L) (hN : bufBytesOk s.bufBytes)
include hl hN

/-- The bound 2^27 is strict also where SRC fills a buffer of 2^24 bytes: SRC2 is then the same region, and the distance is 0. -/
theorem hamd_result_fits (h : exec .hamd s = .next t) :
    t.result.toNat ≤ 8 * L.ops.srcLen.toNat ∧ t.result.toNat < 2 ^ 27 := by
  obtain ⟨-, -, hmax⟩ := hN
  cases hv : validate s.bufBytes .hamd L with
  | some e => simp [(results_zero_of_validate hl h hv).1]
  | none =>
    obtain ⟨hlen, hsrc, hsrc2⟩ := validate_hamd_iff.1 hv
    obtain ⟨a, ha, b, hb, rfl⟩ := (exec_hamd_eq_next_iff hl hv).1 h
    have hword : (word (hd a b)).toNat ≤ hd a b := word_toNat_le _
    have hdist : hd a b ≤ 8 * min a.length b.length := hd_le a b
    have hlena : a.length = L.src.len := Memory.readRange_length ha
    rw [State.finish_result]
    refine ⟨by simp only [Latch.src] at hlena; omega, ?_⟩
    obtain hshort | hfull : L.src.len < s.bufBytes ∨ s.bufBytes ≤ L.src.len := Nat.lt_or_ge _ _
    · omega
    · have hregion : L.src = L.src2 := region_eq_of_full (congrArg BitVec.toNat hlen) hsrc hsrc2 hfull
      obtain rfl : a = b := Except.ok.inj (ha.symm.trans (hregion ▸ hb))
      rw [hd_self]
      decide

theorem hpair_results_fit {k : Nat} (h : exec (.hpair k) s = .next t) :
    t.result.toNat ≤ 8 * k * t.result2.toNat ∧ t.result.toNat ≤ 8 * L.ops.srcLen.toNat ∧
    (0 < L.ops.srcLen.toNat → t.result2.toNat < L.ops.srcLen.toNat) ∧ t.result.toNat < 2 ^ 27 ∧ t.result2.toNat < 2 ^ 27 := by
  obtain ⟨-, -, hmax⟩ := hN
  cases hv : validate s.bufBytes (.hpair k) L with
  | some e =>
    obtain ⟨hzero, hzero2⟩ := results_zero_of_validate hl h hv
    simp [hzero, hzero2]
  | none =>
    obtain ⟨hk, hsrc⟩ := validate_hpair_iff.1 hv
    obtain ⟨d, hr, rfl⟩ := (exec_hpair_eq_next_iff hl hv).1 h
    have hlen : d.length = L.ops.srcLen.toNat := Memory.readRange_length hr
    have hmaxlen : d.length ≤ 2 ^ 24 := by simp only [inRange, Latch.src] at hsrc; omega
    have hpairs : pairCount d k ≤ d.length := pairCount_le d k
    have hsum : pairSum d k ≤ 8 * d.length := pairSum_le d k
    have hstrict : 0 < d.length → pairSum d k < 8 * d.length := pairSum_lt hk
    rw [State.finish_result, State.finish_result2, ← hlen, word_toNat (by omega), word_toNat (by omega)]
    exact ⟨pairSum_le_mul d k, hsum, pairCount_lt hk, by omega, by omega⟩

end

/-- Settles O56, one command at a time. -/
theorem hammingResultsFit : Obligations.HammingResultsFit :=
  fun _ _ _ hl hN => ⟨hamd_result_fits hl hN, fun _ => hpair_results_fit hl hN⟩

end Sys2Proof.Machine

/-! The collision detector (43_ecb_detect.md): the chunks as slices of the bytes that remain, a repeat, and where ECBDET completes. -/

namespace Sys2Proof.Machine

/-! The chunks (R200) -/

/-- The chunks begin at the multiples of bs below the length, that of a final partial chunk included. -/
theorem lt_nall_iff {s : List Byte} {bs j : Nat} (hbs : 1 ≤ bs) : j < nall s bs ↔ bs * j < s.length := by
  rw [nall, ← Nat.add_one_le_iff, Nat.le_div_iff_mul_le hbs, Nat.add_one_mul, Nat.mul_comm j bs]
  omega

/-- `take` stops at the end of the sequence by itself, so R200's bound at the length needs no case. -/
theorem achunk_eq_take_drop (s : List Byte) (bs j : Nat) : achunk s bs j = (s.drop (bs * j)).take bs := by
  rw [achunk, slice, ← List.take_eq_take_min, List.drop_take, Nat.add_sub_cancel_left]

/-- The earlier of two equal chunks needs no bound of its own: it begins before the later one. -/
theorem hasRepeat_iff {s : List Byte} {bs : Nat} (hbs : 1 ≤ bs) :
    hasRepeat s bs = true ↔
      ∃ i j, i < j ∧ bs * j < s.length ∧ (s.drop (bs * i)).take bs = (s.drop (bs * j)).take bs := by
  simp only [hasRepeat, List.any_eq_true, List.mem_range, beq_iff_eq, lt_nall_iff hbs, achunk_eq_take_drop]
  constructor
  · rintro ⟨j, hj, i, hij, heq⟩
    exact ⟨i, j, hij, hj, heq⟩
  · rintro ⟨i, j, hij, hj, heq⟩
    exact ⟨j, hj, i, hij, heq⟩

/-! The command (R201) -/

theorem exec_ecbdet_of_valid {s : State} {L : Latch} {bs : Nat} {d : List Byte} (hl : s.latch = some L)
    (hr : Memory.readRange s.buf L.src.addr L.src.len = .ok d) (hv : validate s.bufBytes (.ecbdet bs) L = none) :
    exec (.ecbdet bs) s = .next (s.finish .ok 0 (if hasRepeat d bs then 1 else 0) 0) := by
  rw [exec, execEcbdet, runCommand_of_valid hl hv, withRegion_of_ok hr]

/-- Settles O30: the checks pass, and RESULT is 1 if SRC has a repeat, which is spelled out. -/
theorem ecbdetCompletes : Obligations.EcbdetCompletes := by
  intro s L bs d hl hbs hin hr
  refine ⟨_, exec_ecbdet_of_valid hl hr (validate_of_src (by simp) hbs hin), ?_, ?_⟩
  · exact (ite_eq_or_eq _ _ _).symm
  · rw [← hasRepeat_iff hbs]
    cases hasRepeat d bs <;> decide

end Sys2Proof.Machine

/-! The exception family (60_exceptions.md): when the engine runs a command, how the block accepts one, what a completion leaves
unchanged, the errors of the checks, OVR and the interrupt level. -/

namespace Sys2Proof.Machine

/-! The engine's turn (R238, R240) -/

/-- Settles O6: each of the three is the engine's turn, which runs what the latched word decodes to. -/
theorem stepRunsDecodedCommand : Obligations.StepRunsDecodedCommand := by
  intro s L i hl hd
  refine ⟨fun hs => ?_, fun rest hs => ?_, fun op rest hs hu hb => ?_⟩
  · rw [step_of_idle hs, engineStep_of_latch hl hd]
  · rw [step_of_engine hs]
    exact engineStep_of_latch (s := { s with agenda := rest }) hl hd
  · rw [step_of_stall hs (by simp [stalls, hu, hb]), engineStep_of_latch hl hd]

theorem engineStep_of_empty {s : State} (hl : s.latch = none) : engineStep s = .next s := by
  simp [engineStep, engineStepWith, hl]

/-- Settles O8: the turn is the engine's, whose latch is empty. -/
theorem idleBlockDoesNothing : Obligations.IdleBlockDoesNothing := by
  intro s hl hs
  rw [step_of_idle hs, engineStep_of_empty hl]

/-! Acceptance (R227) -/

/-- Settles O9: the write of CMD is `accept`, whose fields are the ones listed. -/
theorem cmdWriteAccepts : Obligations.CmdWriteAccepts := fun _ _ _ hb hs => step_of_cmdWrite hb hs

theorem withFetchWord_eq_issueNext (s : State) (w : Word) : s.withFetchWord 32 w.toNat = s.issueNext w := by
  rw [State.withFetchWord, Nat.mod_eq_of_lt w.isLt, BitVec.ofNat_toNat, BitVec.setWidth_eq]

theorem engineStep_accept {w : Word} {i : Instr} (hd : decode w = .ok i) (s : State) :
    engineStep (s.accept w) = exec i (s.accept w) := engineStep_of_latch (s.accept_latch w) hd

section
variable {s : State} (w : Word)

theorem issueNext_of_engineIsNext (h : engineIsNext s = true) : s.issueNext w = s.accept w := by
  rw [State.issueNext, if_pos h]

/-- Where another agent would be next, the engine's turn is put first and used up by the step. -/
theorem step_issueNext_of_not_engineIsNext (h : engineIsNext s = false) :
    step (s.issueNext w) = engineStep (s.accept w) := by
  rw [State.issueNext, if_neg (by simp [h])]
  exact step_of_engine rfl

/-- No turn on the agenda is used up, unless it is the engine's. -/
theorem step_issueNext (h : ∀ rest, s.agenda ≠ .engine :: rest) : step (s.issueNext w) = engineStep (s.accept w) := by
  match hs : s.agenda with
  | [] => rw [issueNext_of_engineIsNext w (by simp [engineIsNext, hs])]; exact step_of_idle hs
  | .engine :: rest => exact absurd hs (h rest)
  | .reset :: rest => exact step_issueNext_of_not_engineIsNext w (by simp [engineIsNext, hs])
  | .host op :: rest =>
    cases hu : usesBuffer op with
    | false => exact step_issueNext_of_not_engineIsNext w (by simp [engineIsNext, hs, hu])
    | true =>
      rw [issueNext_of_engineIsNext w (by simp [engineIsNext, hs, hu])]
      exact step_of_stall hs (by simp [stalls, hu])

theorem step_issueNext_of_engine {rest : List Event} (hs : s.agenda = .engine :: rest) :
    step (s.issueNext w) = engineStep (State.accept { s with agenda := rest } w) := by
  rw [issueNext_of_engineIsNext w (by simp [engineIsNext, hs])]
  exact step_of_engine hs

end

/-- Settles O7: the step is the engine's turn on the state that has accepted the word. -/
theorem placedCommandRunsNext : Obligations.PlacedCommandRunsNext := by
  intro s w i hd
  rw [withFetchWord_eq_issueNext]
  refine ⟨fun hs => ?_, fun e rest hs he => ?_, fun rest hs => ?_⟩
  · rw [step_issueNext w (by simp [hs]), engineStep_accept hd]
  · rw [step_issueNext w (by simp [hs, he]), engineStep_accept hd]
  · rw [step_issueNext_of_engine w hs, engineStep_accept hd]

/-! What every completion leaves unchanged (R220, R228, R240) -/

/-- Every completion is a `finish`, once the buffer and the draws are as the command leaves them. -/
theorem Completion.eq_finish {i : Instr} {L : Latch} {s t : State} (h : Completion i L s t) :
    ∃ m n c o r r2, t = State.finish { s with buf := m, draws := n } c o r r2 := by
  cases h with
  | checked e => exact ⟨s.buf, s.draws, e, 0, 0, 0, rfl⟩
  | reading c o r r2 => exact ⟨s.buf, s.draws, c, o, r, r2, rfl⟩
  | writing w bs c o n => exact ⟨_, n, c, o, 0, 0, rfl⟩

/-- Settles O36: `finish` changes none of the fields listed but BUSY, DONE and the latch. -/
theorem completionFrame : Obligations.CompletionFrame := by
  intro s t L i hl h
  obtain ⟨m, n, c, o, r, r2, rfl⟩ := (completion_of_exec hl h).eq_finish
  exact ⟨rfl, rfl, rfl, rfl, rfl, rfl, rfl, rfl, rfl, rfl, rfl, rfl⟩

/-- Settles O34: no command is refused, and one that faults has read a byte without a value. -/
theorem everyCommandCompletes : Obligations.EveryCommandCompletes := by
  intro s L i hl hwritten
  cases hx : exec i s with
  | next t =>
    obtain ⟨m, n, c, o, r, r2, rfl⟩ := (completion_of_exec hl hx).eq_finish
    exact ⟨_, rfl, rfl, rfl, rfl⟩
  | fault f =>
    obtain ⟨L', r, a, hl', -, hr, -, hlo, hhi, -, hnone⟩ := exec_fault hx
    obtain rfl : L = L' := Option.some.inj (hl.symm.trans hl')
    exact absurd hnone (hwritten r hr a hlo hhi)
  | refused q => exact absurd hx (exec_not_refused i s q)

/-! The errors of the checks (R225, R226) -/

/-- A command whose first failing check has code `e` ends with `e`, zero results and the memory as it was. -/
theorem exec_of_validate {i : Instr} {s : State} {L : Latch} {e : ErrCode} (hl : s.latch = some L)
    (hv : validate s.bufBytes i L = some e) : exec i s = .next (s.raise e) := by
  cases i <;> exact runCommand_of_error hl hv

section
variable {N : Nat} {i : Instr} {L : Latch}

theorem validate_of_zeroBlockSize (hz : zeroBlockSize i = true) : validate N i L = some .invalidBlockSize := by
  simp [validate, hz]

theorem validate_of_badIvLength (hz : zeroBlockSize i = false) (hiv : badIvLength i L = true) :
    validate N i L = some .invalidIvLength := by simp [validate, hz, hiv]

theorem validate_of_badLength (hz : zeroBlockSize i = false) (hiv : badIvLength i L = false) (hlen : badLength i L = true) :
    validate N i L = some .invalidLength := by simp [validate, hz, hiv, hlen]

theorem validate_of_lengthMismatch (hz : zeroBlockSize i = false) (hiv : badIvLength i L = false)
    (hlen : badLength i L = false) (hm : lengthMismatch i L = true) : validate N i L = some .lengthMismatch := by
  simp [validate, hz, hiv, hlen, hm]

end

/-- Settles O31, check by check in the order of R226. -/
theorem argumentErrorsComplete : Obligations.ArgumentErrorsComplete := by
  intro s L hl
  refine ⟨fun i hi => exec_of_validate hl (validate_of_zeroBlockSize ?_), fun hiv i hi => ?_, fun h16 i hi => ?_,
    fun hne => exec_of_validate hl (validate_of_lengthMismatch rfl rfl rfl (by simpa [lengthMismatch] using hne))⟩
  · simp only [List.mem_cons, List.not_mem_nil, or_false] at hi
    obtain rfl | rfl | rfl | rfl | rfl := hi <;> rfl
  · have hbad : (L.ops.ivLen.toNat != 16) = true := bne_iff_ne.2 fun h => hiv (BitVec.eq_of_toNat_eq h)
    simp only [List.mem_cons, List.not_mem_nil, or_false] at hi
    obtain rfl | rfl := hi <;> exact exec_of_validate hl (validate_of_badIvLength rfl hbad)
  · have hbad : (L.ops.srcLen.toNat % 16 != 0) = true := bne_iff_ne.2 h16
    obtain rfl | rfl | ⟨rfl, hiv⟩ := hi
    · exact exec_of_validate hl (validate_of_badLength rfl rfl hbad)
    · exact exec_of_validate hl (validate_of_badLength rfl rfl hbad)
    · exact exec_of_validate hl (validate_of_badLength rfl (by simp [badIvLength, hiv, Config.cipherBs]) hbad)

theorem outOfRange_iff {N : Nat} {i : Instr} {L : Latch} :
    outOfRange N i L = true ↔ ∃ r ∈ readsOf i L ++ (windowOf i L).toList, N < r.addr + r.len := by
  simp only [outOfRange, List.any_eq_true, Bool.not_eq_true', decide_eq_false_iff_not, not_le]

/-- Two regions overlap when they share a byte (R64). -/
theorem overlap_of_mem {w r : Region} {a : Nat} (hw : w.addr ≤ a) (hw' : a < w.addr + w.len) (hr : r.addr ≤ a)
    (hr' : a < r.addr + r.len) : overlap w r := by
  simp only [overlap]
  omega

theorem windowOverlaps_of_overlap {i : Instr} {L : Latch} {w r : Region} (hw : windowOf i L = some w) (hr : r ∈ readsOf i L)
    (h : overlap w r) : windowOverlaps i L = true := by
  simp only [windowOverlaps, hw, Option.toList_some, List.any_eq_true, List.mem_singleton, decide_eq_true_eq]
  exact ⟨w, rfl, r, hr, h⟩

/-- Settles O32: past the argument checks, the range check comes first and the overlap check last. -/
theorem regionErrorsComplete : Obligations.RegionErrorsComplete := by
  intro s L i hl hz hiv hlen hm
  refine ⟨fun hout => ?_, fun hin hshare => ?_⟩
  · have hrange : outOfRange s.bufBytes i L = true := outOfRange_iff.2 hout
    exact exec_of_validate hl (by simp [validate, hz, hiv, hlen, hm, hrange])
  · have hrange : outOfRange s.bufBytes i L = false :=
      Bool.eq_false_iff.2 fun h => by
        obtain ⟨r, hr, hlt⟩ := outOfRange_iff.1 h
        exact absurd (hin r hr) (not_le.2 hlt)
    obtain ⟨w, r, hw, hr, a, hwa, hwa', hra, hra'⟩ := hshare
    have hover : windowOverlaps i L = true := windowOverlaps_of_overlap hw hr (overlap_of_mem hwa hwa' hra hra')
    exact exec_of_validate hl (by simp [validate, hz, hiv, hlen, hm, hrange, hover])

/-! OVR (R28, R232) -/

theorem engineStep_keepsOvr {s t : State} (h : engineStep s = .next t) : t.ovr = s.ovr := by
  obtain ⟨-, rfl⟩ | ⟨L, -, rfl | ⟨i, -, hc⟩⟩ := engineStep_next h
  · rfl
  · rfl
  · obtain ⟨m, n, c, o, r, r2, rfl⟩ := hc.eq_finish
    rfl

section
variable {s t : State} (ho : s.ovr = true)
include ho

/-- A STATUS write with bit 2 = 1 is the only register write that clears OVR. -/
theorem regWrite_keepsOvr (off : BitVec 12) (v : Word) :
    (regWrite s off v).ovr = true ∨ off = 0x010#12 ∧ v.getLsbD 2 = true := by
  obtain hw | ⟨-, hw⟩ | ⟨hoff, hw⟩ | ⟨-, hw⟩ | ⟨o, hw⟩ := regWrite_cases s off v <;> rw [hw]
  · exact .inl ho
  · exact .inl ho
  · rw [writeStatus_eq]
    cases hv : v.getLsbD 2 with
    | false => exact .inl (by simp [ho])
    | true => exact .inr ⟨hoff, rfl⟩
  · cases hb : s.busy with
    | false => rw [writeCmd_of_idle hb]; exact .inl ho
    | true => rw [writeCmd_of_busy hb]; exact .inl rfl
  · exact .inl ho

theorem hostAccess_keepsOvr {op : HostOp} (h : hostAccess op s = .next t) :
    t.ovr = true ∨ ∃ v, op = .regWrite .w32 0x010#12 v ∧ v.getLsbD 2 = true := by
  obtain ⟨v, rfl⟩ | ⟨off, v, rfl, rfl⟩ | hw := hostAccess_next h
  · exact .inl ho
  · exact (regWrite_keepsOvr ho off v).imp_right fun ⟨hoff, hv⟩ => ⟨v, hoff ▸ rfl, hv⟩
  · cases hw with
    | outside => exact .inl ho
    | inside => exact .inl ho

theorem step_keepsOvr (h : step s = .next t) :
    t.ovr = true ∨ (∃ rest, s.agenda = .reset :: rest) ∨
      ∃ v rest, s.agenda = .host (.regWrite .w32 0x010#12 v) :: rest ∧ v.getLsbD 2 = true := by
  obtain ⟨-, he⟩ | ⟨-, -, he⟩ | ⟨rest, hs, -⟩ | ⟨op, rest, hs, -, hop⟩ := step_next h
  · exact .inl ((engineStep_keepsOvr he).trans ho)
  · exact .inl ((engineStep_keepsOvr he).trans ho)
  · exact .inr (.inl ⟨rest, hs⟩)
  · obtain hkept | ⟨v, rfl, hv⟩ := hostAccess_keepsOvr (s := s.popTurn) ho hop
    · exact .inl hkept
    · exact .inr (.inr ⟨v, rest, hs, hv⟩)

/-- The steps after which OVR is no longer 1. -/
theorem step_clearsOvr_iff (h : step s = .next t) :
    t.ovr = false ↔ (∃ rest, s.agenda = .reset :: rest) ∨
      ∃ v rest, s.agenda = .host (.regWrite .w32 0x010#12 v) :: rest ∧ v.getLsbD 2 = true := by
  constructor
  · intro ht
    exact (step_keepsOvr ho h).resolve_left (by simp [ht])
  · rintro (⟨rest, hs⟩ | ⟨v, rest, hs, hv⟩)
    · rw [step_of_reset hs] at h
      cases h
      rfl
    · rw [statusWriteAcknowledges s v rest hs] at h
      cases h
      simp [hv]

end

theorem runCommand_of_empty {i : Instr} {s : State} {p : Latch → Result} (hl : s.latch = none) :
    runCommand i s p = .next s := by simp [runCommand, hl]

/-- An outcome with OVR at `b` in its next state. -/
def withOvr (b : Bool) : Result → Result
  | .next t => .next { t with ovr := b }
  | .fault f => .fault f
  | .refused r => .refused r

section
variable (s : State) (b : Bool)

theorem withRegion_withOvr (r : Region) {k k' : List Byte → Result} (hk : ∀ bs, k' bs = withOvr b (k bs)) :
    withRegion { s with ovr := b } r k' = withOvr b (withRegion s r k) := by
  simp only [withRegion]
  cases Memory.readRange s.buf r.addr r.len with
  | ok bs => exact hk bs
  | error a => rfl

theorem withIv_withOvr (ivp : Bool) (L : Latch) {k k' : List Byte → Result} (hk : ∀ bs, k' bs = withOvr b (k bs)) :
    withIv ivp { s with ovr := b } L k' = withOvr b (withIv ivp s L k) := by
  cases ivp with
  | false => exact hk _
  | true => exact withRegion_withOvr s b L.iv hk

theorem runCommand_withOvr (i : Instr) {p p' : Latch → Result} (hp : ∀ L, p' L = withOvr b (p L)) :
    runCommand i { s with ovr := b } p' = withOvr b (runCommand i s p) := by
  obtain ⟨hl, h⟩ | ⟨L, hl, ⟨e, hv, h⟩ | ⟨hv, h⟩⟩ := runCommand_cases i s p <;> rw [h]
  · exact runCommand_of_empty hl
  · exact runCommand_of_error hl hv
  · exact (runCommand_of_valid (s := { s with ovr := b }) hl hv).trans (hp L)

theorem finishEncrypt_withOvr (w : Region) (out : Option (List Byte)) :
    finishEncrypt { s with ovr := b } w out = { finishEncrypt s w out with ovr := b } := by cases out <;> rfl

theorem finishDecrypt_withOvr (w : Region) (pd : Option (List Byte)) :
    finishDecrypt { s with ovr := b } w pd = { finishDecrypt s w pd with ovr := b } := by
  cases pd with
  | none => rfl
  | some p =>
    simp only [finishDecrypt]
    cases stripFn p Config.cipherBs <;> rfl

/-- The commands one by one: none reads OVR or writes it. -/
theorem exec_withOvr (i : Instr) : exec i { s with ovr := b } = withOvr b (exec i s) := by
  cases i with
  | pad bs => exact runCommand_withOvr s b _ fun L => withRegion_withOvr s b _ fun d => rfl
  | pvalid bs => exact runCommand_withOvr s b _ fun L => withRegion_withOvr s b _ fun d => rfl
  | pstrip bs =>
    refine runCommand_withOvr s b _ fun L => withRegion_withOvr s b _ fun d => ?_
    cases stripFn d bs <;> rfl
  | ecbenc =>
    exact runCommand_withOvr s b _ fun L => withRegion_withOvr s b _ fun k => withRegion_withOvr s b _ fun d =>
      congrArg _ (finishEncrypt_withOvr s b _ _)
  | ecbdec =>
    exact runCommand_withOvr s b _ fun L => withRegion_withOvr s b _ fun k => withRegion_withOvr s b _ fun c =>
      congrArg _ (finishDecrypt_withOvr s b _ _)
  | cbcenc ivp =>
    exact runCommand_withOvr s b _ fun L => withRegion_withOvr s b _ fun k => withRegion_withOvr s b _ fun d =>
      withIv_withOvr s b ivp L fun iv => congrArg _ (finishEncrypt_withOvr s b _ _)
  | cbcdec ivp =>
    exact runCommand_withOvr s b _ fun L => withRegion_withOvr s b _ fun k => withRegion_withOvr s b _ fun c =>
      withIv_withOvr s b ivp L fun iv => congrArg _ (finishDecrypt_withOvr s b _ _)
  | hamd =>
    exact runCommand_withOvr s b _ fun L => withRegion_withOvr s b _ fun x => withRegion_withOvr s b _ fun y => rfl
  | hpair k => exact runCommand_withOvr s b _ fun L => withRegion_withOvr s b _ fun d => rfl
  | ecbdet bs => exact runCommand_withOvr s b _ fun L => withRegion_withOvr s b _ fun d => rfl

end

theorem step_of_cmdWrite_busy {s : State} {w : Word} {rest : List Event} (hb : s.busy = true)
    (hs : s.agenda = .host (.regWrite .w32 0x014#12 w) :: rest) : step s = .next { s with ovr := true, agenda := rest } := by
  have hcmd : ∀ u : State, regWrite u 0x014#12 w = u.writeCmd w := fun _ => rfl
  rw [step_of_regWrite hs (by decide), hcmd, writeCmd_of_busy (s := { s with agenda := rest }) hb]

/-- Settles O10: the write to CMD sets OVR alone, the steps that clear OVR are listed, and no command reads it. -/
theorem cmdWriteWhileBusyIsDropped : Obligations.CmdWriteWhileBusyIsDropped :=
  ⟨fun _ _ _ hb hs => step_of_cmdWrite_busy hb hs, fun _ _ ho h => step_clearsOvr_iff ho h,
    fun s _ b i h => (exec_withOvr s b i).trans (congrArg (withOvr b) h), fun _ _ => rfl⟩

/-! The interrupt level (R41, R229) -/

theorem irq_of_not_done {s : State} (h : s.done = false) : s.irq = false := by simp [State.irq, h]

theorem irq_of_done {s : State} (h : s.done = true) : s.irq = s.ien := by simp [State.irq, h]

/-- Settles O20: a CTRL write sets IEN, each of the other steps sets or clears DONE. -/
theorem interruptLevel : Obligations.InterruptLevel := by
  refine ⟨fun s => Bool.and_eq_true_iff, fun s t v rest hs h => ?_, fun s t v rest hs hv h => ?_,
    fun s t v rest hs hb h => ?_, fun s t rest hs h => ?_, fun s t L i hl h => ?_⟩
  · rw [step_of_regWrite hs (by decide)] at h
    cases h
    rfl
  · rw [statusWriteAcknowledges s v rest hs] at h
    cases h
    exact irq_of_not_done (by simp [hv])
  · rw [step_of_cmdWrite hb hs] at h
    cases h
    exact irq_of_not_done rfl
  · rw [step_of_reset hs] at h
    cases h
    exact irq_of_not_done rfl
  · obtain ⟨m, n, c, o, r, r2, rfl⟩ := (completion_of_exec hl h).eq_finish
    exact irq_of_done rfl

end Sys2Proof.Machine

/-! The reset and hazard family (70_reset_and_hazards.md): the block after a reset, and the stop at a byte that holds no value. -/

namespace Sys2Proof.Machine

/-! Reset between two steps (R260 to R263) -/

/-- Settles O19: the step is `afterReset`, whose fields are the ones listed. -/
theorem resetStep : Obligations.ResetStep := by
  intro s rest hs
  have hagenda : s.popTurn.afterReset.agenda = rest := congrArg List.tail hs
  exact ⟨_, step_of_reset hs, rfl, rfl, rfl, rfl, rfl, rfl, rfl, rfl, rfl, rfl, rfl, irq_of_not_done rfl, Memory.get_nil,
    rfl, rfl, rfl, rfl, hagenda, rfl⟩

/-! A byte without a value (R263, I1) -/

section
variable {s t : State}

/-- Reading a region that has a byte without a value stops at such a byte, whatever was to be done with the bytes. -/
theorem withRegion_of_unwritten {r : Region} {a : Nat} (k : List Byte → Result) (hlo : r.addr ≤ a) (hhi : a < r.addr + r.len)
    (hnone : Memory.get s.buf a = none) :
    ∃ x, r.addr ≤ x ∧ x < r.addr + r.len ∧ Memory.get s.buf x = none ∧ withRegion s r k = .fault (.unwrittenByte x) := by
  obtain ⟨bs, hok, -⟩ | ⟨x, -, hfault, hxlo, hxhi, hx⟩ := withRegion_cases s r k
  · obtain ⟨y, herror⟩ := Memory.readRange_of_unwritten hlo hhi hnone
    exact absurd (hok.symm.trans herror) nofun
  · exact ⟨x, hxlo, hxhi, hx, hfault⟩

theorem withRegion_next_written {r : Region} {k : List Byte → Result} (h : withRegion s r k = .next t) :
    s.written r ∧ ∃ bs, k bs = .next t := by
  obtain ⟨bs, -, -, hk⟩ := withRegion_next h
  refine ⟨fun a hlo hhi hnone => ?_, bs, hk⟩
  obtain ⟨x, -, -, -, hfault⟩ := withRegion_of_unwritten k hlo hhi hnone
  exact absurd (h.symm.trans hfault) nofun

theorem withIv_next_written {ivp : Bool} {L : Latch} {k : List Byte → Result} (h : withIv ivp s L k = .next t) :
    ∀ r ∈ ivReads ivp L, s.written r := by
  cases ivp with
  | false => exact List.forall_mem_nil _
  | true => exact List.forall_mem_singleton.2 (withRegion_next_written h).1

/-- The converse of O34: a command that passes its checks and completes has read a value at every byte of its regions. -/
theorem written_of_exec_next {i : Instr} {L : Latch} (hl : s.latch = some L) (hv : validate s.bufBytes i L = none)
    (h : exec i s = .next t) : ∀ r ∈ readsOf i L, s.written r := by
  have performs : ∀ p : Latch → Result, exec i s = runCommand i s p → p L = .next t := fun p hp =>
    (runCommand_of_valid hl hv).symm.trans (hp.symm.trans h)
  cases i with
  | pad _ | pvalid _ | pstrip _ | hpair _ | ecbdet _ =>
    obtain ⟨hsrc, -⟩ := withRegion_next_written (performs _ rfl)
    exact List.forall_mem_singleton.2 hsrc
  | hamd =>
    obtain ⟨hsrc, a, hp⟩ := withRegion_next_written (performs _ rfl)
    obtain ⟨hsrc2, -⟩ := withRegion_next_written hp
    exact List.forall_mem_cons.2 ⟨hsrc, List.forall_mem_singleton.2 hsrc2⟩
  | ecbenc | ecbdec =>
    obtain ⟨hkey, k, hp⟩ := withRegion_next_written (performs _ rfl)
    obtain ⟨hsrc, -⟩ := withRegion_next_written hp
    exact List.forall_mem_cons.2 ⟨hsrc, List.forall_mem_singleton.2 hkey⟩
  | cbcenc ivp | cbcdec ivp =>
    obtain ⟨hkey, k, hp⟩ := withRegion_next_written (performs _ rfl)
    obtain ⟨hsrc, d, hp⟩ := withRegion_next_written hp
    exact List.forall_mem_cons.2 ⟨hsrc, List.forall_mem_cons.2 ⟨hkey, withIv_next_written hp⟩⟩

theorem bufRead_of_unwritten {a n i : Nat} (h : a + n ≤ s.bufBytes) (hi : i < n) (hnone : Memory.get s.buf (a + i) = none) :
    ∃ j, j < n ∧ bufRead s a n = .fault (.unwrittenByte (a + j)) ∧ Memory.get s.buf (a + j) = none := by
  rw [bufRead, if_pos h]
  obtain ⟨x, hxlo, hxhi, hx, hfault⟩ := withRegion_of_unwritten (r := ⟨a, n⟩) (fun bs => .next (s.respond (wordOfBytes bs)))
    (Nat.le_add_right a i) (Nat.add_lt_add_left hi a) hnone
  obtain ⟨j, rfl⟩ := Nat.exists_eq_add_of_le hxlo
  exact ⟨j, Nat.lt_of_add_lt_add_left hxhi, hfault, hx⟩

end

/-- Settles O33: a command does not complete without a value at every byte it reads, and a host read is one region. -/
theorem unwrittenByteStops : Obligations.UnwrittenByteStops := by
  refine ⟨fun s L i r a hl hv hr hlo hhi hnone => ?_, fun s a rest hb ha hnone hs => ?_,
    fun s a i rest hb h4 ha hi hnone hs => ?_⟩
  · cases hx : exec i s with
    | next t => exact absurd hnone (written_of_exec_next hl hv hx r hr a hlo hhi)
    | fault f =>
      obtain ⟨-, -, x, -, -, -, rfl, -, -, -, hnonex⟩ := exec_fault hx
      exact ⟨x, rfl, hnonex⟩
    | refused q => exact absurd hx (exec_not_refused i s q)
  · obtain ⟨j, hj, hfault, -⟩ := bufRead_of_unwritten (s := { s with agenda := rest }) ha Nat.one_pos hnone
    obtain rfl := Nat.lt_one_iff.1 hj
    exact (step_of_bufRead8 hb hs).trans hfault
  · rw [step_of_bufRead32 hb hs h4]
    exact bufRead_of_unwritten (s := { s with agenda := rest }) ha hi hnone

end Sys2Proof.Machine

/-! The implementation-defined family (93_implementation_defined.md): the one reason for which the machine stops. -/

namespace Sys2Proof.Machine

/-! Where a step faults (I1) -/

theorem engineStep_fault {s : State} {f : Fault} (h : engineStep s = .fault f) :
    ∃ a, f = .unwrittenByte a ∧ a < s.bufBytes ∧ Memory.get s.buf a = none := by
  cases hl : s.latch with
  | none => exact nomatch (engineStep_of_empty hl).symm.trans h
  | some L =>
    cases hd : decode L.cmd with
    | error e => exact nomatch (engineStep_of_illegal hl hd).symm.trans h
    | ok i =>
      obtain ⟨-, -, a, -, -, -, hf, -, -, ha, hnone⟩ := exec_fault ((engineStep_of_latch hl hd).symm.trans h)
      exact ⟨a, hf, ha, hnone⟩

/-- Settles O43, agent by agent: the engine and the host fault only at such a byte, and a reset never faults. Using up a turn
changes neither the buffer nor BUF_BYTES. -/
theorem faultOnlyForUnwrittenByte : Obligations.FaultOnlyForUnwrittenByte := by
  intro s f h
  match hs : s.agenda with
  | [] => exact engineStep_fault (step_of_idle hs ▸ h)
  | .engine :: rest => exact engineStep_fault (s := { s with agenda := rest }) (step_of_engine hs ▸ h)
  | .reset :: rest => exact nomatch (step_of_reset hs).symm.trans h
  | .host op :: rest =>
    cases hw : stalls op s with
    | true => exact engineStep_fault (step_of_stall hs hw ▸ h)
    | false => exact hostAccess_fault (s := { s with agenda := rest }) (step_of_host hs hw ▸ h)

end Sys2Proof.Machine
